-- ==== Sys2Proof/Word.lean ====
section
/-! DEFINITION. The two word types of the block: bytes of operand memory, and the 32-bit words that are
limbs, registers and host data (00_scope.md R3, R7: `LIMB_BITS` = 32, `XLEN` = 32). -/

namespace Sys2Proof

/-- One byte of operand memory. -/
abbrev Byte := BitVec 8

/-- A 32-bit word: a limb, a register, a command word, the data of a host access. -/
abbrev Word := BitVec 32

end Sys2Proof
end

