-- ==== Sys2Proof/Machine/Datapath.lean ====
section
/-! DEFINITION. The datapath of the five units as pure functions on bytes, limbs and numbers: byte order
(20_memory.md R63 to R68), and the cells and limb-level reference algorithms of files 40 to 46. Limb lists have
index 0 most significant (R9); a position counts from the least-significant end (R18). -/

namespace Sys2Proof.Machine

/-! ### Byte order and values -/

/-- The four bytes of a limb at ascending addresses, least-significant first (R64: byte `i` is `v[8i+7:8i]`). -/
def leBytes (v : Word) : List Byte :=
  [v.extractLsb' 0 8, v.extractLsb' 8 8, v.extractLsb' 16 8, v.extractLsb' 24 8]

/-- The limb whose bytes at ascending addresses are `b0 b1 b2 b3` (R64, `LimbRead`). -/
def limbOfBytes (b0 b1 b2 b3 : Byte) : Word :=
  BitVec.ofNat 32 (b0.toNat + b1.toNat * 2 ^ 8 + b2.toNat * 2 ^ 16 + b3.toNat * 2 ^ 24)

/-- The bytes of a limb buffer at ascending addresses: limb index 0 at the lowest (R63). -/
def bytesOfLimbs (ls : List Word) : List Byte := ls.flatMap leBytes

/-- `Val` of a list of limbs (R66): limb `k` of `n` weighs `2^(32*(n-1-k))`. -/
def limbsVal : List Word → Nat
  | [] => 0
  | l :: ls => l.toNat * 2 ^ (32 * ls.length) + limbsVal ls

/-- The `n` limbs of a number (R67, `Store`): limb `k` is `(v >> (32*(n-1-k))) mod 2^32`. -/
def limbsOfNat : (n : Nat) → (v : Nat) → List Word
  | 0, _ => []
  | n + 1, v => BitVec.ofNat 32 (v >>> (32 * n)) :: limbsOfNat n v

/-- The number-order image of `v` in `n` bytes, most-significant byte first (R68): byte `i` is
`(v >> (8*(n-1-i))) mod 256`. -/
def numberImage : (n : Nat) → (v : Nat) → List Byte
  | 0, _ => []
  | n + 1, v => BitVec.ofNat 8 (v >>> (8 * n)) :: numberImage n v

/-- The storage-order image of `v` in `n` limbs (R68): what R63 and R64 put in memory. -/
def storageImage (n v : Nat) : List Byte := bytesOfLimbs (limbsOfNat n v)

/-! ### Byte reversal unit (40_byte_reversal.md) -/

/-- `BREV` (R130): `r[i] = b[n-1-i]`. -/
def brev (b : List Byte) : List Byte := b.reverse

/-- `BREV` applied with length 4 to each limb in turn (R133). A buffer of limbs has a multiple of four bytes, so the
last case is reached with no byte left. -/
def bswap : List Byte → List Byte
  | b0 :: b1 :: b2 :: b3 :: rest => brev [b0, b1, b2, b3] ++ bswap rest
  | rest => rest

/-! ### Sizing unit (41_representation.md) -/

/-- `n` limbs, all zero (R150). -/
def zeroLimbs (n : Nat) : List Word := List.replicate n 0

/-- `n` limbs, zero but for `w` at limb offset `offs` from the least-significant end (R151: index `n - offs - 1`). -/
def seedLimbs (n : Nat) (w : Word) (offs : Nat) : List Word := (zeroLimbs n).set (n - offs - 1) w

/-- A narrower source in `n` limbs: zero limbs above it, its limbs at the least-significant end (R152). -/
def widenLimbs (n : Nat) (src : List Word) : List Word := zeroLimbs (n - src.length) ++ src

/-! ### Adder (43_add.md) -/

/-- `LADD` (R190): sum and carry out. -/
def ladd (a b : Word) (cin : Bool) : Word × Bool :=
  let s := a.toNat + b.toNat + cin.toNat
  (BitVec.ofNat 32 (s % 2 ^ 32), decide (s / 2 ^ 32 = 1))

/-- The walk of `AddLimbs` over positions: both lists least-significant limb first, the carry rippling through every
limb above the source's width (R191; 90_conflicts.md C5). -/
def addWalk : (t s : List Word) → (c : Bool) → List Word × Bool
  | [], _, c => ([], c)
  | t :: ts, [], c =>
    let x := ladd t 0 c
    let r := addWalk ts [] x.2
    (x.1 :: r.1, r.2)
  | t :: ts, s :: ss, c =>
    let x := ladd t s c
    let r := addWalk ts ss x.2
    (x.1 :: r.1, r.2)

/-- `AddLimbs` (R191): the operands are aligned at their least-significant ends; the carry starts at 0. -/
def addLimbs (t s : List Word) : List Word × Bool :=
  let r := addWalk t.reverse s.reverse false
  (r.1.reverse, r.2)

/-! ### Subtractor (44_sub.md) -/

/-- `LSUB` (R210): difference and borrow out, through a signed accumulator. -/
def lsub (a b : Word) (bin : Bool) : Word × Bool :=
  let d : Int := (a.toNat : Int) - (b.toNat : Int) - (bin.toNat : Int)
  if d < 0 then (BitVec.ofInt 32 (d + 2 ^ 32), true) else (BitVec.ofInt 32 d, false)

/-- The walk of `SubLimbs` over positions: the source counts as zero above its width (R211; 90_conflicts.md C7). -/
def subWalk : (t s : List Word) → (b : Bool) → List Word × Bool
  | [], _, b => ([], b)
  | t :: ts, [], b =>
    let x := lsub t 0 b
    let r := subWalk ts [] x.2
    (x.1 :: r.1, r.2)
  | t :: ts, s :: ss, b =>
    let x := lsub t s b
    let r := subWalk ts ss x.2
    (x.1 :: r.1, r.2)

/-- `SubLimbs` (R211). -/
def subLimbs (t s : List Word) : List Word × Bool :=
  let r := subWalk t.reverse s.reverse false
  (r.1.reverse, r.2)

/-! ### Multiplier (45_mul.md) -/

/-- `LMUL` (R230): the low and the high half of `a * b + cin`. -/
def lmul (a b cin : Word) : Word × Word :=
  let p := a.toNat * b.toNat + cin.toNat
  (BitVec.ofNat 32 (p % 2 ^ 32), BitVec.ofNat 32 (p / 2 ^ 32))

/-- `Accumulate` (R231): a partial product at or above the accumulator's width is dropped (90_conflicts.md C10). -/
def accumulate (acc : List Word) (lo : Word) (shift : Nat) : List Word :=
  if shift < acc.length then (addLimbs acc (seedLimbs acc.length lo shift)).1 else acc

/-- One row of `MUL` (R232): the target's limbs least-significant first (R234; 90_conflicts.md C1), the first of
them at limb offset `shift`; the carry left at the end is dropped. -/
def mulRow (si : Word) : (t : List Word) → (shift : Nat) → (carry : Word) → (acc : List Word) → List Word
  | [], _, _, acc => acc
  | t :: ts, shift, carry, acc =>
    let x := lmul t si carry
    mulRow si ts (shift + 1) x.2 (accumulate acc x.1 shift)

/-- The rows of `MUL`, one per source limb; a source limb with `k` limbs below it starts at offset `k` (R232). -/
def mulRows (t : List Word) : (s : List Word) → (acc : List Word) → List Word
  | [], acc => acc
  | si :: ss, acc => mulRows t ss (mulRow si t.reverse ss.length 0 acc)

/-- The product truncated to the target's width (R232). -/
def mulLimbs (t s : List Word) : List Word := mulRows t s (zeroLimbs t.length)

/-! ### Divider (46_div.md) -/

/-- `DSTEP` (R250): one bit position of restoring division; the new remainder and the new quotient. -/
def dstep (rem q bit b d : Nat) : Nat × Nat :=
  let r := (rem <<< 1) ||| bit
  if d ≤ r then (r - d, q ||| (1 <<< b)) else (r, q)

/-- The loop of `DivBits` from bit position `b - 1` down to 0; the quotient and the remainder at its end. -/
def divWalk (n d : Nat) : (b rem q : Nat) → Nat × Nat
  | 0, rem, q => (q, rem)
  | b + 1, rem, q =>
    let x := dstep rem q ((n >>> b) &&& 1) b d
    divWalk n d b x.1 x.2

/-- `DivBits` (R251): quotient and remainder of the `bits`-bit dividend `n`. -/
def divBits (n d bits : Nat) : Nat × Nat := divWalk n d bits 0 0

end Sys2Proof.Machine
end

