-- ==== Sys2Proof/Config.lean ====
section
/-! DEFINITION. What an instance of the block fixes (00_scope.md R7: the parameters `MAX_BITS` and `MEM_BYTES`),
and the free values: the contents that the spec leaves unspecified. -/

namespace Sys2Proof

/-- The parameters of one instance of the block (R7). Every statement that does not name a `Config` holds for
every one; a state carries its own, and no step changes it. -/
structure Config where
  /-- `MAX_BITS`: the largest operand bit-size a command accepts. -/
  maxBits : Nat
  /-- `MEM_BYTES`: the size of operand memory in bytes. -/
  memBytes : Nat
  deriving DecidableEq, Repr

/-- The bounds R7 puts on the parameters. `maxBits < 2^32` is DESIGN CHOICE (log entry 2): R33 gives
`CAP_BITS` 32 bits. -/
abbrev Config.wf (c : Config) : Prop :=
  c.maxBits % 32 = 0 ∧ 32 ≤ c.maxBits ∧ c.maxBits < 2 ^ 32 ∧
    c.memBytes % 4 = 0 ∧ 4 ≤ c.memBytes ∧ c.memBytes ≤ 2 ^ 31

/-- The default instance of R7: `MAX_BITS` = 512, `MEM_BYTES` = 4096. -/
def Config.standard : Config := { maxBits := 512, memBytes := 4096 }

/-- FREE VALUE (20_memory.md R82, 93_implementation_defined.md U1). `Config.resetByte k a` is what the byte at
address `a` holds after the `k`-th reset until something writes it. Log entry 3. -/
opaque Config.resetByte : Nat → Nat → BitVec 8

/-- FREE VALUE (70_reset_and_hazards.md R321, 93_implementation_defined.md U2). `Config.abandonedByte k a` is what
the byte at address `a`, of a buffer that the `k`-th abandoned command writes, holds afterwards. Log entry 4. -/
opaque Config.abandonedByte : Nat → Nat → BitVec 8

end Sys2Proof
end

