-- ==== Sys2Proof/Syntax.lean ====
section
/-! DEFINITION. The commands of the block: one constructor per row of spec/opcode_table.json
(30_encoding.md R103). Every other operand is in an argument register (R102, R111). -/

namespace Sys2Proof

/-- A decoded command word. `signed` is bit `S` of the word (R101, R106): a word with `S` = 1 decodes to its
command and is refused afterwards, so the bit is part of every command. `offs` is the `IMM` field, the limb
offset of `SETW` (R102). -/
inductive Instr where
  /-- `REV` (R131): reverse `LEN` bytes in place. -/
  | rev (signed : Bool)
  /-- `REVC` (R132): reverse `LEN` bytes into another buffer. -/
  | revc (signed : Bool)
  /-- `BSWP` (R133): swap the four bytes of every limb. -/
  | bswp (signed : Bool)
  /-- `ZERO` (R150): zero-fill the target. -/
  | zero (signed : Bool)
  /-- `SETW` (R151): zero the target and place one word. -/
  | setw (signed : Bool) (offs : Nat)
  /-- `COPY` (R152): copy the source's value. -/
  | copy (signed : Bool)
  /-- `ADD` (R192). -/
  | add (signed : Bool)
  /-- `SUB` (R212). -/
  | sub (signed : Bool)
  /-- `MUL` (R232). -/
  | mul (signed : Bool)
  /-- `DIV` (R252): quotient only. -/
  | div (signed : Bool)
  /-- `DIVR` (R253): quotient and remainder. -/
  | divr (signed : Bool)
  deriving DecidableEq, Repr

end Sys2Proof
end

