-- ==== Sys2Proof/WellFormed.lean ====
section
/-! DEFINITION. Which terms of `Instr` a command word can stand for. -/

namespace Sys2Proof

/-- The one check: a limb offset fits the 16-bit `IMM` field (30_encoding.md R102: "an unsigned number 0 to 65535").
Whether the offset is below the target's limb count is judged when the command is issued (R288), not here. -/
def Instr.wellFormed : Instr → Bool
  | .rev _ => true
  | .revc _ => true
  | .bswp _ => true
  | .zero _ => true
  | .setw _ offs => decide (offs < 65536)
  | .copy _ => true
  | .add _ => true
  | .sub _ => true
  | .mul _ => true
  | .div _ => true
  | .divr _ => true

end Sys2Proof
end

