-- ==== Sys2Proof/Decode.lean ====
section
/-! DEFINITION. The decoder of command words, total on every 32-bit word and refusing by name
(30_encoding.md R100 to R107), and the encoder written from the same tables. -/

namespace Sys2Proof

/-- Why a word selects no command. All three are the one error `IllegalCommand` (R104, R283). -/
inductive DecodeError where
  /-- `OP` is none of the eleven values of R103. -/
  | unassignedOpcode
  /-- `RSV` (bits 15:9) is not zero. -/
  | reservedBits
  /-- `IMM` is not zero and the command is not `SETW`. -/
  | unusedImmediate
  deriving DecidableEq, Repr

/-- `OP`, bits 7:0 (R101). -/
def opField (w : Word) : BitVec 8 := w.extractLsb' 0 8

/-- `S`, bit 8 (R101). -/
def signedField (w : Word) : Bool := w.getLsbD 8

/-- `RSV`, bits 15:9 (R101). -/
def reservedField (w : Word) : BitVec 7 := w.extractLsb' 9 7

/-- `IMM`, bits 31:16 (R101). -/
def immField (w : Word) : BitVec 16 := w.extractLsb' 16 16

/-- The opcode map of R103: the command that an `OP` selects, with its `S` and its `IMM`. -/
def commandOf (op : BitVec 8) (signed : Bool) (imm : BitVec 16) : Option Instr :=
  match op.toNat with
  | 0x01 => some (.rev signed)
  | 0x02 => some (.revc signed)
  | 0x03 => some (.bswp signed)
  | 0x08 => some (.zero signed)
  | 0x09 => some (.setw signed imm.toNat)
  | 0x0A => some (.copy signed)
  | 0x10 => some (.add signed)
  | 0x11 => some (.sub signed)
  | 0x12 => some (.mul signed)
  | 0x13 => some (.div signed)
  | 0x14 => some (.divr signed)
  | _ => none

/-- Decode (R104). The immediate of `SETW` is zero-extended and unscaled (R102). -/
def decode (w : Word) : Except DecodeError Instr :=
  match commandOf (opField w) (signedField w) (immField w) with
  | none => .error .unassignedOpcode
  | some i =>
    if reservedField w ≠ 0 then .error .reservedBits
    else if opField w ≠ 0x09 ∧ immField w ≠ 0 then .error .unusedImmediate
    else .ok i

/-- The word of format `C` with the given fields (R101): `IMM`, seven zero bits, `S`, `OP`. -/
def formatC (op : BitVec 8) (signed : Bool) (imm : BitVec 16) : Word :=
  imm ++ (0 : BitVec 7) ++ BitVec.ofBool signed ++ op

/-- The word of a command, from the `word` column of R103 with `S` added at bit 8. -/
def encode : Instr → Word
  | .rev signed => formatC 0x01 signed 0
  | .revc signed => formatC 0x02 signed 0
  | .bswp signed => formatC 0x03 signed 0
  | .zero signed => formatC 0x08 signed 0
  | .setw signed offs => formatC 0x09 signed (BitVec.ofNat 16 offs)
  | .copy signed => formatC 0x0A signed 0
  | .add signed => formatC 0x10 signed 0
  | .sub signed => formatC 0x11 signed 0
  | .mul signed => formatC 0x12 signed 0
  | .div signed => formatC 0x13 signed 0
  | .divr signed => formatC 0x14 signed 0

/-- The instruction the decoder reads from a word numbered as spec/opcode_table.json numbers it. A command is one
32-bit word (R100), so bit 0 of the table is bit 0 of the word. -/
def decodeTableWord (nbits w : Nat) : Option Instr :=
  match decode (BitVec.ofNat 32 (w % 2 ^ nbits)) with
  | .ok i => some i
  | .error _ => none

end Sys2Proof
end

