-- ==== Sys2Proof/Machine/State.lean ====
section
/-! DEFINITION. The state of the block and of its host port as plain data, the reasons a step can stop, and the state
after reset (10_state.md, 20_memory.md R60, R82, 60_exceptions.md R280, 70_reset_and_hazards.md R320). -/

namespace Sys2Proof.Machine

/-- Why a step stops. -/
inductive Fault where
  /-- The engine would touch a byte of operand memory that does not exist (R60: an address is valid only below
  `MEM_BYTES`). Raised by `State.memRead` and `State.memWrite` in Machine/Ops.lean. SAFE: it stops the machine, and
  check 8 of R282 rejects every such command before it is reached. -/
  | outsideMemory (base len : Nat)
  deriving DecidableEq, Repr

/-- Why a step has no meaning. -/
inductive Refusal where
  /-- An arm of `exec` whose instruction has no meaning yet. SAFE: it stops the machine. No arm raises it. -/
  | notModelled (mnemonic : String)
  deriving DecidableEq, Repr

/-- The ten errors of R280. -/
inductive CmdError where
  | illegalCommand
  | signedUnsupported
  | badBitSize
  | oddLength
  | sourceWider
  | offsetRange
  | misaligned
  | outOfBounds
  | overlap
  | divideByZero
  deriving DecidableEq, Repr

/-- The names of the eight argument registers `x[0]` to `x[7]` (R20). -/
inductive ArgReg where
  | taddr
  | tbits
  | saddr
  | sbits
  | qaddr
  | raddr
  | word
  | len
  deriving DecidableEq, Repr

/-- The eight argument registers (R20). -/
structure Args where
  /-- `x[0]`, offset 0x010: base address of the target buffer. -/
  taddr : Word
  /-- `x[1]`, offset 0x014: bit-size of the target buffer. -/
  tbits : Word
  /-- `x[2]`, offset 0x018: base address of the source buffer. -/
  saddr : Word
  /-- `x[3]`, offset 0x01C: bit-size of the source buffer. -/
  sbits : Word
  /-- `x[4]`, offset 0x020: base address of the quotient buffer. -/
  qaddr : Word
  /-- `x[5]`, offset 0x024: base address of the remainder buffer. -/
  raddr : Word
  /-- `x[6]`, offset 0x028: the word `SETW` places. -/
  word : Word
  /-- `x[7]`, offset 0x02C: byte length for `REV` and `REVC`. -/
  len : Word
  deriving DecidableEq, Repr

/-- The three fields of `STATUS` (R32). Bits 31:10 are no state: they read 0 and ignore writes. -/
structure Status where
  /-- Bits 7:0: the code of the most recent issue. -/
  err : BitVec 8
  /-- Bit 8 (R26). -/
  wrap : Bool
  /-- Bit 9. -/
  sticky : Bool
  deriving DecidableEq, Repr

/-- Operand memory (R60): the bytes written since reset, by rising address. An address that is not listed has not
been written and reads as `State.unwrittenByte` (R82). -/
abbrev Memory := List Host.Cell

/-- The canonical form: addresses strictly rising, so that no address is listed twice. -/
abbrev Memory.wf (m : Memory) : Prop := m.Pairwise (fun c d => c.1 < d.1)

/-- What the host, or whoever drives the block, does at the block next. `off` is a byte offset from the block's
base, `size` a number of bytes (R61, R74); an access of any offset and size may be attempted. -/
inductive HostEvent where
  /-- A host read. -/
  | read (off size : Nat)
  /-- A host write; a narrower write uses the low bits of `data`. -/
  | write (off size : Nat) (data : Word)
  /-- The reset input asserted and released while the engine is idle (R320). -/
  | reset
  /-- The host writes `w` to `CMD` and reset is asserted while that command executes (R321). -/
  | resetDuring (w : Word)
  deriving DecidableEq, Repr

/-- What the host port answered to the latest host event. -/
inductive Response where
  /-- Nothing: no access since reset. -/
  | idle
  /-- A write completed. -/
  | done
  /-- A read returned this value, zero-extended to 32 bits. -/
  | data (v : Word)
  /-- A bus error response (R74): no state changed and a read returned no data. -/
  | busError
  deriving DecidableEq, Repr

/-- The whole state. The block's own state is `args`, `cmd`, `status` and `mem` (R37); `cfg` holds its two
parameters, which `CAP_BITS` and `CAP_MEM` show. `resets` and `abandons` are the MODEL's counters for the free
values (log entries 3, 4); `pending` and `response` are the host port (log entry 1). -/
structure State where
  /-- The parameters of the instance (R7), read through `CAP_BITS` (R33) and `CAP_MEM` (R34). -/
  cfg : Config
  /-- `x[0]` to `x[7]` (R20). -/
  args : Args
  /-- `CMD` (R31): the last word written. -/
  cmd : Word
  /-- `STATUS` (R32). -/
  status : Status
  /-- Operand memory (R60). -/
  mem : Memory
  /-- How many resets of an idle block have happened: it selects the unspecified contents of memory. -/
  resets : Nat
  /-- How many commands a reset has abandoned: it selects the unspecified contents of their buffers. -/
  abandons : Nat
  /-- The host events still to come, in the order the port performs them (R77). -/
  pending : List HostEvent
  /-- The answer to the latest host event. -/
  response : Response
  deriving DecidableEq, Repr

/-- All eight argument registers after reset (R39). -/
def Args.reset : Args :=
  { taddr := 0, tbits := 0, saddr := 0, sbits := 0, qaddr := 0, raddr := 0, word := 0, len := 0 }

/-- `STATUS` after reset (R39). -/
def Status.reset : Status := { err := 0, wrap := false, sticky := false }

/-- The block right after reset (R39, R320): registers 0, the engine idle, nothing written to operand memory, no host
event outstanding. The parameters are R7's defaults. -/
def State.reset : State :=
  { cfg := Config.standard, args := Args.reset, cmd := 0, status := Status.reset, mem := [], resets := 0,
    abandons := 0, pending := [], response := .idle }

end Sys2Proof.Machine
end

