-- ==== Sys2Proof/Machine/Flags.lean ====
section
/-! DEFINITION. `STATUS`: its word, its one flag `WRAP`, the error codes, and everything that writes it
(10_state.md R26, R32; 60_exceptions.md R280, R281). -/

namespace Sys2Proof.Machine

/-- The code of an error in `STATUS.ERR` (R280). -/
def CmdError.code : CmdError → BitVec 8
  | .illegalCommand => 1
  | .signedUnsupported => 2
  | .badBitSize => 3
  | .oddLength => 4
  | .sourceWider => 5
  | .offsetRange => 6
  | .misaligned => 7
  | .outOfBounds => 8
  | .overlap => 9
  | .divideByZero => 10

/-- What a read of `STATUS` returns (R32): 22 zero bits, `STICKY`, `WRAP`, `ERR`. -/
def Status.word (st : Status) : Word :=
  (0 : BitVec 22) ++ BitVec.ofBool st.sticky ++ BitVec.ofBool st.wrap ++ st.err

/-- `STATUS` after an accepted command (R26, R31): `ERR` 0, `WRAP` as the command says, `STICKY` as it was. -/
def Status.afterAccept (st : Status) (wrap : Bool) : Status := { err := 0, wrap := wrap, sticky := st.sticky }

/-- `STATUS` after a rejected command (R281): the error's code, `WRAP` 0, `STICKY` 1. -/
def Status.afterReject (_st : Status) (e : CmdError) : Status := { err := e.code, wrap := false, sticky := true }

/-- A host write to `STATUS` (R32): bit 9 set clears `STICKY`; nothing else changes. -/
def Status.hostWrite (st : Status) (v : Word) : Status :=
  if v.getLsbD 9 then { st with sticky := false } else st

end Sys2Proof.Machine
end

