-- ==== Sys2Proof/Machine/Operands.lean ====
section
/-! DEFINITION. The operands of the commands: which argument registers each reads and which buffers it uses and how
(30_encoding.md R111; 20_memory.md R62), and the conditions on buffers (20_memory.md R70 to R72). -/

namespace Sys2Proof

/-- Bit `S` of a command. -/
def Instr.signed : Instr → Bool
  | .rev b => b
  | .revc b => b
  | .bswp b => b
  | .zero b => b
  | .setw b _ => b
  | .copy b => b
  | .add b => b
  | .sub b => b
  | .mul b => b
  | .div b => b
  | .divr b => b

end Sys2Proof

namespace Sys2Proof.Machine

/-- The argument registers a command reads: the second column of R111. -/
def registersRead : Instr → List ArgReg
  | .rev _ => [.taddr, .len]
  | .revc _ => [.taddr, .saddr, .len]
  | .bswp _ => [.taddr, .tbits]
  | .zero _ => [.taddr, .tbits]
  | .setw _ _ => [.taddr, .tbits, .word]
  | .copy _ => [.taddr, .tbits, .saddr, .sbits]
  | .add _ => [.taddr, .tbits, .saddr, .sbits]
  | .sub _ => [.taddr, .tbits, .saddr, .sbits]
  | .mul _ => [.taddr, .tbits, .saddr, .sbits]
  | .div _ => [.taddr, .tbits, .saddr, .sbits, .qaddr]
  | .divr _ => [.taddr, .tbits, .saddr, .sbits, .qaddr, .raddr]

/-- The command reads register `r`. -/
def uses (i : Instr) (r : ArgReg) : Bool := (registersRead i).contains r

/-- The limb offset a command carries: only `SETW` has one (R102). -/
def limbOffset : Instr → Option Nat
  | .rev _ => none
  | .revc _ => none
  | .bswp _ => none
  | .zero _ => none
  | .setw _ offs => some offs
  | .copy _ => none
  | .add _ => none
  | .sub _ => none
  | .mul _ => none
  | .div _ => none
  | .divr _ => none

/-- The number an argument register holds: every operand is an unsigned number (R20, R102). -/
def Args.get (x : Args) : ArgReg → Word
  | .taddr => x.taddr
  | .tbits => x.tbits
  | .saddr => x.saddr
  | .sbits => x.sbits
  | .qaddr => x.qaddr
  | .raddr => x.raddr
  | .word => x.word
  | .len => x.len

/-- The argument registers with one of them written by the host (R22, R23: any value is held). -/
def Args.set (x : Args) (r : ArgReg) (v : Word) : Args :=
  match r with
  | .taddr => { x with taddr := v }
  | .tbits => { x with tbits := v }
  | .saddr => { x with saddr := v }
  | .sbits => { x with sbits := v }
  | .qaddr => { x with qaddr := v }
  | .raddr => { x with raddr := v }
  | .word => { x with word := v }
  | .len => { x with len := v }

/-- A buffer of a command: `len` bytes from `base`, a limb buffer or a byte buffer, read, written or both (R111). -/
structure Buffer where
  base : Nat
  len : Nat
  limb : Bool
  reads : Bool
  writes : Bool
  deriving DecidableEq, Repr

/-- The number of bytes of an operand of `bits` bits (R62). -/
def byteCount (bits : Word) : Nat := bits.toNat / 8

/-- The number of limbs of an operand of `bits` bits (R65). -/
def limbCount (bits : Word) : Nat := bits.toNat / 32

/-- The limb buffer of the operand (`base`, `bits`). -/
def limbBuffer (base bits : Word) (reads writes : Bool) : Buffer :=
  { base := base.toNat, len := byteCount bits, limb := true, reads := reads, writes := writes }

/-- The byte buffer of `len` bytes at `base`. -/
def byteBuffer (base len : Word) (reads writes : Bool) : Buffer :=
  { base := base.toNat, len := len.toNat, limb := false, reads := reads, writes := writes }

/-- The buffers of a command and their use: the third column of R111. -/
def buffers (i : Instr) (x : Args) : List Buffer :=
  match i with
  | .rev _ => [byteBuffer x.taddr x.len true true]
  | .revc _ => [byteBuffer x.taddr x.len false true, byteBuffer x.saddr x.len true false]
  | .bswp _ => [limbBuffer x.taddr x.tbits true true]
  | .zero _ => [limbBuffer x.taddr x.tbits false true]
  | .setw _ _ => [limbBuffer x.taddr x.tbits false true]
  | .copy _ => [limbBuffer x.taddr x.tbits false true, limbBuffer x.saddr x.sbits true false]
  | .add _ => [limbBuffer x.taddr x.tbits true true, limbBuffer x.saddr x.sbits true false]
  | .sub _ => [limbBuffer x.taddr x.tbits true true, limbBuffer x.saddr x.sbits true false]
  | .mul _ => [limbBuffer x.taddr x.tbits true true, limbBuffer x.saddr x.sbits true false]
  | .div _ =>
    [limbBuffer x.taddr x.tbits true false, limbBuffer x.saddr x.sbits true false, limbBuffer x.qaddr x.tbits false true]
  | .divr _ =>
    [limbBuffer x.taddr x.tbits true false, limbBuffer x.saddr x.sbits true false, limbBuffer x.qaddr x.tbits false true,
      limbBuffer x.raddr x.sbits false true]

/-- A bit-size is bad (R282, check 3). -/
def badBits (c : Config) (b : Word) : Bool :=
  decide (b.toNat = 0) || decide (b.toNat % 32 ≠ 0) || decide (c.maxBits < b.toNat)

/-- A limb buffer whose base is not a multiple of 4 (R70). Byte buffers may start anywhere. -/
def Buffer.misaligned (b : Buffer) : Bool := b.limb && decide (b.base % 4 ≠ 0)

/-- A buffer that does not lie inside operand memory, the sum taken without wrap-around (R71). -/
def Buffer.outside (c : Config) (b : Buffer) : Bool := decide (c.memBytes < b.base + b.len)

/-- Two ranges share no byte; an empty range is disjoint from every range (R72). -/
def Buffer.disjoint (a b : Buffer) : Bool :=
  decide (a.len = 0) || decide (b.len = 0) || decide (a.base + a.len ≤ b.base) || decide (b.base + b.len ≤ a.base)

/-- Two ranges are the same: same base and same length (R72). -/
def Buffer.identical (a b : Buffer) : Bool := decide (a.base = b.base) && decide (a.len = b.len)

/-- A pair of buffers that R72 allows: both only read; or disjoint; or identical with at most one written. -/
def Buffer.compatible (a b : Buffer) : Bool :=
  (!a.writes && !b.writes) || a.disjoint b || (a.identical b && !(a.writes && b.writes))

/-- Every pair of the list is allowed (R72). -/
def allCompatible : List Buffer → Bool
  | [] => true
  | b :: bs => bs.all b.compatible && allCompatible bs

/-- Address `a` lies in the buffer. -/
def Buffer.covers (b : Buffer) (a : Nat) : Bool := decide (b.base ≤ a) && decide (a < b.base + b.len)

/-- Address `a` lies in a buffer that the command writes. -/
def writesTo (i : Instr) (x : Args) (a : Nat) : Bool := (buffers i x).any fun b => b.writes && b.covers a

end Sys2Proof.Machine
end

