-- ==== Sys2Proof/Machine/Ops.lean ====
section
/-! DEFINITION. The shared operations of the machine: operand memory (20_memory.md), the validation of a command
(60_exceptions.md R282), rejection (R281) and acceptance (10_state.md R31). -/

namespace Sys2Proof.Machine

/-! ### Operand memory -/

/-- The byte written at `a`, if one has been. -/
def Memory.byte? : Memory → Nat → Option Byte
  | [], _ => none
  | c :: m, a => if c.1 = a then some c.2 else Memory.byte? m a

/-- Memory with `v` written at `a`; the list stays in canonical form. -/
def Memory.put : Memory → Nat → Byte → Memory
  | [], a, v => [(a, v)]
  | c :: m, a, v =>
    if a < c.1 then (a, v) :: c :: m
    else if a = c.1 then (a, v) :: m
    else c :: Memory.put m a v

/-- Memory with the bytes of the list written at ascending addresses from `a` (R14, `MemWrite`). -/
def Memory.putBytes : Memory → Nat → List Byte → Memory
  | m, _, [] => m
  | m, a, b :: bs => Memory.putBytes (Memory.put m a b) (a + 1) bs

/-- What a byte nothing has written since reset holds: an unspecified value, the same at every read (R82). Log entry 3. -/
def State.unwrittenByte (s : State) (a : Nat) : Byte := Config.resetByte s.resets a

/-- `M[a]` (R14): the value of the latest write, or the unspecified reset contents (R77, R82). -/
def State.byteAt (s : State) (a : Nat) : Byte := (s.mem.byte? a).getD (s.unwrittenByte a)

/-- `MemRead` (R14): `n` bytes, lowest address first. -/
def State.bytesAt (s : State) (a : Nat) : (n : Nat) → List Byte
  | 0 => []
  | n + 1 => s.byteAt a :: State.bytesAt s (a + 1) n

/-- `LimbRead` (R64). -/
def State.limbAt (s : State) (base k : Nat) : Word :=
  limbOfBytes (s.byteAt (base + 4 * k)) (s.byteAt (base + 4 * k + 1)) (s.byteAt (base + 4 * k + 2))
    (s.byteAt (base + 4 * k + 3))

/-- `Limbs` of `n` limbs (R65): `L[k] = LimbRead(base, k)`. -/
def State.limbsAt (s : State) (base n : Nat) : List Word := (List.range n).map (s.limbAt base)

/-- `Val` of the operand (`base`, `bits`) (R66). -/
def State.valAt (s : State) (base bits : Word) : Nat := limbsVal (s.limbsAt base.toNat (limbCount bits))

/-- Operand memory with the bytes of the list written from `a`. -/
def State.putBytes (s : State) (a : Nat) (bs : List Byte) : State := { s with mem := s.mem.putBytes a bs }

/-- Why the body of a command ends without a result. -/
inductive Stop where
  /-- `raise` (R15): the command is rejected. -/
  | reject (e : CmdError)
  /-- The machine stops. -/
  | fault (f : Fault)
  deriving DecidableEq, Repr

/-- The engine reads `n` bytes at `a`; bytes at or above `MEM_BYTES` do not exist (R60). -/
def State.memRead (s : State) (a n : Nat) : Except Stop (List Byte) :=
  if a + n ≤ s.cfg.memBytes then .ok (s.bytesAt a n) else .error (.fault (.outsideMemory a n))

/-- The engine writes bytes from `a`; bytes at or above `MEM_BYTES` do not exist (R60). -/
def State.memWrite (s : State) (a : Nat) (bs : List Byte) : Except Stop State :=
  if a + bs.length ≤ s.cfg.memBytes then .ok (s.putBytes a bs) else .error (.fault (.outsideMemory a bs.length))

/-- The engine reads the limbs of the operand (`base`, `bits`) (R65). -/
def State.readLimbs (s : State) (base bits : Word) : Except Stop (List Word) :=
  if base.toNat + byteCount bits ≤ s.cfg.memBytes then .ok (s.limbsAt base.toNat (limbCount bits))
  else .error (.fault (.outsideMemory base.toNat (byteCount bits)))

/-- The engine writes limbs from `base` (R63, R64: `LimbWrite` for each index). -/
def State.writeLimbs (s : State) (base : Word) (ls : List Word) : Except Stop State :=
  s.memWrite base.toNat (bytesOfLimbs ls)

/-! ### Rejection and acceptance -/

/-- Rejection (R281): `STATUS` records the error; nothing else changes. `CMD` already holds the word (R31). -/
def State.reject (s : State) (e : CmdError) : State := { s with status := s.status.afterReject e }

/-- The end of an accepted command (R31): `ERR` 0 and `WRAP` as R26 says. -/
def State.accept (s : State) (wrap : Bool) : State := { s with status := s.status.afterAccept wrap }

/-! ### Validation -/

/-- Checks 2 to 9 of R282 in their order, each skipped where the command does not use what it looks at; the error of
the first that fails. Check 1 is decoding; check 10 is made by the bodies of `DIV` and `DIVR`, which read memory. -/
def validate (i : Instr) (s : State) : Option CmdError :=
  if i.signed then some .signedUnsupported
  else if (uses i .tbits && badBits s.cfg s.args.tbits) || (uses i .sbits && badBits s.cfg s.args.sbits) then
    some .badBitSize
  else if uses i .len && decide (s.args.len.toNat % 2 = 1) then some .oddLength
  else if uses i .sbits && decide (s.args.tbits.toNat < s.args.sbits.toNat) then some .sourceWider
  else if (limbOffset i).any fun offs => decide (limbCount s.args.tbits ≤ offs) then some .offsetRange
  else if (buffers i s.args).any Buffer.misaligned then some .misaligned
  else if (buffers i s.args).any (Buffer.outside s.cfg) then some .outOfBounds
  else if !allCompatible (buffers i s.args) then some .overlap
  else none

/-- The frame of every command (R31): validate, then reject, or run the body and accept. The body answers the state
with its buffers written, and `WRAP`. -/
def issue (i : Instr) (s : State) (body : Except Stop (State × Bool)) : Host.Outcome State Fault Refusal :=
  match validate i s with
  | some e => .next (s.reject e)
  | none =>
    match body with
    | .ok r => .next (r.1.accept r.2)
    | .error (.reject e) => .next (s.reject e)
    | .error (.fault f) => .fault f

end Sys2Proof.Machine
end

