-- ==== Sys2Proof/Machine/Arithmetic.lean ====
section
/-! DEFINITION. The commands of the adder, the subtractor and the multiplier (43_add.md, 44_sub.md, 45_mul.md): `ADD`,
`SUB`, `MUL`. Both operands are read before the target is written (00_scope.md R17). -/

namespace Sys2Proof.Machine

/-- `ADD` (R192): `WRAP` is the carry past the most-significant limb. -/
def execAdd (signed : Bool) (s : State) : Host.Outcome State Fault Refusal :=
  issue (.add signed) s do
    let t ← s.readLimbs s.args.taddr s.args.tbits
    let b ← s.readLimbs s.args.saddr s.args.sbits
    let s' ← s.writeLimbs s.args.taddr (addLimbs t b).1
    return (s', (addLimbs t b).2)

/-- `SUB` (R212): `WRAP` is the borrow past the most-significant limb. -/
def execSub (signed : Bool) (s : State) : Host.Outcome State Fault Refusal :=
  issue (.sub signed) s do
    let t ← s.readLimbs s.args.taddr s.args.tbits
    let b ← s.readLimbs s.args.saddr s.args.sbits
    let s' ← s.writeLimbs s.args.taddr (subLimbs t b).1
    return (s', (subLimbs t b).2)

/-- `MUL` (R232): `WRAP` is 0; the lost high bits are not reported. -/
def execMul (signed : Bool) (s : State) : Host.Outcome State Fault Refusal :=
  issue (.mul signed) s do
    let t ← s.readLimbs s.args.taddr s.args.tbits
    let b ← s.readLimbs s.args.saddr s.args.sbits
    let s' ← s.writeLimbs s.args.taddr (mulLimbs t b)
    return (s', false)

end Sys2Proof.Machine
end

