-- ==== Sys2Proof/Machine/Division.lean ====
section
/-! DEFINITION. The commands of the divider (46_div.md): `DIV`, `DIVR`. -/

namespace Sys2Proof.Machine

/-- The dividend and the divisor, and check 10 of R282: a divisor of value 0 raises `DivideByZero` before anything
is written (R292). Answers quotient and remainder (R251). -/
def divideOperands (s : State) : Except Stop (Nat × Nat) := do
  let t ← s.readLimbs s.args.taddr s.args.tbits
  let b ← s.readLimbs s.args.saddr s.args.sbits
  if limbsVal b = 0 then .error (.reject .divideByZero)
  else .ok (divBits (limbsVal t) (limbsVal b) s.args.tbits.toNat)

/-- `DIV` (R252): the quotient at `QADDR` in the dividend's bit-size. -/
def execDiv (signed : Bool) (s : State) : Host.Outcome State Fault Refusal :=
  issue (.div signed) s do
    let r ← divideOperands s
    let s' ← s.writeLimbs s.args.qaddr (limbsOfNat (limbCount s.args.tbits) r.1)
    return (s', false)

/-- `DIVR` (R253): the quotient at `QADDR` in the dividend's bit-size, the remainder at `RADDR` in the divisor's. -/
def execDivr (signed : Bool) (s : State) : Host.Outcome State Fault Refusal :=
  issue (.divr signed) s do
    let r ← divideOperands s
    let s' ← s.writeLimbs s.args.qaddr (limbsOfNat (limbCount s.args.tbits) r.1)
    let s'' ← s'.writeLimbs s.args.raddr (limbsOfNat (limbCount s.args.sbits) r.2)
    return (s'', false)

end Sys2Proof.Machine
end

