-- ==== Sys2Proof/Machine/Reversal.lean ====
section
/-! DEFINITION. The commands of the byte reversal unit (40_byte_reversal.md): `REV`, `REVC`, `BSWP`. -/

namespace Sys2Proof.Machine

/-- `REV` (R131): `M[TADDR+i] <- old M[TADDR+LEN-1-i]`. -/
def execRev (signed : Bool) (s : State) : Host.Outcome State Fault Refusal :=
  issue (.rev signed) s do
    let b ← s.memRead s.args.taddr.toNat s.args.len.toNat
    let s' ← s.memWrite s.args.taddr.toNat (brev b)
    return (s', false)

/-- `REVC` (R132): `M[TADDR+i] <- old M[SADDR+LEN-1-i]`. -/
def execRevc (signed : Bool) (s : State) : Host.Outcome State Fault Refusal :=
  issue (.revc signed) s do
    let b ← s.memRead s.args.saddr.toNat s.args.len.toNat
    let s' ← s.memWrite s.args.taddr.toNat (brev b)
    return (s', false)

/-- `BSWP` (R133): the four bytes of every limb of the target, reversed. -/
def execBswp (signed : Bool) (s : State) : Host.Outcome State Fault Refusal :=
  issue (.bswp signed) s do
    let b ← s.memRead s.args.taddr.toNat (byteCount s.args.tbits)
    let s' ← s.memWrite s.args.taddr.toNat (bswap b)
    return (s', false)

end Sys2Proof.Machine
end

