-- ==== Sys2Proof/Machine/Sizing.lean ====
section
/-! DEFINITION. The commands of the sizing unit (41_representation.md): `ZERO`, `SETW`, `COPY`. -/

namespace Sys2Proof.Machine

/-- `ZERO` (R150): every limb of the target becomes 0. -/
def execZero (signed : Bool) (s : State) : Host.Outcome State Fault Refusal :=
  issue (.zero signed) s do
    let s' ← s.writeLimbs s.args.taddr (zeroLimbs (limbCount s.args.tbits))
    return (s', false)

/-- `SETW` (R151): the target becomes `WORD * 2^(32*offs)`. -/
def execSetw (signed : Bool) (offs : Nat) (s : State) : Host.Outcome State Fault Refusal :=
  issue (.setw signed offs) s do
    let s' ← s.writeLimbs s.args.taddr (seedLimbs (limbCount s.args.tbits) s.args.word offs)
    return (s', false)

/-- `COPY` (R152): the source's limbs at the least-significant end, zero limbs above (90_conflicts.md C11). -/
def execCopy (signed : Bool) (s : State) : Host.Outcome State Fault Refusal :=
  issue (.copy signed) s do
    let l ← s.readLimbs s.args.saddr s.args.sbits
    let s' ← s.writeLimbs s.args.taddr (widenLimbs (limbCount s.args.tbits) l)
    return (s', false)

end Sys2Proof.Machine
end

