-- ==== Sys2Proof/Machine/Dispatch.lean ====
section
/-! DEFINITION. The one dispatch from a decoded command to its meaning (30_encoding.md R103). -/

namespace Sys2Proof.Machine

def exec (i : Instr) (s : State) : Host.Outcome State Fault Refusal :=
  match i with
  | .rev signed => Sys2Proof.Machine.execRev signed s
  | .revc signed => Sys2Proof.Machine.execRevc signed s
  | .bswp signed => Sys2Proof.Machine.execBswp signed s
  | .zero signed => Sys2Proof.Machine.execZero signed s
  | .setw signed offs => Sys2Proof.Machine.execSetw signed offs s
  | .copy signed => Sys2Proof.Machine.execCopy signed s
  | .add signed => Sys2Proof.Machine.execAdd signed s
  | .sub signed => Sys2Proof.Machine.execSub signed s
  | .mul signed => Sys2Proof.Machine.execMul signed s
  | .div signed => Sys2Proof.Machine.execDiv signed s
  | .divr signed => Sys2Proof.Machine.execDivr signed s

end Sys2Proof.Machine
end

