-- ==== Sys2Proof/Machine/HostPort.lean ====
section
/-! DEFINITION. The host port: the register map, the operand-memory window, issuing a command word, and reset
(10_state.md R30 to R35, 20_memory.md R61, R69, R74, R75, 70_reset_and_hazards.md R320, R321). -/

namespace Sys2Proof.Machine

/-- What stands at a register offset (R30). -/
inductive PortReg where
  | cmd
  | status
  | capBits
  | capMem
  | arg (r : ArgReg)
  | reserved
  deriving DecidableEq, Repr

/-- The register map of R30 and R20, for an offset below 0x1000 that is a multiple of 4. -/
def portReg (off : Nat) : PortReg :=
  match off with
  | 0x000 => .cmd
  | 0x004 => .status
  | 0x008 => .capBits
  | 0x00C => .capMem
  | 0x010 => .arg .taddr
  | 0x014 => .arg .tbits
  | 0x018 => .arg .saddr
  | 0x01C => .arg .sbits
  | 0x020 => .arg .qaddr
  | 0x024 => .arg .raddr
  | 0x028 => .arg .word
  | 0x02C => .arg .len
  | _ => .reserved

/-- The host offset of an argument register (R20). -/
def ArgReg.offset : ArgReg → Nat
  | .taddr => 0x010
  | .tbits => 0x014
  | .saddr => 0x018
  | .sbits => 0x01C
  | .qaddr => 0x020
  | .raddr => 0x024
  | .word => 0x028
  | .len => 0x02C

/-- The host offset of the operand-memory window (R38, R61). -/
def windowBase : Nat := 0x1000

/-- The register accesses the port allows: 32-bit at multiples of 4 below 0x1000 (R74). -/
def registerAccess (off size : Nat) : Bool := decide (off < windowBase) && decide (size = 4) && decide (off % 4 = 0)

/-- The window accesses the port allows: 8-, 16- and 32-bit, naturally aligned, inside operand memory (R61, R74). -/
def windowAccess (c : Config) (off size : Nat) : Bool :=
  decide (windowBase ≤ off) && (decide (size = 1) || decide (size = 2) || decide (size = 4)) && decide (off % size = 0) &&
    decide (off + size ≤ windowBase + c.memBytes)

/-- What a read of a register returns: `CMD` the last word written (R31), `STATUS` its fields (R32), the two
parameters (R33, R34), an argument register its value (R22), a reserved offset 0 (R35). -/
def State.readRegister (s : State) : PortReg → Word
  | .cmd => s.cmd
  | .status => s.status.word
  | .capBits => BitVec.ofNat 32 s.cfg.maxBits
  | .capMem => BitVec.ofNat 32 s.cfg.memBytes
  | .arg r => s.args.get r
  | .reserved => 0

/-- The number that bytes at ascending addresses hold: a multi-byte access is little-endian (R74). -/
def leValue : List Byte → Nat
  | [] => 0
  | b :: bs => b.toNat + 2 ^ 8 * leValue bs

/-- A host read (R61, R74). No read changes anything but the answer (R75). -/
def State.hostRead (s : State) (off size : Nat) : State :=
  if registerAccess off size then { s with response := .data (s.readRegister (portReg off)) }
  else if windowAccess s.cfg off size then
    { s with response := .data (BitVec.ofNat 32 (leValue (s.bytesAt (off - windowBase) size))) }
  else { s with response := .busError }

/-- A write of `w` to `CMD` (R31): the word is stored, decoded and, if legal, issued; an illegal word is rejected with
`IllegalCommand` (R104, R105). The write completes when all of that is done. -/
def State.issueWord (s : State) (w : Word) : Host.Outcome State Fault Refusal :=
  let s' := { s with cmd := w, response := .done }
  match decode w with
  | .error _ => .next (s'.reject .illegalCommand)
  | .ok i => exec i s'

/-- A host write to a register: `CMD` issues a command (R31), `STATUS` may clear `STICKY` (R32), an argument register
holds the value (R22, R23), a read-only or reserved offset ignores it (R33 to R35). -/
def State.writeRegister (s : State) (v : Word) : PortReg → Host.Outcome State Fault Refusal
  | .cmd => s.issueWord v
  | .status => .next { s with status := s.status.hostWrite v, response := .done }
  | .capBits => .next { s with response := .done }
  | .capMem => .next { s with response := .done }
  | .arg r => .next { s with args := s.args.set r v, response := .done }
  | .reserved => .next { s with response := .done }

/-- A host write (R61, R74): to a register, to the window (the low `size` bytes of the data, little-endian), or a bus
error that changes nothing (R294). -/
def State.hostWrite (s : State) (off size : Nat) (v : Word) : Host.Outcome State Fault Refusal :=
  if registerAccess off size then s.writeRegister v (portReg off)
  else if windowAccess s.cfg off size then
    .next { s.putBytes (off - windowBase) ((leBytes v).take size) with response := .done }
  else .next { s with response := .busError }

/-- The registers after reset (R39). The parameters are constants, and the host's further accesses are the host's. -/
def State.resetRegisters (s : State) : State :=
  { s with args := Args.reset, cmd := 0, status := Status.reset, response := .idle }

/-- Reset while the engine is idle (R320): operand memory is unspecified afterwards (R39, R82). Log entry 3. -/
def State.resetIdle (s : State) : State := { s.resetRegisters with mem := [], resets := s.resets + 1 }

/-- The unspecified bytes a reset leaves in a buffer of the `k`-th abandoned command (R321). Log entry 4. -/
def abandonedBytes (k a : Nat) : (n : Nat) → List Byte
  | 0 => []
  | n + 1 => Config.abandonedByte k a :: abandonedBytes k (a + 1) n

/-- Operand memory with every buffer of the list that is written holding unspecified bytes (R321). -/
def State.abandonBuffers (s : State) : List Buffer → State
  | [] => s
  | b :: bs =>
    if b.writes then State.abandonBuffers (s.putBytes b.base (abandonedBytes s.abandons b.base b.len)) bs
    else State.abandonBuffers s bs

/-- Reset while the command `w` executes (R321): the command is abandoned, its written buffers hold unspecified bytes,
every other byte keeps its value. A word that is rejected never executes and writes nothing (R281). Log entry 4. -/
def State.resetDuring (s : State) (w : Word) : State :=
  match decode w with
  | .error _ => s.resetRegisters
  | .ok i =>
    match exec i { s with cmd := w } with
    | .next t =>
      if t.status.err = 0 then
        { (s.abandonBuffers (buffers i s.args)).resetRegisters with abandons := s.abandons + 1 }
      else s.resetRegisters
    | .fault _ => s.resetRegisters
    | .refused _ => s.resetRegisters

/-- One host event (R77: the port performs them one at a time). -/
def hostEvent (e : HostEvent) (s : State) : Host.Outcome State Fault Refusal :=
  match e with
  | .read off size => .next (s.hostRead off size)
  | .write off size data => s.hostWrite off size data
  | .reset => .next s.resetIdle
  | .resetDuring w => .next (s.resetDuring w)

end Sys2Proof.Machine
end

