-- ==== Sys2Proof/Machine/Step.lean ====
section
/-! DEFINITION. The step of the machine: the next host event, performed whole (00_scope.md R4, 20_memory.md R77). -/

namespace Sys2Proof.Machine

/-- One step: the port performs the next host event; with none outstanding the engine is idle and holds its state
(60_exceptions.md R301). -/
def step (s : State) : Host.Outcome State Fault Refusal :=
  match s.pending with
  | [] => .next s
  | e :: rest => hostEvent e { s with pending := rest }

/-- The state in which the next step issues the command word `w`: the block fetches nothing (R25, R80), so the next
host event is made the 32-bit write of `w` to `CMD`. Log entry 1. -/
def State.withFetchWord (s : State) (nbits w : Nat) : State :=
  { s with pending := .write 0x000 4 (BitVec.ofNat 32 (w % 2 ^ nbits)) :: s.pending }

end Sys2Proof.Machine
end

