-- ==== Sys2Proof/Machine/Assembler.lean ====
section
/-! DEFINITION. The assembler lines and their expansion into host writes (30_encoding.md R109, R110). Every line is a
pseudo-instruction: it loads the argument registers the command reads, in ascending order, then writes `CMD`. -/

namespace Sys2Proof.Machine

/-- A line of the assembler (R109). `signed` is the `.S` suffix; an operand buffer `addr:bits` is two arguments. -/
inductive AsmLine where
  | rev (signed : Bool) (t n : Word)
  | revc (signed : Bool) (t s n : Word)
  | bswp (signed : Bool) (t tb : Word)
  | zero (signed : Bool) (t tb : Word)
  | setw (signed : Bool) (t tb w : Word) (offs : Nat)
  | copy (signed : Bool) (t tb s sb : Word)
  | add (signed : Bool) (t tb s sb : Word)
  | sub (signed : Bool) (t tb s sb : Word)
  | mul (signed : Bool) (t tb s sb : Word)
  | div (signed : Bool) (t tb s sb q : Word)
  | divr (signed : Bool) (t tb s sb q r : Word)
  deriving DecidableEq, Repr

/-- The command a line issues. -/
def AsmLine.instr : AsmLine → Instr
  | .rev signed _ _ => .rev signed
  | .revc signed _ _ _ => .revc signed
  | .bswp signed _ _ => .bswp signed
  | .zero signed _ _ => .zero signed
  | .setw signed _ _ _ offs => .setw signed offs
  | .copy signed _ _ _ _ => .copy signed
  | .add signed _ _ _ _ => .add signed
  | .sub signed _ _ _ _ => .sub signed
  | .mul signed _ _ _ _ => .mul signed
  | .div signed _ _ _ _ _ => .div signed
  | .divr signed _ _ _ _ _ _ => .divr signed

/-- The argument registers a line loads and their values, in ascending register order (R110). -/
def AsmLine.loads : AsmLine → List (ArgReg × Word)
  | .rev _ t n => [(.taddr, t), (.len, n)]
  | .revc _ t s n => [(.taddr, t), (.saddr, s), (.len, n)]
  | .bswp _ t tb => [(.taddr, t), (.tbits, tb)]
  | .zero _ t tb => [(.taddr, t), (.tbits, tb)]
  | .setw _ t tb w _ => [(.taddr, t), (.tbits, tb), (.word, w)]
  | .copy _ t tb s sb => [(.taddr, t), (.tbits, tb), (.saddr, s), (.sbits, sb)]
  | .add _ t tb s sb => [(.taddr, t), (.tbits, tb), (.saddr, s), (.sbits, sb)]
  | .sub _ t tb s sb => [(.taddr, t), (.tbits, tb), (.saddr, s), (.sbits, sb)]
  | .mul _ t tb s sb => [(.taddr, t), (.tbits, tb), (.saddr, s), (.sbits, sb)]
  | .div _ t tb s sb q => [(.taddr, t), (.tbits, tb), (.saddr, s), (.sbits, sb), (.qaddr, q)]
  | .divr _ t tb s sb q r => [(.taddr, t), (.tbits, tb), (.saddr, s), (.sbits, sb), (.qaddr, q), (.raddr, r)]

/-- The host writes a line stands for (R110). -/
def AsmLine.expand (l : AsmLine) : List HostEvent :=
  l.loads.map (fun p => .write p.1.offset 4 p.2) ++ [.write 0x000 4 (encode l.instr)]

/-- The argument registers after a line's loads. -/
def AsmLine.loaded (l : AsmLine) (x : Args) : Args := l.loads.foldl (fun y p => y.set p.1 p.2) x

end Sys2Proof.Machine
end

