-- ==== Sys2Proof/Safety.lean ====
section
/-! DEFINITION. The terms that claims about the block use: when the spec accepts each command, written from its rule
rather than from `validate`; what a command leaves alone; and the invariant of the machine. -/

namespace Sys2Proof.Safety

open Sys2Proof.Machine

/-! ### Operands the spec accepts -/

/-- A bit-size that is not bad (60_exceptions.md R282, check 3). -/
abbrev GoodBits (c : Config) (b : Word) : Prop := b.toNat ≠ 0 ∧ b.toNat % 32 = 0 ∧ b.toNat ≤ c.maxBits

/-- A base address that R70 allows for a limb buffer. -/
abbrev Aligned (base : Word) : Prop := base.toNat % 4 = 0

/-- The buffer of an operand of `bits` bits at `base` lies inside operand memory (20_memory.md R62, R71). -/
abbrev LimbsInside (c : Config) (base bits : Word) : Prop := base.toNat + bits.toNat / 8 ≤ c.memBytes

/-- The byte buffer of `len` bytes at `base` lies inside operand memory (R71). -/
abbrev BytesInside (c : Config) (base len : Word) : Prop := base.toNat + len.toNat ≤ c.memBytes

/-- Address `x` is one of the `n` from `a`. -/
abbrev InRange (a n x : Nat) : Prop := a ≤ x ∧ x < a + n

/-- Two ranges of addresses share no byte; an empty range is disjoint from every range (R72). -/
abbrev Apart (a n b m : Nat) : Prop := n = 0 ∨ m = 0 ∨ a + n ≤ b ∨ b + m ≤ a

/-- Two ranges of which one is written may be the same range or disjoint (R72). -/
abbrev SameOrDisjoint (a n b m : Nat) : Prop := (a = b ∧ n = m) ∨ Apart a n b m

/-- The bytes of the target, of the source, of the quotient and of the remainder: how many. -/
abbrev tBytes (s : State) : Nat := s.args.tbits.toNat / 8
abbrev sBytes (s : State) : Nat := s.args.sbits.toNat / 8

/-- When `REV` is accepted (R131). -/
abbrev RevReady (s : State) : Prop := s.args.len.toNat % 2 = 0 ∧ BytesInside s.cfg s.args.taddr s.args.len

/-- When `REVC` is accepted (R132). -/
abbrev RevcReady (s : State) : Prop :=
  s.args.len.toNat % 2 = 0 ∧ BytesInside s.cfg s.args.taddr s.args.len ∧ BytesInside s.cfg s.args.saddr s.args.len ∧
    SameOrDisjoint s.args.taddr.toNat s.args.len.toNat s.args.saddr.toNat s.args.len.toNat

/-- When `BSWP` and `ZERO` are accepted (R133, R150). -/
abbrev TargetReady (s : State) : Prop :=
  GoodBits s.cfg s.args.tbits ∧ Aligned s.args.taddr ∧ LimbsInside s.cfg s.args.taddr s.args.tbits

/-- When `SETW` with the offset is accepted (R151). -/
abbrev SetwReady (offs : Nat) (s : State) : Prop := TargetReady s ∧ offs < s.args.tbits.toNat / 32

/-- The sizes that every command with a source accepts (R282, checks 3 and 5). -/
abbrev SizesReady (s : State) : Prop :=
  GoodBits s.cfg s.args.tbits ∧ GoodBits s.cfg s.args.sbits ∧ s.args.sbits.toNat ≤ s.args.tbits.toNat

/-- When `COPY`, `ADD`, `SUB` and `MUL` are accepted (R152, R192, R212, R232). -/
abbrev PairReady (s : State) : Prop :=
  SizesReady s ∧ Aligned s.args.taddr ∧ Aligned s.args.saddr ∧
    LimbsInside s.cfg s.args.taddr s.args.tbits ∧ LimbsInside s.cfg s.args.saddr s.args.sbits ∧
    SameOrDisjoint s.args.taddr.toNat (tBytes s) s.args.saddr.toNat (sBytes s)

/-- Everything `DIV` asks for but a divisor that is not zero (R252). -/
abbrev DivOperands (s : State) : Prop :=
  SizesReady s ∧ Aligned s.args.taddr ∧ Aligned s.args.saddr ∧ Aligned s.args.qaddr ∧
    LimbsInside s.cfg s.args.taddr s.args.tbits ∧ LimbsInside s.cfg s.args.saddr s.args.sbits ∧
    LimbsInside s.cfg s.args.qaddr s.args.tbits ∧
    SameOrDisjoint s.args.taddr.toNat (tBytes s) s.args.qaddr.toNat (tBytes s) ∧
    SameOrDisjoint s.args.saddr.toNat (sBytes s) s.args.qaddr.toNat (tBytes s)

/-- Everything `DIVR` asks for but a divisor that is not zero (R253). -/
abbrev DivrOperands (s : State) : Prop :=
  DivOperands s ∧ Aligned s.args.raddr ∧ LimbsInside s.cfg s.args.raddr s.args.sbits ∧
    SameOrDisjoint s.args.taddr.toNat (tBytes s) s.args.raddr.toNat (sBytes s) ∧
    SameOrDisjoint s.args.saddr.toNat (sBytes s) s.args.raddr.toNat (sBytes s) ∧
    Apart s.args.qaddr.toNat (tBytes s) s.args.raddr.toNat (sBytes s)

/-- The value of the target operand, and of the source operand (20_memory.md R62, R66). -/
abbrev tVal (s : State) : Nat := s.valAt s.args.taddr s.args.tbits
abbrev sVal (s : State) : Nat := s.valAt s.args.saddr s.args.sbits

/-- When `DIV` is accepted (R252). -/
abbrev DivReady (s : State) : Prop := DivOperands s ∧ sVal s ≠ 0

/-- When `DIVR` is accepted (R253). -/
abbrev DivrReady (s : State) : Prop := DivrOperands s ∧ sVal s ≠ 0

/-! ### What a command leaves alone -/

/-- Everything but `STATUS` and operand memory is the same (10_state.md R22, R37). -/
abbrev SameControl (s t : State) : Prop :=
  t.cfg = s.cfg ∧ t.args = s.args ∧ t.cmd = s.cmd ∧ t.resets = s.resets ∧ t.abandons = s.abandons ∧
    t.pending = s.pending ∧ t.response = s.response

/-- The end of an accepted command that wrote only addresses in `written` (R31): `ERR` 0, `WRAP` as given, `STICKY` and
everything else as before, every other byte of operand memory as before. -/
abbrev Accepted (s t : State) (wrap : Bool) (written : Nat → Prop) : Prop :=
  SameControl s t ∧ t.status = { err := 0, wrap := wrap, sticky := s.status.sticky } ∧
    ∀ a, ¬ written a → t.byteAt a = s.byteAt a

/-- The command is rejected with the error: the state it leaves is the one R281 describes. -/
abbrev Rejects (i : Instr) (s : State) (e : CmdError) : Prop := exec i s = .next (s.reject e)

/-- What an issue leaves alone whether it is accepted or rejected, for a command that stores to `written`: everything but
`STATUS` and memory; `STICKY` unless it is rejected; every byte outside `written`; all of memory if it is rejected
(10_state.md R22, R32, 60_exceptions.md R281). -/
abbrev Frame (s t : State) (written : Nat → Prop) : Prop :=
  SameControl s t ∧ (t.status.err = 0 → t.status.sticky = s.status.sticky) ∧
    (t.status.err ≠ 0 → ∀ a, t.byteAt a = s.byteAt a) ∧ ∀ a, ¬ written a → t.byteAt a = s.byteAt a

/-- The sizes checks of a command with a source, in their order (R282, checks 3 and 5). -/
abbrev RejectsSizes (i : Instr) (s : State) : Prop :=
  (¬(GoodBits s.cfg s.args.tbits ∧ GoodBits s.cfg s.args.sbits) → Rejects i s .badBitSize) ∧
  (GoodBits s.cfg s.args.tbits → GoodBits s.cfg s.args.sbits → s.args.tbits.toNat < s.args.sbits.toNat →
    Rejects i s .sourceWider)

/-- The rejections of `COPY`, `ADD`, `SUB` and `MUL` with `S` = 0, in the order of R282. -/
abbrev RejectsPair (i : Instr) (s : State) : Prop :=
  RejectsSizes i s ∧
  (SizesReady s → ¬(Aligned s.args.taddr ∧ Aligned s.args.saddr) → Rejects i s .misaligned) ∧
  (SizesReady s → Aligned s.args.taddr → Aligned s.args.saddr →
    ¬(LimbsInside s.cfg s.args.taddr s.args.tbits ∧ LimbsInside s.cfg s.args.saddr s.args.sbits) →
    Rejects i s .outOfBounds) ∧
  (SizesReady s → Aligned s.args.taddr → Aligned s.args.saddr → LimbsInside s.cfg s.args.taddr s.args.tbits →
    LimbsInside s.cfg s.args.saddr s.args.sbits →
    ¬SameOrDisjoint s.args.taddr.toNat (tBytes s) s.args.saddr.toNat (sBytes s) → Rejects i s .overlap)

/-- The rejections of `BSWP` and `ZERO` with `S` = 0, in the order of R282. -/
abbrev RejectsTarget (i : Instr) (s : State) : Prop :=
  (¬GoodBits s.cfg s.args.tbits → Rejects i s .badBitSize) ∧
  (GoodBits s.cfg s.args.tbits → ¬Aligned s.args.taddr → Rejects i s .misaligned) ∧
  (GoodBits s.cfg s.args.tbits → Aligned s.args.taddr → ¬LimbsInside s.cfg s.args.taddr s.args.tbits →
    Rejects i s .outOfBounds)

/-! ### The order of the checks -/

/-- A pair of buffers that R72 allows: if one is written they are disjoint, or identical with at most one written. -/
abbrev Compatible (a b : Buffer) : Prop :=
  a.writes = true ∨ b.writes = true →
    Apart a.base a.len b.base b.len ∨ (a.base = b.base ∧ a.len = b.len ∧ ¬(a.writes = true ∧ b.writes = true))

/-- The command is `DIV` or `DIVR`. -/
abbrev Divides (i : Instr) : Prop := i = .div i.signed ∨ i = .divr i.signed

/-- Checks 2 to 10 of R282 in the order of that rule: when each fails, and its error. -/
def checks (i : Instr) (s : State) : List (Prop × CmdError) :=
  [(i.signed = true, .signedUnsupported),
    ((uses i .tbits = true ∧ ¬GoodBits s.cfg s.args.tbits) ∨ (uses i .sbits = true ∧ ¬GoodBits s.cfg s.args.sbits),
      .badBitSize),
    (uses i .len = true ∧ s.args.len.toNat % 2 = 1, .oddLength),
    (uses i .sbits = true ∧ s.args.tbits.toNat < s.args.sbits.toNat, .sourceWider),
    (∃ offs, limbOffset i = some offs ∧ s.args.tbits.toNat / 32 ≤ offs, .offsetRange),
    (∃ b ∈ buffers i s.args, b.limb = true ∧ b.base % 4 ≠ 0, .misaligned),
    (∃ b ∈ buffers i s.args, s.cfg.memBytes < b.base + b.len, .outOfBounds),
    (¬(buffers i s.args).Pairwise Compatible, .overlap),
    (Divides i ∧ sVal s = 0, .divideByZero)]

/-! ### The assembler -/

/-- What the suffix `.S` adds to a command word (30_encoding.md R110). -/
abbrev suffix (b : Bool) : Word := if b = true then 0x00000100 else 0x00000000

/-! ### The host port -/

/-- The accesses the port allows (20_memory.md R74). -/
abbrev PortAllows (c : Config) (off size : Nat) : Prop :=
  (off < 0x1000 ∧ size = 4 ∧ off % 4 = 0) ∨
    (0x1000 ≤ off ∧ off < 0x1000 + c.memBytes ∧ (size = 1 ∨ (size = 2 ∧ off % 2 = 0) ∨ (size = 4 ∧ off % 4 = 0)))

/-! ### The invariant of the machine -/

/-- What holds at reset and after every step: the parameters are those of R7; memory is in canonical form and lists only
addresses that exist (R60); `ERR` holds a code of R280 (R32: "`ERR` holds only values 0 to 10"); and `WRAP` is set only
after an accepted `ADD` or `SUB`, whose word `CMD` still holds (R26, R31). -/
abbrev Inv (s : State) : Prop :=
  s.cfg.wf ∧ Memory.wf s.mem ∧ (∀ c ∈ s.mem, c.1 < s.cfg.memBytes) ∧ s.status.err.toNat ≤ 10 ∧
    (s.status.wrap = true → s.status.err = 0 ∧ (s.cmd = 0x00000010 ∨ s.cmd = 0x00000011))

end Sys2Proof.Safety
end

