-- ==== Sys2Proof/Certificates/Slice0/Obligations.lean ====
section
/-! DEFINITION. The statements about the block, one `def Obligations.<Name> : Prop` each. Every one holds for every
instance of the parameters, since each state carries its own; none rests on a free value. -/

open Sys2Proof Sys2Proof.Machine Sys2Proof.Safety

/-! ### Encoding (30_encoding.md) -/

/-- Decoding the word of a well-formed command gives the command back, with its `S` and its offset (R101 to R104). -/
def Obligations.DecodeOfEncodeIsTheCommand : Prop :=
  ∀ i : Instr, i.wellFormed = true → decode (encode i) = .ok i

/-- A word that decodes is the encoding of what it decodes to: no bit is ignored (R101, R104). -/
def Obligations.DecodedWordIsItsEncoding : Prop :=
  ∀ (w : Word) (i : Instr), decode w = .ok i → i.wellFormed = true ∧ encode i = w

/-- R104: which words select a command, which command, and what is raised for the others. -/
def Obligations.DecodeSelectsByTheFields : Prop :=
  ∀ (w : Word) (s : State),
    let op := w.extractLsb' 0 8
    let sgn := w.getLsbD 8
    let rsv := w.extractLsb' 9 7
    let imm := w.extractLsb' 16 16
    let assigned := op = 0x01 ∨ op = 0x02 ∨ op = 0x03 ∨ op = 0x08 ∨ op = 0x09 ∨ op = 0x0A ∨ op = 0x10 ∨ op = 0x11 ∨
      op = 0x12 ∨ op = 0x13 ∨ op = 0x14
    (¬assigned ∨ rsv ≠ 0 ∨ (op ≠ 0x09 ∧ imm ≠ 0) →
      s.issueWord w = .next (State.reject { s with cmd := w, response := .done } .illegalCommand)) ∧
    (rsv = 0 → imm = 0 →
      (op = 0x01 → decode w = .ok (.rev sgn)) ∧ (op = 0x02 → decode w = .ok (.revc sgn)) ∧
      (op = 0x03 → decode w = .ok (.bswp sgn)) ∧ (op = 0x08 → decode w = .ok (.zero sgn)) ∧
      (op = 0x0A → decode w = .ok (.copy sgn)) ∧ (op = 0x10 → decode w = .ok (.add sgn)) ∧
      (op = 0x11 → decode w = .ok (.sub sgn)) ∧ (op = 0x12 → decode w = .ok (.mul sgn)) ∧
      (op = 0x13 → decode w = .ok (.div sgn)) ∧ (op = 0x14 → decode w = .ok (.divr sgn))) ∧
    (rsv = 0 → op = 0x09 → decode w = .ok (.setw sgn imm.toNat)) ∧
    (∀ i, decode w = .ok i → s.issueWord w = exec i { s with cmd := w, response := .done })

/-- The mask and match of every row of spec/opcode_table.json: a word matches a row exactly when it decodes to the row's
command with the word's bit 8 as `S` (and bits 31:16 as the offset of `SETW`). -/
def Obligations.DecodeMatchesTheOpcodeTable : Prop :=
  ∀ w : Word,
    let sgn := w.getLsbD 8
    (w &&& 0xFFFFFEFF = 0x00000001 ↔ decode w = .ok (.rev sgn)) ∧
    (w &&& 0xFFFFFEFF = 0x00000002 ↔ decode w = .ok (.revc sgn)) ∧
    (w &&& 0xFFFFFEFF = 0x00000003 ↔ decode w = .ok (.bswp sgn)) ∧
    (w &&& 0xFFFFFEFF = 0x00000008 ↔ decode w = .ok (.zero sgn)) ∧
    (w &&& 0x0000FEFF = 0x00000009 ↔ decode w = .ok (.setw sgn (w.toNat / 2 ^ 16))) ∧
    (w &&& 0xFFFFFEFF = 0x0000000A ↔ decode w = .ok (.copy sgn)) ∧
    (w &&& 0xFFFFFEFF = 0x00000010 ↔ decode w = .ok (.add sgn)) ∧
    (w &&& 0xFFFFFEFF = 0x00000011 ↔ decode w = .ok (.sub sgn)) ∧
    (w &&& 0xFFFFFEFF = 0x00000012 ↔ decode w = .ok (.mul sgn)) ∧
    (w &&& 0xFFFFFEFF = 0x00000013 ↔ decode w = .ok (.div sgn)) ∧
    (w &&& 0xFFFFFEFF = 0x00000014 ↔ decode w = .ok (.divr sgn))

/-- Words of 95_test_vectors.md section 2.1, one of each family and four that select no command. -/
def Obligations.SampleWordsDecodeAsTheSpecSays : Prop :=
  decode 0x00000001 = .ok (.rev false) ∧ decode 0x00000003 = .ok (.bswp false) ∧
  decode 0x00000008 = .ok (.zero false) ∧ decode 0x00020009 = .ok (.setw false 2) ∧
  decode 0x00000010 = .ok (.add false) ∧ decode 0x00000111 = .ok (.sub true) ∧
  decode 0x00000012 = .ok (.mul false) ∧ decode 0x00000014 = .ok (.divr false) ∧
  decodeTableWord 32 0x00000013 = some (.div false) ∧
  decodeTableWord 32 0x00000000 = none ∧ decodeTableWord 32 0x00000115 = none ∧
  decodeTableWord 32 0x00000208 = none ∧ decodeTableWord 32 0x00010010 = none

/-! ### The step (00_scope.md R4, 10_state.md R31) -/

/-- When the next host event writes a word to `CMD` that decodes to `i`, the step is `exec i`, in the state in which the
event is taken, `CMD` holds the word and the port will answer that the write is done. The step after `withFetchWord`
issues that word, whatever else is outstanding. With no host event outstanding the engine is idle and holds its state
(60_exceptions.md section 9). -/
def Obligations.StepRunsTheDecodedCommand : Prop :=
  (∀ (s : State) (w : Word) (rest : List HostEvent) (i : Instr), s.pending = .write 0x000 4 w :: rest →
    decode w = .ok i → step s = exec i { s with pending := rest, cmd := w, response := .done }) ∧
  (∀ (s : State) (w : Word) (i : Instr), decode w = .ok i →
    step (s.withFetchWord 32 w.toNat) = exec i { s with cmd := w, response := .done }) ∧
  (∀ s : State, s.pending = [] → step s = .next s)

/-- Every command word, legal or not, in every state, ends in a next state: execution cannot fail. -/
def Obligations.EveryCommandAnswersANextState : Prop :=
  ∀ (i : Instr) (s : State), ∃ t, exec i s = .next t

/-- Every step of every state ends in a next state: the block has no behaviour that stops it. For a command that is R293,
for a reset R320 and R321; that the step after an access the port refuses answers a next state is the model's choice
(log entry 6), where R74 and R294 say that the access gets a bus error and changes nothing. -/
def Obligations.EveryStepAnswersANextState : Prop :=
  ∀ s : State, ∃ t, step s = .next t

/-! ### Errors (60_exceptions.md) -/

/-- R105: a word that selects no command is rejected with code 1 and changes nothing but `CMD` and `STATUS`; the word 0 is
one; and no word's behaviour is undefined. -/
def Obligations.IllegalWordIsRejectedWithCodeOne : Prop :=
  (∀ (s : State) (w : Word) (rest : List HostEvent), s.pending = .write 0x000 4 w :: rest →
    (∀ i, decode w ≠ .ok i) →
    step s = .next { s with pending := rest, cmd := w, response := .done,
                            status := { err := 1, wrap := false, sticky := true } }) ∧
  (∀ i, decode 0x00000000 ≠ .ok i) ∧ (∀ (s : State) (w : Word), ∃ t, s.issueWord w = .next t)

/-- R106, R284: a word that decodes and has `S` = 1 is rejected with code 2 whatever the registers and memory hold. -/
def Obligations.SignedRequestIsRejectedWithCodeTwo : Prop :=
  ∀ (s : State) (w : Word) (i : Instr), decode w = .ok i → w.getLsbD 8 = true →
    s.issueWord w = .next { s with cmd := w, response := .done, status := { err := 2, wrap := false, sticky := true } }

/-- R281: a rejected command word leaves `CMD` holding the word, `ERR` its code, `WRAP` 0 and `STICKY` 1, its write is
answered as done, and nothing else is changed: no byte of operand memory, no argument register. -/
def Obligations.RejectionChangesOnlyCmdAndStatus : Prop :=
  ∀ (s t : State) (w : Word) (rest : List HostEvent), s.pending = .write 0x000 4 w :: rest → step s = .next t →
    t.status.err ≠ 0 →
    t = { s with pending := rest, cmd := w, response := .done,
                 status := { err := t.status.err, wrap := false, sticky := true } }

/-- The codes of R280, and no issue leaves any other. -/
def Obligations.ErrorCodesAreThoseOfTheTable : Prop :=
  CmdError.code .illegalCommand = 1 ∧ CmdError.code .signedUnsupported = 2 ∧ CmdError.code .badBitSize = 3 ∧
  CmdError.code .oddLength = 4 ∧ CmdError.code .sourceWider = 5 ∧ CmdError.code .offsetRange = 6 ∧
  CmdError.code .misaligned = 7 ∧ CmdError.code .outOfBounds = 8 ∧ CmdError.code .overlap = 9 ∧
  CmdError.code .divideByZero = 10 ∧
  ∀ (s t : State) (w : Word), s.issueWord w = .next t → t.status.err.toNat ≤ 10

/-- R282: the checks run in their order and the first that fails gives the error; if none fails the command is accepted
and executed. Check 1 is decoding; `checks` lists the others. -/
def Obligations.FirstFailingCheckGivesTheError : Prop :=
  (∀ (s : State) (w : Word), (∀ i, decode w ≠ .ok i) →
    s.issueWord w = .next (State.reject { s with cmd := w, response := .done } .illegalCommand)) ∧
  (∀ (s : State) (w : Word) (i : Instr), decode w = .ok i →
    s.issueWord w = exec i { s with cmd := w, response := .done }) ∧
  (∀ (i : Instr) (s : State) (k : Nat) (p : Prop) (e : CmdError), (checks i s)[k]? = some (p, e) → p →
    (∀ j < k, ∀ q, (checks i s)[j]? = some q → ¬q.1) → exec i s = .next (s.reject e)) ∧
  (∀ (i : Instr) (s : State), (∀ q ∈ checks i s, ¬q.1) → ∃ t, exec i s = .next t ∧ t.status.err = 0)

/-! ### Registers (10_state.md) -/

/-- R21: a register the table does not list for a command has no effect on it. -/
def Obligations.UnlistedRegistersHaveNoEffect : Prop :=
  ∀ (i : Instr) (s t : State) (x : Args), (∀ r ∈ registersRead i, x.get r = s.args.get r) →
    exec i s = .next t → exec i { s with args := x } = .next { t with args := x }

/-- R22, R23: each argument register is written and read by a 32-bit access at its offset, holds any value, and is no
other register; a read returns the last value written, or 0 after reset; no command, accepted or rejected, writes one, and
nothing else does but a reset. -/
def Obligations.ArgumentRegistersHoldWhatTheHostWrites : Prop :=
  (∀ (s : State) (r : ArgReg) (v : Word) (rest : List HostEvent), s.pending = .write r.offset 4 v :: rest →
    ∃ t, step s = .next t ∧ t.args.get r = v ∧ (∀ r', r' ≠ r → t.args.get r' = s.args.get r') ∧
      t = { s with pending := rest, response := .done, args := t.args }) ∧
  (∀ (s : State) (r : ArgReg) (rest : List HostEvent), s.pending = .read r.offset 4 :: rest →
    step s = .next { s with pending := rest, response := .data (s.args.get r) }) ∧
  (∀ r, State.reset.args.get r = 0) ∧
  (∀ (s t : State) (w : Word), s.issueWord w = .next t → t.args = s.args) ∧
  (∀ (s t : State) (r : ArgReg), step s = .next t → t.args.get r ≠ s.args.get r →
    ∃ rest, s.pending = .write r.offset 4 (t.args.get r) :: rest ∨ s.pending = .reset :: rest ∨
      ∃ w, s.pending = .resetDuring w :: rest)

/-- R26: `WRAP` after an issue is the carry of an accepted `ADD`, the borrow of an accepted `SUB`, and 0 otherwise; its
reset value is 0; nothing in the engine reads it. -/
def Obligations.WrapIsCarryOrBorrowAndIsNeverRead : Prop :=
  (∀ (s t : State), PairReady s → exec (.add false) s = .next t →
    (t.status.wrap = true ↔ 2 ^ s.args.tbits.toNat ≤ tVal s + sVal s)) ∧
  (∀ (s t : State), PairReady s → exec (.sub false) s = .next t → (t.status.wrap = true ↔ tVal s < sVal s)) ∧
  (∀ (i : Instr) (s t : State), exec i s = .next t → t.status.wrap = true →
    t.status.err = 0 ∧ (i = .add false ∨ i = .sub false)) ∧
  (∀ (s t : State) (w : Word), (∀ i, decode w ≠ .ok i) → s.issueWord w = .next t → t.status.wrap = false) ∧
  State.reset.status.wrap = false ∧
  (∀ (i : Instr) (s : State) (b : Bool), exec i { s with status := { s.status with wrap := b } } = exec i s)

/-- `CMD` (R31): a write stores the word before anything else happens to it, a read returns it, and nothing but a write
to `CMD` or a reset changes it. -/
def Obligations.CmdHoldsTheLastWordWritten : Prop :=
  (∀ (s t : State) (w : Word) (rest : List HostEvent), s.pending = .write 0x000 4 w :: rest → step s = .next t →
    t.cmd = w) ∧
  (∀ (s : State) (rest : List HostEvent), s.pending = .read 0x000 4 :: rest →
    step s = .next { s with pending := rest, response := .data s.cmd }) ∧
  (∀ (s t : State), step s = .next t → t.cmd ≠ s.cmd →
    ∃ rest, s.pending = .write 0x000 4 t.cmd :: rest ∨ s.pending = .reset :: rest ∨ ∃ w, s.pending = .resetDuring w :: rest)

/-- R32: the fields of `STATUS` in the word a read returns; what a host write does to it; `STICKY` is set by a rejected
command, left by an accepted one, and cleared by nothing but a write with bit 9 set or a reset; `ERR` holds only 0 to 10. -/
def Obligations.StatusRegisterBehaves : Prop :=
  (∀ st : Status, st.word.extractLsb' 0 8 = st.err ∧ st.word.getLsbD 8 = st.wrap ∧ st.word.getLsbD 9 = st.sticky ∧
    st.word.extractLsb' 10 22 = 0) ∧
  (∀ (s : State) (rest : List HostEvent), s.pending = .read 0x004 4 :: rest →
    step s = .next { s with pending := rest, response := .data s.status.word }) ∧
  (∀ (s : State) (v : Word) (rest : List HostEvent), s.pending = .write 0x004 4 v :: rest →
    step s = .next { s with pending := rest, response := .done,
                            status := { s.status with sticky := s.status.sticky && !v.getLsbD 9 } }) ∧
  (∀ (s t : State) (w : Word), s.issueWord w = .next t → t.status.err.toNat ≤ 10 ∧
    ((∃ e : CmdError, t.status = { err := e.code, wrap := false, sticky := true }) ∨
      ∃ wrap, t.status = { err := 0, wrap := wrap, sticky := s.status.sticky })) ∧
  (∀ (s t : State), step s = .next t → s.status.sticky = true → t.status.sticky = false →
    ∃ rest, (∃ v : Word, v.getLsbD 9 = true ∧ s.pending = .write 0x004 4 v :: rest) ∨ s.pending = .reset :: rest ∨
      ∃ w, s.pending = .resetDuring w :: rest) ∧
  State.reset.status = { err := 0, wrap := false, sticky := false }

/-- R33, R34: `CAP_BITS` and `CAP_MEM` read the parameters, 512 and 4096 by default, and ignore writes. -/
def Obligations.CapabilityRegistersReadTheParameters : Prop :=
  (∀ (s : State) (rest : List HostEvent), s.pending = .read 0x008 4 :: rest →
    step s = .next { s with pending := rest, response := .data (BitVec.ofNat 32 s.cfg.maxBits) }) ∧
  (∀ (s : State) (rest : List HostEvent), s.pending = .read 0x00C 4 :: rest →
    step s = .next { s with pending := rest, response := .data (BitVec.ofNat 32 s.cfg.memBytes) }) ∧
  (∀ (s : State) (v : Word) (rest : List HostEvent),
    s.pending = .write 0x008 4 v :: rest ∨ s.pending = .write 0x00C 4 v :: rest →
    step s = .next { s with pending := rest, response := .done }) ∧
  State.reset.cfg = { maxBits := 512, memBytes := 4096 }

/-- Reserved offsets read 0 and ignore writes; an access beyond the window, or one the port does not allow, gets a bus error
and changes no state (10_state.md R35). That a bus error is a next state is the model's choice (log entry 6). -/
def Obligations.ReservedOffsetsAndBusErrors : Prop :=
  (∀ (s : State) (off : Nat) (rest : List HostEvent), 0x030 ≤ off → off ≤ 0xFFC → off % 4 = 0 →
    (s.pending = .read off 4 :: rest → step s = .next { s with pending := rest, response := .data 0 }) ∧
    (∀ v, s.pending = .write off 4 v :: rest → step s = .next { s with pending := rest, response := .done })) ∧
  (∀ (s : State) (off size : Nat) (rest : List HostEvent), 0x1000 + s.cfg.memBytes ≤ off ∨ ¬PortAllows s.cfg off size →
    (s.pending = .read off size :: rest → step s = .next { s with pending := rest, response := .busError }) ∧
    (∀ v, s.pending = .write off size v :: rest → step s = .next { s with pending := rest, response := .busError }))

/-! ### Operand memory and the host port (20_memory.md) -/

/-- R64: `LimbRead` is little-endian, and `LimbWrite(base, k, v)` writes byte `i` of `v` at `base+4k+i` and nothing else. -/
def Obligations.LimbsAreLittleEndian : Prop :=
  (∀ (s : State) (base k : Nat), (s.limbAt base k).toNat =
    (s.byteAt (base + 4 * k)).toNat + (s.byteAt (base + 4 * k + 1)).toNat * 2 ^ 8 +
      (s.byteAt (base + 4 * k + 2)).toNat * 2 ^ 16 + (s.byteAt (base + 4 * k + 3)).toNat * 2 ^ 24) ∧
  (∀ (s : State) (base k : Nat) (v : Word),
    (∀ i < 4, (s.putBytes (base + 4 * k) (leBytes v)).byteAt (base + 4 * k + i) = v.extractLsb' (8 * i) 8) ∧
    (∀ a, ¬InRange (base + 4 * k) 4 a → (s.putBytes (base + 4 * k) (leBytes v)).byteAt a = s.byteAt a))

/-- R66: `Val` is the sum of the limbs with index 0 the most significant, and is below `2^B`. -/
def Obligations.ValueIsTheWeightedSumOfLimbs : Prop :=
  ∀ (s : State) (base bits : Word), bits.toNat % 32 = 0 →
    s.valAt base bits =
      ∑ k ∈ Finset.range (bits.toNat / 32), (s.limbAt base.toNat k).toNat * 2 ^ (32 * (bits.toNat / 32 - 1 - k)) ∧
    s.valAt base bits < 2 ^ bits.toNat

/-- R67: after `Store(base, B, v)` each limb is its part of `v`, `Val(base, B) = v`, every byte of the buffer has been
written and no other byte has changed. -/
def Obligations.StoreThenValueReturnsTheNumber : Prop :=
  ∀ (s : State) (base bits : Word) (v : Nat), bits.toNat % 32 = 0 → v < 2 ^ bits.toNat →
    let n := bits.toNat / 32
    let t := s.putBytes base.toNat (bytesOfLimbs (limbsOfNat n v))
    (∀ k < n, (t.limbAt base.toNat k).toNat = (v >>> (32 * (n - 1 - k))) % 2 ^ 32) ∧ t.valAt base bits = v ∧
      (∀ a, InRange base.toNat (bits.toNat / 8) a → (t.mem.byte? a).isSome = true) ∧
      (∀ a, ¬InRange base.toNat (bits.toNat / 8) a → t.byteAt a = s.byteAt a)

/-- What the host sees of limb `k` of a buffer at `base` through the window, by 32-, 8- and 16-bit reads; a wider access is
not allowed (20_memory.md R69). That the answer's bits above an 8- or 16-bit read's width are 0 is the model's choice (log
entry 7), and so is that the refused access answers a next state (log entry 6). -/
def Obligations.WindowShowsLimbsAsNumbers : Prop :=
  ∀ (s : State) (base k : Nat) (rest : List HostEvent), base % 4 = 0 → base + 4 * k + 4 ≤ s.cfg.memBytes →
    (s.pending = .read (0x1000 + base + 4 * k) 4 :: rest →
      step s = .next { s with pending := rest, response := .data (s.limbAt base k) }) ∧
    (∀ i < 4, s.pending = .read (0x1000 + base + 4 * k + i) 1 :: rest →
      step s = .next { s with pending := rest,
                              response := .data (((s.limbAt base k).extractLsb' (8 * i) 8).setWidth 32) }) ∧
    (∀ h < 2, s.pending = .read (0x1000 + base + 4 * k + 2 * h) 2 :: rest →
      step s = .next { s with pending := rest,
                              response := .data (((s.limbAt base k).extractLsb' (16 * h) 16).setWidth 32) }) ∧
    (∀ size > 4, s.pending = .read (0x1000 + base + 4 * k) size :: rest →
      step s = .next { s with pending := rest, response := .busError })

/-- The port allows exactly the accesses of 20_memory.md R74: the others get a bus error and change no state; an allowed
read returns data and an allowed write is done; a multi-byte window access is little-endian. That the answer's bytes at or
above a window read's size are 0 is the model's choice (log entry 7), and so is that a bus error is a next state (log entry
6). -/
def Obligations.PortAllowsExactlyTheAlignedAccesses : Prop :=
  ∀ (s : State) (off size : Nat) (rest : List HostEvent), s.cfg.wf →
    (¬PortAllows s.cfg off size →
      (s.pending = .read off size :: rest → step s = .next { s with pending := rest, response := .busError }) ∧
      (∀ v, s.pending = .write off size v :: rest → step s = .next { s with pending := rest, response := .busError })) ∧
    (PortAllows s.cfg off size →
      (s.pending = .read off size :: rest → ∃ v, step s = .next { s with pending := rest, response := .data v } ∧
        (0x1000 ≤ off → ∀ j, v.extractLsb' (8 * j) 8 = if j < size then s.byteAt (off - 0x1000 + j) else 0)) ∧
      (∀ v, s.pending = .write off size v :: rest → ∃ t, step s = .next t ∧ t.response = .done ∧
        (0x1000 ≤ off →
          (∀ j < size, t.byteAt (off - 0x1000 + j) = v.extractLsb' (8 * j) 8) ∧
          (∀ a, ¬InRange (off - 0x1000) size a → t.byteAt a = s.byteAt a) ∧
          t = { s with pending := rest, response := .done, mem := t.mem })))

/-- No host read has a side effect: only the answer of the port changes (part of R75). That a refused read too answers a
next state is the model's choice (log entry 6). -/
def Obligations.HostReadsHaveNoSideEffect : Prop :=
  ∀ (s : State) (off size : Nat) (rest : List HostEvent), s.pending = .read off size :: rest →
    ∃ r, step s = .next { s with pending := rest, response := r }

/-- A byte of operand memory changes only at a step that writes it: an issue of a command whose written buffers cover it, or
a window write that covers it (R77); a reset of an idle block, after which memory is unspecified (R82, read as log entry 3
says); or a reset during a command whose written buffers cover it, never one during a word that decodes to no command
(R321, read as log entry 4 says). -/
def Obligations.OnlyWritesChangeOperandMemory : Prop :=
  ∀ (s t : State) (a : Nat), step s = .next t → t.byteAt a ≠ s.byteAt a →
    ∃ rest,
      (∃ w i, s.pending = .write 0x000 4 w :: rest ∧ decode w = .ok i ∧ writesTo i s.args a = true) ∨
      (∃ off size v, s.pending = .write off size v :: rest ∧ PortAllows s.cfg off size ∧ 0x1000 ≤ off ∧
        InRange (off - 0x1000) size a) ∨
      s.pending = .reset :: rest ∨
      (∃ w i, s.pending = .resetDuring w :: rest ∧ decode w = .ok i ∧ writesTo i s.args a = true)

/-- The engine computes only from the buffers R111 lists as read: what else operand memory holds changes neither the
outcome nor a byte written (20_memory.md section 1). -/
def Obligations.CommandsReadOnlyTheirBuffers : Prop :=
  ∀ (i : Instr) (s t : State) (m : Memory),
    (∀ b ∈ buffers i s.args, b.reads = true → ∀ a, InRange b.base b.len a →
      State.byteAt { s with mem := m } a = s.byteAt a) →
    exec i s = .next t →
    ∃ u, exec i { s with mem := m } = .next u ∧ u.status = t.status ∧
      (t.status.err = 0 → ∀ a, writesTo i s.args a = true → u.byteAt a = t.byteAt a)

/-! ### What the commands leave alone -/

/-- `REV` and `REVC` store only to the `LEN` bytes at `TADDR`. -/
def Obligations.ByteReversalFrame : Prop :=
  ∀ (signed : Bool) (s t : State), exec (.rev signed) s = .next t ∨ exec (.revc signed) s = .next t →
    Frame s t (InRange s.args.taddr.toNat s.args.len.toNat)

/-- `BSWP`, `ZERO`, `SETW`, `COPY`, `ADD`, `SUB` and `MUL` store only to the `TBITS/8` bytes at `TADDR`. -/
def Obligations.TargetCommandsFrame : Prop :=
  ∀ (i : Instr) (signed : Bool) (offs : Nat) (s t : State),
    i = .bswp signed ∨ i = .zero signed ∨ i = .setw signed offs ∨ i = .copy signed ∨ i = .add signed ∨
      i = .sub signed ∨ i = .mul signed →
    exec i s = .next t → Frame s t (InRange s.args.taddr.toNat (s.args.tbits.toNat / 8))

/-- `DIV` stores only to the `TBITS/8` bytes at `QADDR`; `DIVR` also to the `SBITS/8` bytes at `RADDR`. -/
def Obligations.DivisionFrame : Prop :=
  ∀ (signed : Bool) (s t : State),
    (exec (.div signed) s = .next t → Frame s t (InRange s.args.qaddr.toNat (s.args.tbits.toNat / 8))) ∧
    (exec (.divr signed) s = .next t →
      Frame s t (fun a => InRange s.args.qaddr.toNat (s.args.tbits.toNat / 8) a ∨
        InRange s.args.raddr.toNat (s.args.sbits.toNat / 8) a))

/-! ### Byte reversal (40_byte_reversal.md) -/

/-- R131: `REV`, whole. -/
def Obligations.RevReversesTheBytesInPlace : Prop :=
  decode 0x00000001 = .ok (.rev false) ∧
  ∀ s : State,
    Rejects (.rev true) s .signedUnsupported ∧
    (s.args.len.toNat % 2 = 1 → Rejects (.rev false) s .oddLength) ∧
    (s.args.len.toNat % 2 = 0 → ¬BytesInside s.cfg s.args.taddr s.args.len → Rejects (.rev false) s .outOfBounds) ∧
    (RevReady s → ∃ t, exec (.rev false) s = .next t ∧
      (∀ i < s.args.len.toNat,
        t.byteAt (s.args.taddr.toNat + i) = s.byteAt (s.args.taddr.toNat + (s.args.len.toNat - 1 - i))) ∧
      Accepted s t false (InRange s.args.taddr.toNat s.args.len.toNat))

/-- R132: `REVC`, whole. -/
def Obligations.RevcReversesTheBytesIntoACopy : Prop :=
  decode 0x00000002 = .ok (.revc false) ∧
  ∀ s : State,
    Rejects (.revc true) s .signedUnsupported ∧
    (s.args.len.toNat % 2 = 1 → Rejects (.revc false) s .oddLength) ∧
    (s.args.len.toNat % 2 = 0 →
      ¬(BytesInside s.cfg s.args.taddr s.args.len ∧ BytesInside s.cfg s.args.saddr s.args.len) →
      Rejects (.revc false) s .outOfBounds) ∧
    (s.args.len.toNat % 2 = 0 → BytesInside s.cfg s.args.taddr s.args.len → BytesInside s.cfg s.args.saddr s.args.len →
      ¬SameOrDisjoint s.args.taddr.toNat s.args.len.toNat s.args.saddr.toNat s.args.len.toNat →
      Rejects (.revc false) s .overlap) ∧
    (RevcReady s → ∃ t, exec (.revc false) s = .next t ∧
      (∀ i < s.args.len.toNat,
        t.byteAt (s.args.taddr.toNat + i) = s.byteAt (s.args.saddr.toNat + (s.args.len.toNat - 1 - i))) ∧
      Accepted s t false (InRange s.args.taddr.toNat s.args.len.toNat))

/-- R133: `BSWP`, whole: the bytes of every limb reversed; the storage-order image of the value turned into its
number-order image (byte `i` of the buffer is byte `i` of the value, most-significant first); undone by a second. -/
def Obligations.BswpReversesTheBytesOfEachLimb : Prop :=
  decode 0x00000003 = .ok (.bswp false) ∧
  ∀ s : State,
    Rejects (.bswp true) s .signedUnsupported ∧ RejectsTarget (.bswp false) s ∧
    (TargetReady s → ∃ t u, exec (.bswp false) s = .next t ∧
      (∀ k < s.args.tbits.toNat / 32, ∀ i < 4,
        t.byteAt (s.args.taddr.toNat + 4 * k + i) = s.byteAt (s.args.taddr.toNat + 4 * k + (3 - i))) ∧
      (∀ i < s.args.tbits.toNat / 8,
        (t.byteAt (s.args.taddr.toNat + i)).toNat = (tVal s >>> (8 * (s.args.tbits.toNat / 8 - 1 - i))) % 256) ∧
      Accepted s t false (InRange s.args.taddr.toNat (s.args.tbits.toNat / 8)) ∧
      exec (.bswp false) t = .next u ∧ ∀ a, u.byteAt a = s.byteAt a)

/-- R134: the identities of the reversal unit. -/
def Obligations.ReversalsUndoThemselves : Prop :=
  (∀ s : State, RevReady s → ∃ t u, exec (.rev false) s = .next t ∧ exec (.rev false) t = .next u ∧
    ∀ a, u.byteAt a = s.byteAt a) ∧
  (∀ s : State, TargetReady s → ∃ t u, exec (.bswp false) s = .next t ∧ exec (.bswp false) t = .next u ∧
    ∀ a, u.byteAt a = s.byteAt a) ∧
  (∀ s : State, RevcReady s → ∃ t u, exec (.revc false) s = .next t ∧
    exec (.revc false) { t with args := { t.args with taddr := s.args.saddr, saddr := s.args.taddr } } = .next u ∧
    ∀ a, InRange s.args.saddr.toNat s.args.len.toNat a → u.byteAt a = s.byteAt a) ∧
  (∀ s : State, TargetReady s → s.args.len.toNat = s.args.tbits.toNat / 8 →
    ∃ t u, exec (.rev false) s = .next t ∧ exec (.bswp false) t = .next u ∧
      ∀ k < s.args.tbits.toNat / 32,
        u.limbAt s.args.taddr.toNat k = s.limbAt s.args.taddr.toNat (s.args.tbits.toNat / 32 - 1 - k))

/-! ### Sizing (41_representation.md) -/

/-- R150: `ZERO`, whole. -/
def Obligations.ZeroFillsTheTarget : Prop :=
  decode 0x00000008 = .ok (.zero false) ∧
  ∀ s : State,
    Rejects (.zero true) s .signedUnsupported ∧ RejectsTarget (.zero false) s ∧
    (TargetReady s → ∃ t, exec (.zero false) s = .next t ∧
      (∀ i < s.args.tbits.toNat / 8, t.byteAt (s.args.taddr.toNat + i) = 0) ∧ tVal t = 0 ∧
      Accepted s t false (InRange s.args.taddr.toNat (s.args.tbits.toNat / 8)))

/-- R151: `SETW`, whole. -/
def Obligations.SetwPlacesTheWordAtItsOffset : Prop :=
  (∀ offs < 65536, decode (BitVec.ofNat 32 (offs * 2 ^ 16 + 0x0009)) = .ok (.setw false offs)) ∧
  ∀ (s : State) (offs : Nat),
    Rejects (.setw true offs) s .signedUnsupported ∧
    (¬GoodBits s.cfg s.args.tbits → Rejects (.setw false offs) s .badBitSize) ∧
    (GoodBits s.cfg s.args.tbits → s.args.tbits.toNat / 32 ≤ offs → Rejects (.setw false offs) s .offsetRange) ∧
    (GoodBits s.cfg s.args.tbits → offs < s.args.tbits.toNat / 32 → ¬Aligned s.args.taddr →
      Rejects (.setw false offs) s .misaligned) ∧
    (GoodBits s.cfg s.args.tbits → offs < s.args.tbits.toNat / 32 → Aligned s.args.taddr →
      ¬LimbsInside s.cfg s.args.taddr s.args.tbits → Rejects (.setw false offs) s .outOfBounds) ∧
    (SetwReady offs s → ∃ t, exec (.setw false offs) s = .next t ∧
      (∀ k < s.args.tbits.toNat / 32, t.limbAt s.args.taddr.toNat k =
        if k = s.args.tbits.toNat / 32 - offs - 1 then s.args.word else 0) ∧
      tVal t = s.args.word.toNat * 2 ^ (32 * offs) ∧
      Accepted s t false (InRange s.args.taddr.toNat (s.args.tbits.toNat / 8)))

/-- R152: `COPY`, whole: the value is copied, the source's limbs at the least-significant end. -/
def Obligations.CopyCopiesTheValue : Prop :=
  decode 0x0000000A = .ok (.copy false) ∧
  ∀ s : State,
    Rejects (.copy true) s .signedUnsupported ∧ RejectsPair (.copy false) s ∧
    (PairReady s → ∃ t, exec (.copy false) s = .next t ∧
      (∀ k < (s.args.tbits.toNat - s.args.sbits.toNat) / 32, t.limbAt s.args.taddr.toNat k = 0) ∧
      (∀ k < s.args.sbits.toNat / 32,
        t.limbAt s.args.taddr.toNat ((s.args.tbits.toNat - s.args.sbits.toNat) / 32 + k) =
          s.limbAt s.args.saddr.toNat k) ∧
      tVal t = sVal s ∧
      (∀ a, InRange s.args.saddr.toNat (s.args.sbits.toNat / 8) a → t.byteAt a = s.byteAt a) ∧
      Accepted s t false (InRange s.args.taddr.toNat (s.args.tbits.toNat / 8)))

/-! ### Adder and subtractor (43_add.md, 44_sub.md) -/

/-- R190: the adder cell, and its corner values. -/
def Obligations.AdderCellAddsExactly : Prop :=
  (∀ (a b : Word) (c : Bool),
    (ladd a b c).1.toNat = (a.toNat + b.toNat + c.toNat) % 2 ^ 32 ∧
    (ladd a b c).2.toNat = (a.toNat + b.toNat + c.toNat) / 2 ^ 32 ∧
    ((ladd a b c).2 = true ↔ 2 ^ 32 ≤ a.toNat + b.toNat + c.toNat)) ∧
  ladd 0xFFFFFFFF 0xFFFFFFFF true = (0xFFFFFFFF, true) ∧ ladd 0xFFFFFFFF 0 true = (0, true) ∧
  ∀ a, ladd a 0 false = (a, false)

/-- R192: `ADD`, whole. -/
def Obligations.AddAddsModuloTheWidth : Prop :=
  decode 0x00000010 = .ok (.add false) ∧
  ∀ s : State,
    Rejects (.add true) s .signedUnsupported ∧ RejectsPair (.add false) s ∧
    (PairReady s → ∃ t, exec (.add false) s = .next t ∧
      tVal t = (tVal s + sVal s) % 2 ^ s.args.tbits.toNat ∧
      Accepted s t (decide (2 ^ s.args.tbits.toNat ≤ tVal s + sVal s))
        (InRange s.args.taddr.toNat (s.args.tbits.toNat / 8)))

/-- R210: the subtractor cell, and its corner values. -/
def Obligations.SubtractorCellSubtractsExactly : Prop :=
  (∀ (a b : Word) (c : Bool),
    ((lsub a b c).1.toNat : Int) = ((a.toNat : Int) - b.toNat - c.toNat) % 2 ^ 32 ∧
    ((lsub a b c).2 = true ↔ a.toNat < b.toNat + c.toNat)) ∧
  lsub 0 0xFFFFFFFF true = (0, true) ∧ lsub 0 0 true = (0xFFFFFFFF, true) ∧ ∀ a, lsub a 0 false = (a, false)

/-- `AddLimbs` and `SubLimbs` (43_add.md and 44_sub.md, section 2 of each) carry and borrow through every limb of the
target: the result with the carry out is the exact sum, the result less the borrow's weight the exact difference. -/
def Obligations.LimbWalksAreExact : Prop :=
  ∀ t s : List Word, s.length ≤ t.length →
    (addLimbs t s).1.length = t.length ∧
    limbsVal (addLimbs t s).1 + 2 ^ (32 * t.length) * (addLimbs t s).2.toNat = limbsVal t + limbsVal s ∧
    (subLimbs t s).1.length = t.length ∧
    limbsVal (subLimbs t s).1 + limbsVal s = limbsVal t + 2 ^ (32 * t.length) * (subLimbs t s).2.toNat

/-- R212: `SUB`, whole. -/
def Obligations.SubSubtractsModuloTheWidth : Prop :=
  decode 0x00000011 = .ok (.sub false) ∧
  ∀ s : State,
    Rejects (.sub true) s .signedUnsupported ∧ RejectsPair (.sub false) s ∧
    (PairReady s → ∃ t, exec (.sub false) s = .next t ∧
      (tVal t : Int) = ((tVal s : Int) - sVal s) % 2 ^ s.args.tbits.toNat ∧
      Accepted s t (decide (tVal s < sVal s)) (InRange s.args.taddr.toNat (s.args.tbits.toNat / 8)))

/-- `SUB` of a separate source undoes `ADD` of it, with or without wraparound (43_add.md section 4, 44_sub.md section 4):
every byte of memory is back. -/
def Obligations.SubUndoesAdd : Prop :=
  ∀ s : State, PairReady s → Apart s.args.taddr.toNat (s.args.tbits.toNat / 8) s.args.saddr.toNat (s.args.sbits.toNat / 8) →
    ∃ t u, exec (.add false) s = .next t ∧ exec (.sub false) t = .next u ∧ ∀ a, u.byteAt a = s.byteAt a

/-! ### Multiplier (45_mul.md) -/

/-- R230: the multiplier cell, and its corner values. -/
def Obligations.MultiplierCellMultipliesExactly : Prop :=
  (∀ a b c : Word,
    (lmul a b c).1.toNat = (a.toNat * b.toNat + c.toNat) % 2 ^ 32 ∧
    (lmul a b c).2.toNat = (a.toNat * b.toNat + c.toNat) / 2 ^ 32) ∧
  lmul 0xFFFFFFFF 0xFFFFFFFF 0xFFFFFFFF = (0x00000000, 0xFFFFFFFF) ∧
  lmul 0xFFFFFFFF 0xFFFFFFFF 0 = (0x00000001, 0xFFFFFFFE) ∧ (∀ a, lmul a 1 0 = (a, 0)) ∧ ∀ a c, lmul a 0 c = (c, 0)

/-- R231: accumulating a partial product, and dropping one at or above the width. -/
def Obligations.AccumulateAddsModuloTheWidth : Prop :=
  ∀ (acc : List Word) (lo : Word) (shift : Nat),
    (accumulate acc lo shift).length = acc.length ∧
    (acc.length ≤ shift → accumulate acc lo shift = acc) ∧
    limbsVal (accumulate acc lo shift) = (limbsVal acc + lo.toNat * 2 ^ (32 * shift)) % 2 ^ (32 * acc.length)

/-- The schoolbook loops (45_mul.md section 3) compute the product of the two values modulo the target's width, for every
pair of lengths. -/
def Obligations.SchoolbookLoopsComputeTheProduct : Prop :=
  ∀ t s : List Word, (mulLimbs t s).length = t.length ∧
    limbsVal (mulLimbs t s) = limbsVal t * limbsVal s % 2 ^ (32 * t.length)

/-- R232: `MUL`, whole. -/
def Obligations.MulMultipliesModuloTheWidth : Prop :=
  decode 0x00000012 = .ok (.mul false) ∧
  ∀ s : State,
    Rejects (.mul true) s .signedUnsupported ∧ RejectsPair (.mul false) s ∧
    (PairReady s → ∃ t, exec (.mul false) s = .next t ∧
      tVal t = tVal s * sVal s % 2 ^ s.args.tbits.toNat ∧
      Accepted s t false (InRange s.args.taddr.toNat (s.args.tbits.toNat / 8)))

/-! ### Divider (46_div.md) -/

/-- One divider step (46_div.md section 1): the remainder is doubled, takes the bit, and one subtraction keeps it below the
divisor. -/
def Obligations.DividerStepKeepsTheRemainderSmall : Prop :=
  ∀ rem q bit b d : Nat, rem < d → bit ≤ 1 →
    (dstep rem q bit b d).1 < d ∧
    (d ≤ 2 * rem + bit → dstep rem q bit b d = (2 * rem + bit - d, q ||| 2 ^ b)) ∧
    (2 * rem + bit < d → dstep rem q bit b d = (2 * rem + bit, q))

/-- R251: the bit-serial loop gives quotient and remainder. -/
def Obligations.DivBitsGivesQuotientAndRemainder : Prop :=
  ∀ n d bits : Nat, 1 ≤ d → n < 2 ^ bits → divBits n d bits = (n / d, n % d)

/-- R252: `DIV`, whole. -/
def Obligations.DivWritesTheQuotient : Prop :=
  decode 0x00000013 = .ok (.div false) ∧
  ∀ s : State,
    Rejects (.div true) s .signedUnsupported ∧ RejectsSizes (.div false) s ∧
    (SizesReady s → ¬(Aligned s.args.taddr ∧ Aligned s.args.saddr ∧ Aligned s.args.qaddr) →
      Rejects (.div false) s .misaligned) ∧
    (SizesReady s → Aligned s.args.taddr → Aligned s.args.saddr → Aligned s.args.qaddr →
      ¬(LimbsInside s.cfg s.args.taddr s.args.tbits ∧ LimbsInside s.cfg s.args.saddr s.args.sbits ∧
        LimbsInside s.cfg s.args.qaddr s.args.tbits) → Rejects (.div false) s .outOfBounds) ∧
    (SizesReady s → Aligned s.args.taddr → Aligned s.args.saddr → Aligned s.args.qaddr →
      LimbsInside s.cfg s.args.taddr s.args.tbits → LimbsInside s.cfg s.args.saddr s.args.sbits →
      LimbsInside s.cfg s.args.qaddr s.args.tbits → ¬DivOperands s → Rejects (.div false) s .overlap) ∧
    (DivOperands s → sVal s = 0 → Rejects (.div false) s .divideByZero) ∧
    (DivReady s → ∃ t, exec (.div false) s = .next t ∧
      t.valAt s.args.qaddr s.args.tbits = tVal s / sVal s ∧
      Accepted s t false (InRange s.args.qaddr.toNat (s.args.tbits.toNat / 8)))

/-- R253: `DIVR`, whole. -/
def Obligations.DivrWritesQuotientAndRemainder : Prop :=
  decode 0x00000014 = .ok (.divr false) ∧
  ∀ s : State,
    Rejects (.divr true) s .signedUnsupported ∧ RejectsSizes (.divr false) s ∧
    (SizesReady s → ¬(Aligned s.args.taddr ∧ Aligned s.args.saddr ∧ Aligned s.args.qaddr ∧ Aligned s.args.raddr) →
      Rejects (.divr false) s .misaligned) ∧
    (SizesReady s → Aligned s.args.taddr → Aligned s.args.saddr → Aligned s.args.qaddr → Aligned s.args.raddr →
      ¬(LimbsInside s.cfg s.args.taddr s.args.tbits ∧ LimbsInside s.cfg s.args.saddr s.args.sbits ∧
        LimbsInside s.cfg s.args.qaddr s.args.tbits ∧ LimbsInside s.cfg s.args.raddr s.args.sbits) →
      Rejects (.divr false) s .outOfBounds) ∧
    (SizesReady s → Aligned s.args.taddr → Aligned s.args.saddr → Aligned s.args.qaddr → Aligned s.args.raddr →
      LimbsInside s.cfg s.args.taddr s.args.tbits → LimbsInside s.cfg s.args.saddr s.args.sbits →
      LimbsInside s.cfg s.args.qaddr s.args.tbits → LimbsInside s.cfg s.args.raddr s.args.sbits →
      ¬DivrOperands s → Rejects (.divr false) s .overlap) ∧
    (DivrOperands s → sVal s = 0 → Rejects (.divr false) s .divideByZero) ∧
    (DivrReady s → ∃ t, exec (.divr false) s = .next t ∧
      t.valAt s.args.qaddr s.args.tbits = tVal s / sVal s ∧ t.valAt s.args.raddr s.args.sbits = tVal s % sVal s ∧
      tVal s = t.valAt s.args.qaddr s.args.tbits * sVal s + t.valAt s.args.raddr s.args.sbits ∧
      t.valAt s.args.raddr s.args.sbits < sVal s ∧
      Accepted s t false (fun a => InRange s.args.qaddr.toNat (s.args.tbits.toNat / 8) a ∨
        InRange s.args.raddr.toNat (s.args.sbits.toNat / 8) a))

/-- The division law (46_div.md section 5): where the divisor survives, `MUL` of the quotient by the divisor and `ADD` of
the remainder give the dividend's value back, with `WRAP` 0. -/
def Obligations.QuotientTimesDivisorPlusRemainder : Prop :=
  ∀ s : State, DivrReady s →
    Apart s.args.qaddr.toNat (s.args.tbits.toNat / 8) s.args.saddr.toNat (s.args.sbits.toNat / 8) →
    Apart s.args.raddr.toNat (s.args.sbits.toNat / 8) s.args.saddr.toNat (s.args.sbits.toNat / 8) →
    ∃ t u v, exec (.divr false) s = .next t ∧
      exec (.mul false) { t with args := { s.args with taddr := s.args.qaddr } } = .next u ∧
      exec (.add false) { u with args := { s.args with taddr := s.args.qaddr, saddr := s.args.raddr } } = .next v ∧
      v.valAt s.args.qaddr s.args.tbits = tVal s ∧ v.status.wrap = false ∧ v.status.err = 0

/-! ### The assembler (30_encoding.md R110) -/

/-- R110: the host writes each line stands for, with and without `.S`; performing them issues the line's command with the
argument registers it loads; and a write of the value a register holds may be left out, since it changes nothing. -/
def Obligations.AssemblerLinesExpandToHostWrites : Prop :=
  (∀ b t n, (AsmLine.rev b t n).expand = [.write 0x010 4 t, .write 0x02C 4 n, .write 0x000 4 (0x00000001 + suffix b)]) ∧
  (∀ b t s n, (AsmLine.revc b t s n).expand =
    [.write 0x010 4 t, .write 0x018 4 s, .write 0x02C 4 n, .write 0x000 4 (0x00000002 + suffix b)]) ∧
  (∀ b t tb, (AsmLine.bswp b t tb).expand =
    [.write 0x010 4 t, .write 0x014 4 tb, .write 0x000 4 (0x00000003 + suffix b)]) ∧
  (∀ b t tb, (AsmLine.zero b t tb).expand =
    [.write 0x010 4 t, .write 0x014 4 tb, .write 0x000 4 (0x00000008 + suffix b)]) ∧
  (∀ b t tb w, ∀ o < 65536, (AsmLine.setw b t tb w o).expand =
    [.write 0x010 4 t, .write 0x014 4 tb, .write 0x028 4 w,
      .write 0x000 4 (BitVec.ofNat 32 (o * 2 ^ 16 + 0x0009) + suffix b)]) ∧
  (∀ b t tb s sb, (AsmLine.copy b t tb s sb).expand =
    [.write 0x010 4 t, .write 0x014 4 tb, .write 0x018 4 s, .write 0x01C 4 sb, .write 0x000 4 (0x0000000A + suffix b)]) ∧
  (∀ b t tb s sb, (AsmLine.add b t tb s sb).expand =
    [.write 0x010 4 t, .write 0x014 4 tb, .write 0x018 4 s, .write 0x01C 4 sb, .write 0x000 4 (0x00000010 + suffix b)]) ∧
  (∀ b t tb s sb, (AsmLine.sub b t tb s sb).expand =
    [.write 0x010 4 t, .write 0x014 4 tb, .write 0x018 4 s, .write 0x01C 4 sb, .write 0x000 4 (0x00000011 + suffix b)]) ∧
  (∀ b t tb s sb, (AsmLine.mul b t tb s sb).expand =
    [.write 0x010 4 t, .write 0x014 4 tb, .write 0x018 4 s, .write 0x01C 4 sb, .write 0x000 4 (0x00000012 + suffix b)]) ∧
  (∀ b t tb s sb q, (AsmLine.div b t tb s sb q).expand =
    [.write 0x010 4 t, .write 0x014 4 tb, .write 0x018 4 s, .write 0x01C 4 sb, .write 0x020 4 q,
      .write 0x000 4 (0x00000013 + suffix b)]) ∧
  (∀ b t tb s sb q r, (AsmLine.divr b t tb s sb q r).expand =
    [.write 0x010 4 t, .write 0x014 4 tb, .write 0x018 4 s, .write 0x01C 4 sb, .write 0x020 4 q, .write 0x024 4 r,
      .write 0x000 4 (0x00000014 + suffix b)]) ∧
  (∀ (l : AsmLine) (s : State) (rest : List HostEvent), l.instr.wellFormed = true → s.pending = l.expand ++ rest →
    Host.Core.run core l.expand.length s =
      exec l.instr { s with args := l.loaded s.args, cmd := encode l.instr, pending := rest, response := .done }) ∧
  (∀ (s : State) (r : ArgReg) (rest : List HostEvent), s.pending = .write r.offset 4 (s.args.get r) :: rest →
    step s = .next { s with pending := rest, response := .done })

/-! ### Reset (70_reset_and_hazards.md) and the invariant -/

/-- What reset leaves (10_state.md R39): every register 0, the parameters in `CAP_BITS` and `CAP_MEM`, the engine idle;
operand memory is unspecified, so nothing is said of it. A command issued before `TBITS` is written fails with `BadBitSize`
unless it is `REV` or `REVC`, and no word issued on a just-reset block writes a byte. Two clauses are the model's choice and
no rule's: a reset leaves the host's accesses pending (log entry 8), and none is pending at `State.reset` (log entry 5). -/
def Obligations.ResetClearsTheRegisters : Prop :=
  (∀ r, State.reset.args.get r = 0) ∧ State.reset.cmd = 0 ∧ State.reset.status.word = 0 ∧ State.reset.pending = [] ∧
  (∀ (s : State) (rest : List HostEvent), s.pending = .reset :: rest →
    ∃ t, step s = .next t ∧ (∀ r, t.args.get r = 0) ∧ t.cmd = 0 ∧ t.status = { err := 0, wrap := false, sticky := false } ∧
      t.cfg = s.cfg ∧ t.pending = rest) ∧
  (∀ (i : Instr) (s : State), s.args.tbits = 0 → i.signed = false → i ≠ .rev false → i ≠ .revc false →
    Rejects i s .badBitSize) ∧
  (∀ (s t : State) (w : Word), (∀ r, s.args.get r = 0) → s.issueWord w = .next t → ∀ a, t.byteAt a = s.byteAt a)

/-- Reset during a command (70_reset_and_hazards.md R321): the registers take their reset values; every byte outside the
buffers the command writes keeps its value, and a word that decodes to no command has none (log entry 4). Of the bytes
inside nothing is said. That the host's accesses stay pending is the model's choice (log entry 8). -/
def Obligations.ResetDuringACommandKeepsOtherBytes : Prop :=
  ∀ (s : State) (w : Word) (rest : List HostEvent), s.pending = .resetDuring w :: rest →
    ∃ t, step s = .next t ∧ (∀ r, t.args.get r = 0) ∧ t.cmd = 0 ∧ t.status = { err := 0, wrap := false, sticky := false } ∧
      t.cfg = s.cfg ∧ t.pending = rest ∧
      ∀ a, (∀ i, decode w = .ok i → writesTo i s.args a = false) → t.byteAt a = s.byteAt a

/-- The invariant holds at reset. -/
def Obligations.ResetMeetsTheInvariant : Prop := Inv State.reset

/-- Every step keeps the invariant: the parameters stay legal, memory stays in canonical form and lists only addresses
that exist, `ERR` is a code of R280, and `WRAP` is set only after an accepted `ADD` or `SUB` that `CMD` still holds. -/
def Obligations.EveryStepKeepsTheInvariant : Prop :=
  ∀ s t : State, Inv s → step s = .next t → Inv t
end

