-- ==== Sys2Proof/Laws/Datapath.lean ====
section
/-! SUPPORT. What the datapath computes, as exact arithmetic: one lemma for each cell and each limb-level algorithm. -/

namespace Sys2Proof.Machine

/-! ### Values of limb lists -/

/-- The value of a list of limbs with the least-significant limb first: the walks go in this order. -/
def posVal : List Word → Nat
  | [] => 0
  | l :: ls => l.toNat + 2 ^ 32 * posVal ls

theorem posVal_append (xs ys : List Word) : posVal (xs ++ ys) = posVal xs + 2 ^ (32 * xs.length) * posVal ys := by
  induction xs with
  | nil => simp [posVal]
  | cons x xs ih =>
    simp only [List.cons_append, posVal, ih, List.length_cons]
    rw [show 32 * (xs.length + 1) = 32 + 32 * xs.length by omega, pow_add]; ring

theorem posVal_reverse (ls : List Word) : posVal ls.reverse = limbsVal ls := by
  induction ls with
  | nil => rfl
  | cons l ls ih =>
    rw [List.reverse_cons, posVal_append, ih]
    simp [posVal, limbsVal]; ring

theorem limbsVal_reverse (ls : List Word) : limbsVal ls.reverse = posVal ls := by
  rw [← posVal_reverse, List.reverse_reverse]

theorem limbsVal_append (xs ys : List Word) : limbsVal (xs ++ ys) = limbsVal xs * 2 ^ (32 * ys.length) + limbsVal ys := by
  induction xs with
  | nil => simp [limbsVal]
  | cons x xs ih =>
    simp only [List.cons_append, limbsVal, ih, List.length_append]
    rw [show 32 * (xs.length + ys.length) = 32 * xs.length + 32 * ys.length by ring, pow_add]; ring

/-- A value is below `2^B` (R66). -/
theorem limbsVal_lt (ls : List Word) : limbsVal ls < 2 ^ (32 * ls.length) := by
  induction ls with
  | nil => simp [limbsVal]
  | cons l ls ih =>
    simp only [limbsVal, List.length_cons]
    have hl := l.isLt
    rw [show 32 * (ls.length + 1) = 32 * ls.length + 32 by ring, pow_add]
    nlinarith [Nat.two_pow_pos (32 * ls.length)]

@[simp] theorem length_limbsOfNat (n v : Nat) : (limbsOfNat n v).length = n := by
  induction n with
  | zero => rfl
  | succ n ih => simp [limbsOfNat, ih]

/-- The limbs of a number hold the number, truncated to their width (R67). -/
theorem limbsVal_limbsOfNat (n v : Nat) : limbsVal (limbsOfNat n v) = v % 2 ^ (32 * n) := by
  induction n with
  | zero => simp [limbsOfNat, limbsVal, Nat.mod_one]
  | succ n ih =>
    simp only [limbsOfNat, limbsVal, ih, length_limbsOfNat, BitVec.toNat_ofNat, Nat.shiftRight_eq_div_pow]
    rw [show 32 * (n + 1) = 32 * n + 32 by ring, pow_add, Nat.mod_mul]; ring

/-- Limb `k` of a number (R67). -/
theorem getElem_limbsOfNat (n : Nat) : ∀ (v k : Nat) (h : k < (limbsOfNat n v).length),
    (limbsOfNat n v)[k] = BitVec.ofNat 32 (v >>> (32 * (n - 1 - k))) := by
  induction n with
  | zero => intro v k h; simp at h
  | succ n ih =>
    intro v k h
    cases k with
    | zero => simp [limbsOfNat]
    | succ k =>
      simp only [limbsOfNat, List.getElem_cons_succ, ih]
      congr 3; omega

/-- A list of limbs is the limbs of its value. -/
theorem limbsOfNat_limbsVal (ls : List Word) : limbsOfNat ls.length (limbsVal ls) = ls := by
  suffices h : ∀ (ls : List Word) (c : Nat), limbsOfNat ls.length (c * 2 ^ (32 * ls.length) + limbsVal ls) = ls by
    simpa using h ls 0
  intro ls
  induction ls with
  | nil => intro c; rfl
  | cons l ls ih =>
    intro c
    simp only [List.length_cons, limbsOfNat, limbsVal, List.cons.injEq]
    have hl := l.isLt
    have hlt := limbsVal_lt ls
    have e : c * 2 ^ (32 * (ls.length + 1)) + (l.toNat * 2 ^ (32 * ls.length) + limbsVal ls) =
        (c * 2 ^ 32 + l.toNat) * 2 ^ (32 * ls.length) + limbsVal ls := by
      rw [show 32 * (ls.length + 1) = 32 * ls.length + 32 by ring, pow_add]; ring
    rw [e]
    refine ⟨?_, ih _⟩
    apply BitVec.eq_of_toNat_eq
    rw [BitVec.toNat_ofNat, Nat.shiftRight_eq_div_pow, Nat.mul_comm, Nat.mul_add_div (Nat.two_pow_pos _),
      Nat.div_eq_of_lt hlt]
    omega

@[simp] theorem length_zeroLimbs (n : Nat) : (zeroLimbs n).length = n := by simp [zeroLimbs]

@[simp] theorem limbsVal_zeroLimbs (n : Nat) : limbsVal (zeroLimbs n) = 0 := by
  induction n with
  | zero => rfl
  | succ n ih => simpa [zeroLimbs, List.replicate_succ, limbsVal] using ih

@[simp] theorem length_seedLimbs (n : Nat) (w : Word) (offs : Nat) : (seedLimbs n w offs).length = n := by
  simp [seedLimbs]

/-- A single limb at an offset holds `w * 2^(32*offs)` (R151). -/
theorem limbsVal_seedLimbs {n offs : Nat} (h : offs < n) (w : Word) :
    limbsVal (seedLimbs n w offs) = w.toNat * 2 ^ (32 * offs) := by
  obtain ⟨k, rfl⟩ : ∃ k, n = k + 1 + offs := ⟨n - 1 - offs, by omega⟩
  have e : seedLimbs (k + 1 + offs) w offs = zeroLimbs k ++ w :: zeroLimbs offs := by
    simp only [seedLimbs, zeroLimbs, show k + 1 + offs - offs - 1 = k by omega]
    rw [show k + 1 + offs = k + (offs + 1) by omega, List.replicate_add, List.set_append_right _ _ (by simp)]
    simp [List.replicate_succ]
  rw [e, limbsVal_append]
  simp [limbsVal]

theorem length_widenLimbs {n : Nat} {src : List Word} (h : src.length ≤ n) : (widenLimbs n src).length = n := by
  simp [widenLimbs]; omega

/-- Widening keeps the value (R152). -/
theorem limbsVal_widenLimbs (n : Nat) (src : List Word) : limbsVal (widenLimbs n src) = limbsVal src := by
  simp [widenLimbs, limbsVal_append]

/-! ### Adder -/

/-- `LADD` (R190): the sum and the carry are the whole of `a + b + cin`. -/
theorem ladd_spec (a b : Word) (c : Bool) :
    (ladd a b c).1.toNat + 2 ^ 32 * (ladd a b c).2.toNat = a.toNat + b.toNat + c.toNat := by
  have ha := a.isLt; have hb := b.isLt; have hc := c.toNat_le
  simp only [ladd, BitVec.toNat_ofNat, Nat.mod_mod]
  by_cases h : (a.toNat + b.toNat + c.toNat) / 2 ^ 32 = 1
  · simp only [h, decide_true, Bool.toNat_true]; omega
  · simp only [h, decide_false, Bool.toNat_false]; omega

theorem length_addWalk (t : List Word) : ∀ (s : List Word) (c : Bool), (addWalk t s c).1.length = t.length := by
  induction t with
  | nil => intro s c; rfl
  | cons t ts ih => intro s c; cases s <;> simp [addWalk, ih]

theorem addWalk_spec (t : List Word) : ∀ (s : List Word) (c : Bool), s.length ≤ t.length →
    posVal (addWalk t s c).1 + 2 ^ (32 * t.length) * (addWalk t s c).2.toNat = posVal t + posVal s + c.toNat := by
  induction t with
  | nil =>
    intro s c h
    obtain rfl : s = [] := List.length_eq_zero_iff.mp (by simpa using h)
    simp [addWalk, posVal]
  | cons t ts ih =>
    intro s c h
    have e : 2 ^ (32 * (t :: ts).length) = 2 ^ 32 * 2 ^ (32 * ts.length) := by
      rw [List.length_cons, show 32 * (ts.length + 1) = 32 + 32 * ts.length by ring, pow_add]
    cases s with
    | nil =>
      have h1 := ladd_spec t 0 c
      have h2 := ih [] (ladd t 0 c).2 (by simp)
      rw [show (0 : Word).toNat = 0 from rfl] at h1
      simp only [addWalk, posVal, e] at *
      nlinarith
    | cons s ss =>
      have h1 := ladd_spec t s c
      have h2 := ih ss (ladd t s c).2 (by simpa using h)
      simp only [addWalk, posVal, e] at *
      nlinarith

@[simp] theorem length_addLimbs (t s : List Word) : (addLimbs t s).1.length = t.length := by
  simp [addLimbs, length_addWalk]

/-- `AddLimbs` (R191, R192): the result and the carry out are the whole of the sum. -/
theorem addLimbs_spec {t s : List Word} (h : s.length ≤ t.length) :
    limbsVal (addLimbs t s).1 + 2 ^ (32 * t.length) * (addLimbs t s).2.toNat = limbsVal t + limbsVal s := by
  have := addWalk_spec t.reverse s.reverse false (by simpa using h)
  simpa [addLimbs, limbsVal_reverse, posVal_reverse] using this

theorem limbsVal_addLimbs {t s : List Word} (h : s.length ≤ t.length) :
    limbsVal (addLimbs t s).1 = (limbsVal t + limbsVal s) % 2 ^ (32 * t.length) := by
  rw [← addLimbs_spec h, Nat.add_mul_mod_self_left, Nat.mod_eq_of_lt]
  simpa using limbsVal_lt (addLimbs t s).1

theorem addLimbs_carry {t s : List Word} (h : s.length ≤ t.length) :
    (addLimbs t s).2 = true ↔ 2 ^ (32 * t.length) ≤ limbsVal t + limbsVal s := by
  have h1 := addLimbs_spec h
  have h2 := limbsVal_lt (addLimbs t s).1
  rw [length_addLimbs] at h2
  cases hc : (addLimbs t s).2 <;> simp only [hc, Bool.toNat_true, Bool.toNat_false] at h1
  · simp; omega
  · simp; omega

/-! ### Subtractor -/

/-- `LSUB` (R210): the difference less the borrow's weight is the whole of `a - b - bin`. -/
theorem lsub_spec (a b : Word) (c : Bool) :
    (lsub a b c).1.toNat + b.toNat + c.toNat = a.toNat + 2 ^ 32 * (lsub a b c).2.toNat := by
  have ha := a.isLt; have hb := b.isLt; have hc := c.toNat_le
  simp only [lsub]
  split <;> simp only [BitVec.toNat_ofInt, Bool.toNat_true, Bool.toNat_false] <;> push_cast <;> omega

theorem length_subWalk (t : List Word) : ∀ (s : List Word) (c : Bool), (subWalk t s c).1.length = t.length := by
  induction t with
  | nil => intro s c; rfl
  | cons t ts ih => intro s c; cases s <;> simp [subWalk, ih]

theorem subWalk_spec (t : List Word) : ∀ (s : List Word) (c : Bool), s.length ≤ t.length →
    posVal (subWalk t s c).1 + posVal s + c.toNat = posVal t + 2 ^ (32 * t.length) * (subWalk t s c).2.toNat := by
  induction t with
  | nil =>
    intro s c h
    obtain rfl : s = [] := List.length_eq_zero_iff.mp (by simpa using h)
    simp [subWalk, posVal]
  | cons t ts ih =>
    intro s c h
    have e : 2 ^ (32 * (t :: ts).length) = 2 ^ 32 * 2 ^ (32 * ts.length) := by
      rw [List.length_cons, show 32 * (ts.length + 1) = 32 + 32 * ts.length by ring, pow_add]
    cases s with
    | nil =>
      have h1 := lsub_spec t 0 c
      have h2 := ih [] (lsub t 0 c).2 (by simp)
      rw [show (0 : Word).toNat = 0 from rfl] at h1
      simp only [subWalk, posVal, e] at *
      nlinarith
    | cons s ss =>
      have h1 := lsub_spec t s c
      have h2 := ih ss (lsub t s c).2 (by simpa using h)
      simp only [subWalk, posVal, e] at *
      nlinarith

@[simp] theorem length_subLimbs (t s : List Word) : (subLimbs t s).1.length = t.length := by
  simp [subLimbs, length_subWalk]

/-- `SubLimbs` (R211, R212): the result less the borrow's weight is the whole of the difference. -/
theorem subLimbs_spec {t s : List Word} (h : s.length ≤ t.length) :
    limbsVal (subLimbs t s).1 + limbsVal s = limbsVal t + 2 ^ (32 * t.length) * (subLimbs t s).2.toNat := by
  have := subWalk_spec t.reverse s.reverse false (by simpa using h)
  simpa [subLimbs, limbsVal_reverse, posVal_reverse] using this

theorem subLimbs_borrow {t s : List Word} (h : s.length ≤ t.length) :
    (subLimbs t s).2 = true ↔ limbsVal t < limbsVal s := by
  have h1 := subLimbs_spec h
  have h2 := limbsVal_lt (subLimbs t s).1
  rw [length_subLimbs] at h2
  cases hc : (subLimbs t s).2 <;> simp only [hc, Bool.toNat_true, Bool.toNat_false] at h1
  · simp; omega
  · simp; omega

theorem limbsVal_subLimbs {t s : List Word} (h : s.length ≤ t.length) :
    limbsVal (subLimbs t s).1 = (limbsVal t + 2 ^ (32 * t.length) - limbsVal s) % 2 ^ (32 * t.length) := by
  have h1 := subLimbs_spec h
  have h2 := limbsVal_lt (subLimbs t s).1
  have h3 := limbsVal_lt s
  have h4 : 2 ^ (32 * s.length) ≤ 2 ^ (32 * t.length) := Nat.pow_le_pow_right (by omega) (by omega)
  rw [length_subLimbs] at h2
  cases hc : (subLimbs t s).2 <;> simp only [hc, Bool.toNat_true, Bool.toNat_false] at h1
  · rw [show limbsVal t + 2 ^ (32 * t.length) - limbsVal s = limbsVal (subLimbs t s).1 + 2 ^ (32 * t.length) by omega,
      Nat.add_mod_right, Nat.mod_eq_of_lt h2]
  · rw [show limbsVal t + 2 ^ (32 * t.length) - limbsVal s = limbsVal (subLimbs t s).1 by omega, Nat.mod_eq_of_lt h2]

/-! ### Multiplier -/

/-- `LMUL` (R230): the two halves are the whole of `a * b + cin`. -/
theorem lmul_spec (a b c : Word) :
    (lmul a b c).1.toNat + 2 ^ 32 * (lmul a b c).2.toNat = a.toNat * b.toNat + c.toNat := by
  have ha := a.isLt; have hb := b.isLt; have hc := c.isLt
  have hm : a.toNat * b.toNat ≤ (2 ^ 32 - 1) * (2 ^ 32 - 1) := Nat.mul_le_mul (by omega) (by omega)
  simp only [lmul, BitVec.toNat_ofNat]
  omega

@[simp] theorem length_accumulate (acc : List Word) (lo : Word) (k : Nat) : (accumulate acc lo k).length = acc.length := by
  simp only [accumulate]; split <;> simp

/-- `Accumulate` (R231): the partial product is added modulo the accumulator's width. -/
theorem limbsVal_accumulate (acc : List Word) (lo : Word) (k : Nat) :
    limbsVal (accumulate acc lo k) = (limbsVal acc + lo.toNat * 2 ^ (32 * k)) % 2 ^ (32 * acc.length) := by
  simp only [accumulate]
  split
  · rename_i h
    rw [limbsVal_addLimbs (by simp), limbsVal_seedLimbs h]
  · rename_i h
    obtain ⟨d, hd⟩ : ∃ d, k = acc.length + d := ⟨k - acc.length, by omega⟩
    rw [hd, show 32 * (acc.length + d) = 32 * acc.length + 32 * d by ring, pow_add,
      show lo.toNat * (2 ^ (32 * acc.length) * 2 ^ (32 * d)) = 2 ^ (32 * acc.length) * (lo.toNat * 2 ^ (32 * d)) by ring,
      Nat.add_mul_mod_self_left, Nat.mod_eq_of_lt (limbsVal_lt acc)]

theorem mulRow_regroup {v lo hi p rest si t c : Nat} (h : lo + 2 ^ 32 * hi = t * si + c) :
    v + lo * p + (rest * si + hi) * (p * 2 ^ 32) = v + ((t + 2 ^ 32 * rest) * si + c) * p := by
  linear_combination p * h

@[simp] theorem length_mulRow (si : Word) (t : List Word) : ∀ (k : Nat) (c : Word) (acc : List Word),
    (mulRow si t k c acc).length = acc.length := by
  induction t with
  | nil => intro k c acc; rfl
  | cons t ts ih => intro k c acc; simp [mulRow, ih]

/-- A row adds the target times one source limb, at the row's offset, modulo the accumulator's width; the last carry is
dropped, so the row must reach the accumulator's top (R232). -/
theorem limbsVal_mulRow (si : Word) (t : List Word) : ∀ (k : Nat) (c : Word) (acc : List Word), acc.length ≤ k + t.length →
    limbsVal (mulRow si t k c acc) =
      (limbsVal acc + (posVal t * si.toNat + c.toNat) * 2 ^ (32 * k)) % 2 ^ (32 * acc.length) := by
  induction t with
  | nil =>
    intro k c acc h
    obtain ⟨d, hd⟩ : ∃ d, k = acc.length + d := ⟨k - acc.length, by simp at h; omega⟩
    rw [hd, show 32 * (acc.length + d) = 32 * acc.length + 32 * d by ring, pow_add]
    simp only [mulRow, posVal, Nat.zero_mul, Nat.zero_add]
    rw [show c.toNat * (2 ^ (32 * acc.length) * 2 ^ (32 * d)) = 2 ^ (32 * acc.length) * (c.toNat * 2 ^ (32 * d)) by ring,
      Nat.add_mul_mod_self_left, Nat.mod_eq_of_lt (limbsVal_lt acc)]
  | cons t ts ih =>
    intro k c acc h
    have hl := lmul_spec t si c
    simp only [mulRow, posVal]
    rw [ih _ _ _ (by simp at h ⊢; omega), limbsVal_accumulate, length_accumulate, Nat.mod_add_mod,
      show 32 * (k + 1) = 32 * k + 32 by ring, pow_add, mulRow_regroup hl]

@[simp] theorem length_mulRows (t s : List Word) : ∀ acc : List Word, (mulRows t s acc).length = acc.length := by
  induction s with
  | nil => intro acc; rfl
  | cons si ss ih => intro acc; simp [mulRows, ih]

theorem limbsVal_mulRows (t s : List Word) : ∀ acc : List Word, acc.length = t.length →
    limbsVal (mulRows t s acc) = (limbsVal acc + limbsVal t * limbsVal s) % 2 ^ (32 * t.length) := by
  induction s with
  | nil =>
    intro acc h
    simp only [mulRows, limbsVal, Nat.mul_zero, Nat.add_zero]
    rw [← h, Nat.mod_eq_of_lt (limbsVal_lt acc)]
  | cons si ss ih =>
    intro acc h
    simp only [mulRows, limbsVal]
    rw [ih _ (by simp [h]), limbsVal_mulRow _ _ _ _ _ (by simp; omega), posVal_reverse, h, Nat.mod_add_mod]
    congr 1
    simp; ring

@[simp] theorem length_mulLimbs (t s : List Word) : (mulLimbs t s).length = t.length := by simp [mulLimbs]

/-! ### Divider -/

/-- `DSTEP` (R250) as arithmetic, for a quotient with no bit set at or below the position. -/
theorem dstep_spec {rem q bit b d : Nat} (hbit : bit ≤ 1) (hq : q % 2 ^ (b + 1) = 0) :
    dstep rem q bit b d =
      if d ≤ 2 * rem + bit then (2 * rem + bit - d, q + 2 ^ b) else (2 * rem + bit, q) := by
  have e1 : (rem <<< 1) ||| bit = 2 * rem + bit := by
    rw [← Nat.shiftLeft_add_eq_or_of_lt (by omega : bit < 2 ^ 1), Nat.shiftLeft_eq]; ring
  have e2 : q ||| (1 <<< b) = q + 2 ^ b := by
    obtain ⟨c, rfl⟩ := Nat.dvd_of_mod_eq_zero hq
    rw [Nat.one_shiftLeft, show 2 ^ (b + 1) * c = c <<< (b + 1) by rw [Nat.shiftLeft_eq]; ring,
      ← Nat.shiftLeft_add_eq_or_of_lt (Nat.pow_lt_pow_right (by omega) (by omega))]
  simp only [dstep, e1, e2]

theorem divWalk_spec {n d : Nat} (hd : 0 < d) : ∀ (b rem q : Nat), rem < d → q % 2 ^ b = 0 →
    n / 2 ^ b = (q / 2 ^ b) * d + rem → divWalk n d b rem q = (n / d, n % d) := by
  intro b
  induction b with
  | zero =>
    intro rem q hr _ he
    simp only [Nat.pow_zero, Nat.div_one] at he
    have := Nat.div_mod_unique hd (a := n) (d := q) (c := rem)
    simp only [divWalk]
    obtain ⟨h1, h2⟩ := this.mpr ⟨by rw [he]; ring, hr⟩
    rw [h1, h2]
  | succ b ih =>
    intro rem q hr hq he
    have hbit : (n >>> b) &&& 1 ≤ 1 := Nat.and_le_right
    have hn : n / 2 ^ b = 2 * (n / 2 ^ (b + 1)) + ((n >>> b) &&& 1) := by
      rw [Nat.and_one_is_mod, Nat.shiftRight_eq_div_pow, pow_succ, ← Nat.div_div_eq_div_mul]; omega
    obtain ⟨c, rfl⟩ := Nat.dvd_of_mod_eq_zero hq
    have hp : 2 ^ (b + 1) * c / 2 ^ (b + 1) = c := Nat.mul_div_cancel_left _ (by positivity)
    rw [hp] at he
    simp only [divWalk, dstep_spec hbit hq]
    split
    · rename_i hle
      refine ih _ _ (by simp only; omega) ?_ ?_
      · simp only [pow_succ]; rw [Nat.mul_assoc, Nat.mul_add_mod, Nat.mod_self]
      · have : (2 ^ (b + 1) * c + 2 ^ b) / 2 ^ b = 2 * c + 1 := by
          rw [show 2 ^ (b + 1) * c + 2 ^ b = 2 ^ b * (2 * c + 1) by rw [pow_succ]; ring]
          exact Nat.mul_div_cancel_left _ (by positivity)
        simp only [this]
        rw [hn, he]
        zify [hle]
        ring
    · rename_i hle
      refine ih _ _ (by simp only; omega) ?_ ?_
      · simp only [pow_succ]; rw [Nat.mul_assoc]; exact Nat.mul_mod_right _ _
      · have : (2 ^ (b + 1) * c) / 2 ^ b = 2 * c := by
          rw [show 2 ^ (b + 1) * c = 2 ^ b * (2 * c) by rw [pow_succ]; ring]
          exact Nat.mul_div_cancel_left _ (by positivity)
        simp only [this]
        rw [hn, he]; ring

/-! ### Byte reversal -/

@[simp] theorem length_brev (b : List Byte) : (brev b).length = b.length := List.length_reverse

theorem length_bswap : ∀ b : List Byte, (bswap b).length = b.length
  | [] => rfl
  | [_] => rfl
  | [_, _] => rfl
  | [_, _, _] => rfl
  | b0 :: b1 :: b2 :: b3 :: rest => by simp [bswap, length_bswap rest]; omega

end Sys2Proof.Machine
end

