-- ==== Sys2Proof/Laws/Memory.lean ====
section
/-! SUPPORT. What the memory operations do: one lemma each says all of it, and later proofs cite it. -/

namespace Sys2Proof.Machine

/-! ### The list of written bytes -/

theorem Memory.byte?_put (m : Memory) (a x : Nat) (v : Byte) :
    (Memory.put m a v).byte? x = if x = a then some v else Memory.byte? m x := by
  induction m with
  | nil => simp [Memory.put, Memory.byte?, eq_comm]
  | cons c m ih =>
    simp only [Memory.put]
    split
    · simp [Memory.byte?, eq_comm]
    · split
      · simp only [Memory.byte?]; split <;> simp_all [eq_comm]
      · simp only [Memory.byte?, ih]; split <;> simp_all [eq_comm]

theorem Memory.mem_put {m : Memory} {a : Nat} {v : Byte} {c : Host.Cell} (h : c ∈ Memory.put m a v) :
    c = (a, v) ∨ c ∈ m := by
  induction m with
  | nil => simpa [Memory.put] using h
  | cons d m ih =>
    simp only [Memory.put] at h
    split at h
    · simpa using h
    · split at h
      · simp only [List.mem_cons] at h ⊢; tauto
      · simp only [List.mem_cons] at h ⊢; tauto

/-- A write keeps the canonical form. -/
theorem Memory.wf_put {m : Memory} (h : Memory.wf m) (a : Nat) (v : Byte) : Memory.wf (Memory.put m a v) := by
  induction m with
  | nil => simp [Memory.put, Memory.wf]
  | cons c m ih =>
    obtain ⟨hc, hm⟩ := List.pairwise_cons.mp h
    simp only [Memory.put]
    split
    · rename_i hlt
      refine List.pairwise_cons.mpr ⟨fun d hd => ?_, h⟩
      rcases List.mem_cons.mp hd with rfl | hd
      · exact hlt
      · exact hlt.trans (hc d hd)
    · split
      · rename_i heq
        exact List.pairwise_cons.mpr ⟨fun d hd => by rw [heq]; exact hc d hd, hm⟩
      · rename_i hlt hne
        refine List.pairwise_cons.mpr ⟨fun d hd => ?_, ih hm⟩
        rcases Memory.mem_put hd with rfl | hd
        · simp only; omega
        · exact hc d hd

theorem Memory.wf_putBytes (bs : List Byte) : ∀ {m : Memory} (a : Nat), Memory.wf m → Memory.wf (Memory.putBytes m a bs) := by
  induction bs with
  | nil => exact fun _ h => h
  | cons b bs ih => exact fun a h => ih (a + 1) (Memory.wf_put h a b)

/-- A write lists no address outside what it writes. -/
theorem Memory.below_putBytes (bs : List Byte) {n : Nat} :
    ∀ {m : Memory} (a : Nat), a + bs.length ≤ n → (∀ c ∈ m, c.1 < n) → ∀ c ∈ Memory.putBytes m a bs, c.1 < n := by
  induction bs with
  | nil => exact fun _ _ h => h
  | cons b bs ih =>
    intro m a hn h
    simp only [List.length_cons] at hn
    refine ih (a + 1) (by omega) fun c hc => ?_
    rcases Memory.mem_put hc with rfl | hc
    · simp only; omega
    · exact h c hc

theorem Memory.byte?_putBytes (bs : List Byte) : ∀ (m : Memory) (a x : Nat),
    (Memory.putBytes m a bs).byte? x = if a ≤ x ∧ x < a + bs.length then bs[x - a]? else Memory.byte? m x := by
  induction bs with
  | nil => intro m a x; simp [Memory.putBytes]
  | cons b bs ih =>
    intro m a x
    rw [Memory.putBytes, ih, Memory.byte?_put]
    simp only [List.length_cons]
    by_cases hx : x = a
    · subst hx; simp
    · by_cases h : a + 1 ≤ x ∧ x < a + 1 + bs.length
      · rw [if_pos h, if_pos (by omega), show x - a = (x - (a + 1)) + 1 by omega, List.getElem?_cons_succ]
      · rw [if_neg h, if_neg hx, if_neg (by omega)]

/-! ### Bytes of a state -/

/-- A read after a write: the byte written, or what was there (R73, R77). -/
theorem State.byteAt_putBytes (s : State) (a x : Nat) (bs : List Byte) :
    (s.putBytes a bs).byteAt x = if a ≤ x ∧ x < a + bs.length then bs.getD (x - a) 0 else s.byteAt x := by
  simp only [State.byteAt, State.putBytes, Memory.byte?_putBytes, State.unwrittenByte]
  split
  · rename_i h
    rw [List.getElem?_eq_getElem (by omega), List.getD_eq_getElem _ _ (by omega), Option.getD_some]
  · rfl

theorem State.byteAt_putBytes_of_lt {bs : List Byte} {i : Nat} (h : i < bs.length) (s : State) (a : Nat) :
    (s.putBytes a bs).byteAt (a + i) = bs[i] := by
  rw [State.byteAt_putBytes, if_pos (by omega), Nat.add_sub_cancel_left, List.getD_eq_getElem _ _ h]

theorem State.byteAt_putBytes_outside (s : State) {a x : Nat} {bs : List Byte} (h : ¬(a ≤ x ∧ x < a + bs.length)) :
    (s.putBytes a bs).byteAt x = s.byteAt x := by
  rw [State.byteAt_putBytes, if_neg h]

@[simp] theorem State.length_bytesAt (s : State) (n : Nat) : ∀ a, (s.bytesAt a n).length = n := by
  induction n with
  | zero => exact fun _ => rfl
  | succ n ih => exact fun a => by simp [State.bytesAt, ih]

theorem State.getElem_bytesAt (s : State) (n : Nat) : ∀ (a i : Nat) (h : i < (s.bytesAt a n).length),
    (s.bytesAt a n)[i] = s.byteAt (a + i) := by
  induction n with
  | zero => intro a i h; simp [State.bytesAt] at h
  | succ n ih =>
    intro a i h
    cases i with
    | zero => simp [State.bytesAt]
    | succ i => simp only [State.bytesAt, List.getElem_cons_succ, ih]; congr 1; omega

theorem State.bytesAt_congr {s t : State} (n : Nat) : ∀ a, (∀ i < n, s.byteAt (a + i) = t.byteAt (a + i)) →
    s.bytesAt a n = t.bytesAt a n := by
  induction n with
  | zero => exact fun _ _ => rfl
  | succ n ih =>
    intro a h
    simp only [State.bytesAt, List.cons.injEq]
    refine ⟨by simpa using h 0 (by omega), ih (a + 1) fun i hi => ?_⟩
    have := h (i + 1) (by omega)
    rwa [show a + (i + 1) = a + 1 + i by omega] at this

/-! ### Limbs of a state -/

@[simp] theorem State.length_limbsAt (s : State) (base n : Nat) : (s.limbsAt base n).length = n := by
  simp [State.limbsAt]

@[simp] theorem State.getElem_limbsAt (s : State) (base n k : Nat) (h : k < (s.limbsAt base n).length) :
    (s.limbsAt base n)[k] = s.limbAt base k := by
  simp [State.limbsAt]

theorem State.limbAt_congr {s t : State} {base k : Nat}
    (h : ∀ i < 4, s.byteAt (base + 4 * k + i) = t.byteAt (base + 4 * k + i)) : s.limbAt base k = t.limbAt base k := by
  have h0 := h 0 (by omega); have h1 := h 1 (by omega); have h2 := h 2 (by omega); have h3 := h 3 (by omega)
  simp only [State.limbAt, Nat.add_zero] at *
  rw [h0, h1, h2, h3]

theorem State.limbsAt_congr {s t : State} {base n : Nat} (h : ∀ i < 4 * n, s.byteAt (base + i) = t.byteAt (base + i)) :
    s.limbsAt base n = t.limbsAt base n := by
  simp only [State.limbsAt]
  refine List.map_congr_left fun k hk => State.limbAt_congr fun i hi => ?_
  have hk' := List.mem_range.mp hk
  have := h (4 * k + i) (by omega)
  rwa [← Nat.add_assoc] at this

@[simp] theorem length_leBytes (v : Word) : (leBytes v).length = 4 := rfl

@[simp] theorem length_bytesOfLimbs (ls : List Word) : (bytesOfLimbs ls).length = 4 * ls.length := by
  induction ls with
  | nil => rfl
  | cons l ls ih => simp only [bytesOfLimbs, List.flatMap_cons, List.length_append] at ih ⊢; simp [ih]; omega

/-- Byte `i` of limb `k` stands at place `4k + i` of a limb buffer (R63). -/
theorem getD_bytesOfLimbs (ls : List Word) : ∀ (k i : Nat) (hk : k < ls.length), i < 4 →
    (bytesOfLimbs ls).getD (4 * k + i) 0 = (leBytes ls[k]).getD i 0 := by
  induction ls with
  | nil => intro k i hk; simp at hk
  | cons l ls ih =>
    intro k i hk hi
    simp only [bytesOfLimbs, List.flatMap_cons] at ih ⊢
    cases k with
    | zero => rw [List.getD_append _ _ _ _ (by simpa using hi)]; simp
    | succ k =>
      rw [List.getD_append_right _ _ _ _ (by simp; omega), length_leBytes,
        show 4 * (k + 1) + i - 4 = 4 * k + i by omega]
      simpa using ih k i (by simpa using hk) hi

/-- A limb read back from the bytes it was written as (R64). -/
theorem limbOfBytes_leBytes (v : Word) :
    limbOfBytes ((leBytes v).getD 0 0) ((leBytes v).getD 1 0) ((leBytes v).getD 2 0) ((leBytes v).getD 3 0) = v := by
  apply BitVec.eq_of_toNat_eq
  have hv := v.isLt
  simp [limbOfBytes, leBytes, Nat.shiftRight_eq_div_pow]
  omega

/-- Limbs written to a buffer are the limbs read back (R64, R67). -/
theorem State.limbAt_putLimbs (s : State) (base : Nat) (ls : List Word) (k : Nat) (hk : k < ls.length) :
    (s.putBytes base (bytesOfLimbs ls)).limbAt base k = ls[k] := by
  have key : ∀ i, i < 4 → (s.putBytes base (bytesOfLimbs ls)).byteAt (base + 4 * k + i) = (leBytes ls[k]).getD i 0 := by
    intro i hi
    rw [State.byteAt_putBytes, if_pos (by simp; omega), ← getD_bytesOfLimbs ls k i hk hi]
    congr 1; omega
  have h0 := key 0 (by omega); have h1 := key 1 (by omega); have h2 := key 2 (by omega); have h3 := key 3 (by omega)
  simp only [Nat.add_zero] at h0
  rw [State.limbAt, h0, h1, h2, h3, limbOfBytes_leBytes]

theorem State.limbsAt_putLimbs (s : State) (base : Nat) (ls : List Word) :
    (s.putBytes base (bytesOfLimbs ls)).limbsAt base ls.length = ls := by
  refine List.ext_getElem (by simp) fun k h1 h2 => ?_
  rw [State.getElem_limbsAt, State.limbAt_putLimbs _ _ _ _ h2]

/-! ### What a write leaves alone in the state -/

@[simp] theorem State.putBytes_cfg (s : State) (a : Nat) (bs : List Byte) : (s.putBytes a bs).cfg = s.cfg := rfl
@[simp] theorem State.putBytes_args (s : State) (a : Nat) (bs : List Byte) : (s.putBytes a bs).args = s.args := rfl
@[simp] theorem State.putBytes_cmd (s : State) (a : Nat) (bs : List Byte) : (s.putBytes a bs).cmd = s.cmd := rfl
@[simp] theorem State.putBytes_status (s : State) (a : Nat) (bs : List Byte) : (s.putBytes a bs).status = s.status := rfl
@[simp] theorem State.putBytes_mem (s : State) (a : Nat) (bs : List Byte) :
    (s.putBytes a bs).mem = s.mem.putBytes a bs := rfl
@[simp] theorem State.putBytes_resets (s : State) (a : Nat) (bs : List Byte) : (s.putBytes a bs).resets = s.resets := rfl
@[simp] theorem State.putBytes_abandons (s : State) (a : Nat) (bs : List Byte) :
    (s.putBytes a bs).abandons = s.abandons := rfl
@[simp] theorem State.putBytes_pending (s : State) (a : Nat) (bs : List Byte) : (s.putBytes a bs).pending = s.pending := rfl
@[simp] theorem State.putBytes_response (s : State) (a : Nat) (bs : List Byte) :
    (s.putBytes a bs).response = s.response := rfl

/-! ### The engine's guarded accesses -/

theorem State.memRead_ok {s : State} {a n : Nat} (h : a + n ≤ s.cfg.memBytes) : s.memRead a n = .ok (s.bytesAt a n) :=
  if_pos h

theorem State.memWrite_ok {s : State} {a : Nat} {bs : List Byte} (h : a + bs.length ≤ s.cfg.memBytes) :
    s.memWrite a bs = .ok (s.putBytes a bs) := if_pos h

theorem State.readLimbs_ok {s : State} {base bits : Word} (h : base.toNat + byteCount bits ≤ s.cfg.memBytes) :
    s.readLimbs base bits = .ok (s.limbsAt base.toNat (limbCount bits)) := if_pos h

theorem State.writeLimbs_ok {s : State} {base : Word} {ls : List Word} (h : base.toNat + 4 * ls.length ≤ s.cfg.memBytes) :
    s.writeLimbs base ls = .ok (s.putBytes base.toNat (bytesOfLimbs ls)) :=
  State.memWrite_ok (by simpa using h)

end Sys2Proof.Machine
end

