-- ==== Sys2Proof/Laws/State.lean ====
section
/-! SUPPORT. What each named update of the state changes, one lemma per field per update, so that no later proof unfolds
a record update. (`State.putBytes` has its own in Laws/Memory.lean.) -/

namespace Sys2Proof.Machine

/-! ### Rejection and acceptance (R281, R31) -/

@[simp] theorem State.reject_cfg (s : State) (e : CmdError) : (s.reject e).cfg = s.cfg := rfl
@[simp] theorem State.reject_args (s : State) (e : CmdError) : (s.reject e).args = s.args := rfl
@[simp] theorem State.reject_cmd (s : State) (e : CmdError) : (s.reject e).cmd = s.cmd := rfl
@[simp] theorem State.reject_status (s : State) (e : CmdError) : (s.reject e).status = s.status.afterReject e := rfl
@[simp] theorem State.reject_mem (s : State) (e : CmdError) : (s.reject e).mem = s.mem := rfl
@[simp] theorem State.reject_resets (s : State) (e : CmdError) : (s.reject e).resets = s.resets := rfl
@[simp] theorem State.reject_abandons (s : State) (e : CmdError) : (s.reject e).abandons = s.abandons := rfl
@[simp] theorem State.reject_pending (s : State) (e : CmdError) : (s.reject e).pending = s.pending := rfl
@[simp] theorem State.reject_response (s : State) (e : CmdError) : (s.reject e).response = s.response := rfl
@[simp] theorem State.reject_byteAt (s : State) (e : CmdError) (a : Nat) : (s.reject e).byteAt a = s.byteAt a := rfl

@[simp] theorem State.accept_cfg (s : State) (w : Bool) : (s.accept w).cfg = s.cfg := rfl
@[simp] theorem State.accept_args (s : State) (w : Bool) : (s.accept w).args = s.args := rfl
@[simp] theorem State.accept_cmd (s : State) (w : Bool) : (s.accept w).cmd = s.cmd := rfl
@[simp] theorem State.accept_status (s : State) (w : Bool) : (s.accept w).status = s.status.afterAccept w := rfl
@[simp] theorem State.accept_mem (s : State) (w : Bool) : (s.accept w).mem = s.mem := rfl
@[simp] theorem State.accept_resets (s : State) (w : Bool) : (s.accept w).resets = s.resets := rfl
@[simp] theorem State.accept_abandons (s : State) (w : Bool) : (s.accept w).abandons = s.abandons := rfl
@[simp] theorem State.accept_pending (s : State) (w : Bool) : (s.accept w).pending = s.pending := rfl
@[simp] theorem State.accept_response (s : State) (w : Bool) : (s.accept w).response = s.response := rfl
@[simp] theorem State.accept_byteAt (s : State) (w : Bool) (a : Nat) : (s.accept w).byteAt a = s.byteAt a := rfl
@[simp] theorem State.accept_limbAt (s : State) (w : Bool) (b k : Nat) : (s.accept w).limbAt b k = s.limbAt b k := rfl
@[simp] theorem State.accept_limbsAt (s : State) (w : Bool) (b n : Nat) : (s.accept w).limbsAt b n = s.limbsAt b n := rfl
@[simp] theorem State.accept_valAt (s : State) (w : Bool) (b n : Word) : (s.accept w).valAt b n = s.valAt b n := rfl

/-! ### `STATUS` (R26, R32, R281) -/

@[simp] theorem Status.afterReject_err (st : Status) (e : CmdError) : (st.afterReject e).err = e.code := rfl
@[simp] theorem Status.afterReject_wrap (st : Status) (e : CmdError) : (st.afterReject e).wrap = false := rfl
@[simp] theorem Status.afterReject_sticky (st : Status) (e : CmdError) : (st.afterReject e).sticky = true := rfl
@[simp] theorem Status.afterAccept_err (st : Status) (w : Bool) : (st.afterAccept w).err = 0 := rfl
@[simp] theorem Status.afterAccept_wrap (st : Status) (w : Bool) : (st.afterAccept w).wrap = w := rfl
@[simp] theorem Status.afterAccept_sticky (st : Status) (w : Bool) : (st.afterAccept w).sticky = st.sticky := rfl
@[simp] theorem Status.hostWrite_err (st : Status) (v : Word) : (st.hostWrite v).err = st.err := by
  simp only [Status.hostWrite]; split <;> rfl
@[simp] theorem Status.hostWrite_wrap (st : Status) (v : Word) : (st.hostWrite v).wrap = st.wrap := by
  simp only [Status.hostWrite]; split <;> rfl
theorem Status.hostWrite_sticky (st : Status) (v : Word) :
    (st.hostWrite v).sticky = (st.sticky && !v.getLsbD 9) := by
  simp only [Status.hostWrite]; split <;> simp_all

/-- Every error has a code of R280, and none has the code of acceptance. -/
theorem CmdError.code_ne_zero (e : CmdError) : e.code ≠ 0 := by cases e <;> decide
theorem CmdError.code_le (e : CmdError) : e.code.toNat ≤ 10 := by cases e <;> decide

/-! ### Argument registers (R20, R22, R23) -/

@[simp] theorem Args.get_set (x : Args) (r r' : ArgReg) (v : Word) :
    (x.set r v).get r' = if r' = r then v else x.get r' := by
  cases r <;> cases r' <;> rfl

@[simp] theorem Args.get_reset (r : ArgReg) : Args.reset.get r = 0 := by cases r <;> rfl

/-- The map of R30 has each argument register at its offset. -/
@[simp] theorem portReg_offset (r : ArgReg) : portReg r.offset = .arg r := by cases r <;> rfl

/-! ### Reset (R320) -/

@[simp] theorem State.resetRegisters_cfg (s : State) : s.resetRegisters.cfg = s.cfg := rfl
@[simp] theorem State.resetRegisters_args (s : State) : s.resetRegisters.args = Args.reset := rfl
@[simp] theorem State.resetRegisters_cmd (s : State) : s.resetRegisters.cmd = 0 := rfl
@[simp] theorem State.resetRegisters_status (s : State) : s.resetRegisters.status = Status.reset := rfl
@[simp] theorem State.resetRegisters_mem (s : State) : s.resetRegisters.mem = s.mem := rfl
@[simp] theorem State.resetRegisters_resets (s : State) : s.resetRegisters.resets = s.resets := rfl
@[simp] theorem State.resetRegisters_abandons (s : State) : s.resetRegisters.abandons = s.abandons := rfl
@[simp] theorem State.resetRegisters_pending (s : State) : s.resetRegisters.pending = s.pending := rfl
@[simp] theorem State.resetRegisters_response (s : State) : s.resetRegisters.response = .idle := rfl
@[simp] theorem State.resetRegisters_byteAt (s : State) (a : Nat) : s.resetRegisters.byteAt a = s.byteAt a := rfl

end Sys2Proof.Machine
end

