-- ==== Sys2Proof/Laws/Issue.lean ====
section
/-! SUPPORT. Validation and the frame of a command: `validate` passes a command exactly where its rule accepts it, and
what `issue` answers. -/

namespace Sys2Proof.Machine

open Sys2Proof.Safety

/-! ### `issue` -/

/-- A command that fails validation is rejected. -/
theorem issue_invalid {i : Instr} {s : State} {e : CmdError} (h : validate i s = some e)
    (body : Except Stop (State × Bool)) : issue i s body = .next (s.reject e) := by
  simp [issue, h]

/-- A command that passes runs its body. -/
theorem issue_valid {i : Instr} {s : State} (h : validate i s = none) (r : State × Bool) :
    issue i s (.ok r) = .next (r.1.accept r.2) := by
  simp [issue, h]

theorem issue_raise {i : Instr} {s : State} (h : validate i s = none) (e : CmdError) :
    issue i s (.error (.reject e)) = .next (s.reject e) := by
  simp [issue, h]

/-! ### What `validate` looks at -/

theorem badBits_eq_false {c : Config} {b : Word} : badBits c b = false ↔ GoodBits c b := by
  simp only [badBits, GoodBits, Bool.or_eq_false_iff, decide_eq_false_iff_not]; omega

theorem badBits_eq_true {c : Config} {b : Word} : badBits c b = true ↔ ¬GoodBits c b := by
  rw [← badBits_eq_false]; simp

/-- The checks of R282 that a command which passes has passed. -/
theorem validate_none {i : Instr} {s : State} (h : validate i s = none) :
    i.signed = false ∧ ((uses i .tbits && badBits s.cfg s.args.tbits) || (uses i .sbits && badBits s.cfg s.args.sbits)) = false ∧
      (buffers i s.args).any (Buffer.outside s.cfg) = false ∧ allCompatible (buffers i s.args) = true := by
  unfold validate at h
  repeat' split at h
  all_goals simp_all

theorem inside_of_validate {i : Instr} {s : State} (h : validate i s = none) :
    ∀ b ∈ buffers i s.args, b.base + b.len ≤ s.cfg.memBytes := by
  have := (validate_none h).2.2.1
  simpa [Buffer.outside] using this

theorem good_tbits_of_validate {i : Instr} {s : State} (h : validate i s = none) (hu : uses i .tbits = true) :
    GoodBits s.cfg s.args.tbits := by
  have := (validate_none h).2.1
  rw [hu] at this
  simp only [Bool.true_and, Bool.or_eq_false_iff] at this
  exact badBits_eq_false.mp this.1

theorem good_sbits_of_validate {i : Instr} {s : State} (h : validate i s = none) (hu : uses i .sbits = true) :
    GoodBits s.cfg s.args.sbits := by
  have := (validate_none h).2.1
  rw [hu] at this
  simp only [Bool.true_and, Bool.or_eq_false_iff] at this
  exact badBits_eq_false.mp this.2

/-- A good bit-size has four bytes for each limb (R62, R65). -/
theorem four_limbCount {c : Config} {b : Word} (h : GoodBits c b) : 4 * limbCount b = byteCount b := by
  simp only [limbCount, byteCount]; omega

theorem bits_limbCount {c : Config} {b : Word} (h : GoodBits c b) : 32 * limbCount b = b.toNat := by
  simp only [limbCount]; omega

/-! ### `validate` accepts exactly what the rules accept -/

/-- A check that passes leaves the rest to be passed. -/
theorem check_none {p : Prop} [Decidable p] {e : CmdError} {x : Option CmdError} :
    (if p then some e else x) = none ↔ ¬p ∧ x = none := by
  split <;> simp_all

/-- The pairs R72 allows, as a proposition. -/
theorem compatible_iff {a b : Buffer} : a.compatible b = true ↔
    (a.writes = false ∧ b.writes = false) ∨ Apart a.base a.len b.base b.len ∨
      ((a.base = b.base ∧ a.len = b.len) ∧ (a.writes = false ∨ b.writes = false)) := by
  simp [Buffer.compatible, Buffer.disjoint, Buffer.identical]; tauto

theorem misaligned_eq_false {b : Buffer} : b.misaligned = false ↔ (b.limb = true → b.base % 4 = 0) := by
  cases h : b.limb <;> simp [Buffer.misaligned, h]

theorem outside_eq_false {c : Config} {b : Buffer} : b.outside c = false ↔ b.base + b.len ≤ c.memBytes := by
  simp [Buffer.outside]

/-- What it takes to pass checks 2 to 9 of R282. -/
theorem validate_eq_none {i : Instr} {s : State} : validate i s = none ↔
    i.signed = false ∧ (uses i .tbits = true → GoodBits s.cfg s.args.tbits) ∧
      (uses i .sbits = true → GoodBits s.cfg s.args.sbits) ∧ (uses i .len = true → s.args.len.toNat % 2 = 0) ∧
      (uses i .sbits = true → s.args.sbits.toNat ≤ s.args.tbits.toNat) ∧
      (∀ offs, limbOffset i = some offs → offs < limbCount s.args.tbits) ∧
      (∀ b ∈ buffers i s.args, b.limb = true → b.base % 4 = 0) ∧
      (∀ b ∈ buffers i s.args, b.base + b.len ≤ s.cfg.memBytes) ∧ allCompatible (buffers i s.args) = true := by
  simp only [validate, check_none, Bool.or_eq_true, Bool.and_eq_true, decide_eq_true_eq, badBits_eq_true, List.any_eq_true,
    Bool.not_eq_true', and_true, not_exists, not_and, not_or, Bool.not_eq_true, Option.any_eq_true_iff_get,
    misaligned_eq_false, outside_eq_false, Bool.not_eq_false, not_lt, not_le]
  cases limbOffset i <;> cases uses i .len <;> cases uses i .sbits <;> simp <;> tauto

theorem validate_rev (s : State) : validate (.rev false) s = none ↔ RevReady s := by
  simp [validate_eq_none, Instr.signed, uses, registersRead, limbOffset, buffers, byteBuffer, allCompatible]

theorem validate_revc (s : State) : validate (.revc false) s = none ↔ RevcReady s := by
  simp [validate_eq_none, Instr.signed, uses, registersRead, limbOffset, buffers, byteBuffer, compatible_iff, allCompatible]
  tauto

theorem validate_bswp (s : State) : validate (.bswp false) s = none ↔ TargetReady s := by
  simp [validate_eq_none, Instr.signed, uses, registersRead, limbOffset, buffers, limbBuffer, byteCount, allCompatible]

theorem validate_zero (s : State) : validate (.zero false) s = none ↔ TargetReady s := by
  simp [validate_eq_none, Instr.signed, uses, registersRead, limbOffset, buffers, limbBuffer, byteCount, allCompatible]

theorem validate_setw (offs : Nat) (s : State) : validate (.setw false offs) s = none ↔ SetwReady offs s := by
  simp [validate_eq_none, Instr.signed, uses, registersRead, limbOffset, buffers, limbBuffer, byteCount, limbCount, allCompatible]
  tauto

theorem validate_copy (s : State) : validate (.copy false) s = none ↔ PairReady s := by
  simp [validate_eq_none, Instr.signed, uses, registersRead, limbOffset, buffers, limbBuffer, byteCount, compatible_iff, allCompatible]
  tauto

theorem validate_add (s : State) : validate (.add false) s = none ↔ PairReady s := by
  simp [validate_eq_none, Instr.signed, uses, registersRead, limbOffset, buffers, limbBuffer, byteCount, compatible_iff, allCompatible]
  tauto

theorem validate_sub (s : State) : validate (.sub false) s = none ↔ PairReady s := by
  simp [validate_eq_none, Instr.signed, uses, registersRead, limbOffset, buffers, limbBuffer, byteCount, compatible_iff, allCompatible]
  tauto

theorem validate_mul (s : State) : validate (.mul false) s = none ↔ PairReady s := by
  simp [validate_eq_none, Instr.signed, uses, registersRead, limbOffset, buffers, limbBuffer, byteCount, compatible_iff, allCompatible]
  tauto

theorem validate_div (s : State) : validate (.div false) s = none ↔ DivOperands s := by
  simp [validate_eq_none, Instr.signed, uses, registersRead, limbOffset, buffers, limbBuffer, byteCount, compatible_iff, allCompatible]
  constructor
  · rintro ⟨a, b, c, ⟨d, e, f⟩, ⟨g, h, i⟩, j, k⟩
    exact ⟨⟨a, b, c⟩, d, e, f, g, h, i, by simp only [SameOrDisjoint, Apart, tBytes, and_true]; omega, k.symm⟩
  · rintro ⟨⟨a, b, c⟩, d, e, f, g, h, i, j, k⟩
    exact ⟨a, b, c, ⟨d, e, f⟩, ⟨g, h, i⟩, by simp only [SameOrDisjoint, Apart, tBytes, and_true] at j; omega, k.symm⟩

theorem validate_divr (s : State) : validate (.divr false) s = none ↔ DivrOperands s := by
  simp [validate_eq_none, Instr.signed, uses, registersRead, limbOffset, buffers, limbBuffer, byteCount, compatible_iff, allCompatible]
  constructor
  · rintro ⟨a, b, c, ⟨d, e, f, f'⟩, ⟨g, h, i, i'⟩, ⟨j, k⟩, ⟨l, m⟩, n⟩
    exact ⟨⟨⟨a, b, c⟩, d, e, f, g, h, i, by simp only [SameOrDisjoint, Apart, tBytes, and_true]; omega, l.symm⟩, f', i', k.symm,
      by simp only [SameOrDisjoint, Apart, sBytes, and_true]; omega, n⟩
  · rintro ⟨⟨⟨a, b, c⟩, d, e, f, g, h, i, j, l⟩, f', i', k, m, n⟩
    exact ⟨a, b, c, ⟨d, e, f, f'⟩, ⟨g, h, i, i'⟩, ⟨by simp only [SameOrDisjoint, Apart, tBytes, and_true] at j; omega, k.symm⟩,
      ⟨l.symm, by simp only [SameOrDisjoint, Apart, sBytes, and_true] at m; omega⟩, n⟩

/-- A command with `S` = 1 fails check 2 whatever the registers hold (R106, R284). -/
theorem validate_signed {i : Instr} (h : i.signed = true) (s : State) : validate i s = some .signedUnsupported := by
  simp [validate, h]

end Sys2Proof.Machine
end

