-- ==== Sys2Proof/Laws/Exec.lean ====
section
/-! SUPPORT. What each command answers: one equation per command where its rule accepts it, and one lemma that says
everything a command can do. -/

namespace Sys2Proof.Machine

open Sys2Proof.Safety

/-- What the engine writes: byte strings at addresses, in order. -/
def State.putAll (s : State) : List (Nat × List Byte) → State
  | [] => s
  | p :: ps => (s.putBytes p.1 p.2).putAll ps

/-! ### Where a command is accepted -/

theorem execRev_ready {s : State} (h : RevReady s) : exec (.rev false) s =
    .next ((s.putBytes s.args.taddr.toNat (brev (s.bytesAt s.args.taddr.toNat s.args.len.toNat))).accept false) := by
  rw [exec, execRev, State.memRead_ok h.2]
  simp only [bind, Except.bind]
  rw [State.memWrite_ok (by simpa using h.2)]
  exact issue_valid ((validate_rev s).mpr h) _

theorem execRevc_ready {s : State} (h : RevcReady s) : exec (.revc false) s =
    .next ((s.putBytes s.args.taddr.toNat (brev (s.bytesAt s.args.saddr.toNat s.args.len.toNat))).accept false) := by
  rw [exec, execRevc, State.memRead_ok h.2.2.1]
  simp only [bind, Except.bind]
  rw [State.memWrite_ok (by simpa using h.2.1)]
  exact issue_valid ((validate_revc s).mpr h) _

theorem execBswp_ready {s : State} (h : TargetReady s) : exec (.bswp false) s =
    .next ((s.putBytes s.args.taddr.toNat (bswap (s.bytesAt s.args.taddr.toNat (byteCount s.args.tbits)))).accept false) := by
  rw [exec, execBswp, State.memRead_ok (by exact h.2.2)]
  simp only [bind, Except.bind]
  rw [State.memWrite_ok (by rw [length_bswap, State.length_bytesAt]; exact h.2.2)]
  exact issue_valid ((validate_bswp s).mpr h) _

/-- A limb buffer of the right number of limbs is written. -/
theorem State.writeLimbs_inside {s : State} {base bits : Word} {ls : List Word} (hg : GoodBits s.cfg bits)
    (hi : LimbsInside s.cfg base bits) (hl : ls.length = limbCount bits) :
    s.writeLimbs base ls = .ok (s.putBytes base.toNat (bytesOfLimbs ls)) :=
  State.writeLimbs_ok (by rw [hl, four_limbCount hg]; exact hi)

theorem execZero_ready {s : State} (h : TargetReady s) : exec (.zero false) s =
    .next ((s.putBytes s.args.taddr.toNat (bytesOfLimbs (zeroLimbs (limbCount s.args.tbits)))).accept false) := by
  rw [exec, execZero, State.writeLimbs_inside h.1 h.2.2 (by simp)]
  exact issue_valid ((validate_zero s).mpr h) _

theorem execSetw_ready {s : State} {offs : Nat} (h : SetwReady offs s) : exec (.setw false offs) s =
    .next ((s.putBytes s.args.taddr.toNat
      (bytesOfLimbs (seedLimbs (limbCount s.args.tbits) s.args.word offs))).accept false) := by
  rw [exec, execSetw, State.writeLimbs_inside h.1.1 h.1.2.2 (by simp)]
  exact issue_valid ((validate_setw offs s).mpr h) _

/-- The limbs of the target, and of the source, as a command reads them (R17). -/
abbrev tLimbs (s : State) : List Word := s.limbsAt s.args.taddr.toNat (limbCount s.args.tbits)
abbrev sLimbs (s : State) : List Word := s.limbsAt s.args.saddr.toNat (limbCount s.args.sbits)

theorem sLimbs_le_tLimbs {s : State} (h : s.args.sbits.toNat ≤ s.args.tbits.toNat) :
    (sLimbs s).length ≤ (tLimbs s).length := by
  simp only [State.length_limbsAt, limbCount]; omega

theorem execCopy_ready {s : State} (h : PairReady s) : exec (.copy false) s =
    .next ((s.putBytes s.args.taddr.toNat
      (bytesOfLimbs (widenLimbs (limbCount s.args.tbits) (sLimbs s)))).accept false) := by
  obtain ⟨hs, -, -, ht, hb, -⟩ := id h
  have hl := sLimbs_le_tLimbs hs.2.2
  rw [exec, execCopy, State.readLimbs_ok (by exact hb)]
  simp only [bind, Except.bind]
  rw [State.writeLimbs_inside hs.1 ht (length_widenLimbs (by simpa using hl))]
  exact issue_valid ((validate_copy s).mpr h) _

theorem execAdd_ready {s : State} (h : PairReady s) : exec (.add false) s =
    .next ((s.putBytes s.args.taddr.toNat (bytesOfLimbs (addLimbs (tLimbs s) (sLimbs s)).1)).accept
      (addLimbs (tLimbs s) (sLimbs s)).2) := by
  obtain ⟨hs, -, -, ht, hb, -⟩ := id h
  rw [exec, execAdd, State.readLimbs_ok (by exact ht), State.readLimbs_ok (by exact hb)]
  simp only [bind, Except.bind]
  rw [State.writeLimbs_inside hs.1 ht (by simp)]
  exact issue_valid ((validate_add s).mpr h) _

theorem execSub_ready {s : State} (h : PairReady s) : exec (.sub false) s =
    .next ((s.putBytes s.args.taddr.toNat (bytesOfLimbs (subLimbs (tLimbs s) (sLimbs s)).1)).accept
      (subLimbs (tLimbs s) (sLimbs s)).2) := by
  obtain ⟨hs, -, -, ht, hb, -⟩ := id h
  rw [exec, execSub, State.readLimbs_ok (by exact ht), State.readLimbs_ok (by exact hb)]
  simp only [bind, Except.bind]
  rw [State.writeLimbs_inside hs.1 ht (by simp)]
  exact issue_valid ((validate_sub s).mpr h) _

theorem execMul_ready {s : State} (h : PairReady s) : exec (.mul false) s =
    .next ((s.putBytes s.args.taddr.toNat (bytesOfLimbs (mulLimbs (tLimbs s) (sLimbs s)))).accept false) := by
  obtain ⟨hs, -, -, ht, hb, -⟩ := id h
  rw [exec, execMul, State.readLimbs_ok (by exact ht), State.readLimbs_ok (by exact hb)]
  simp only [bind, Except.bind]
  rw [State.writeLimbs_inside hs.1 ht (by simp)]
  exact issue_valid ((validate_mul s).mpr h) _

/-- A value is below `2^B` (R66). -/
theorem valAt_lt (s : State) {c : Config} {base bits : Word} (h : GoodBits c bits) :
    s.valAt base bits < 2 ^ bits.toNat := by
  have := limbsVal_lt (s.limbsAt base.toNat (limbCount bits))
  rwa [State.length_limbsAt, bits_limbCount h] at this

theorem divideOperands_zero {s : State} (h : DivOperands s) (h0 : sVal s = 0) :
    divideOperands s = .error (.reject .divideByZero) := by
  rw [divideOperands, State.readLimbs_ok (by exact h.2.2.2.2.1), State.readLimbs_ok (by exact h.2.2.2.2.2.1)]
  simp only [bind, Except.bind]
  exact if_pos h0

theorem divideOperands_ready {s : State} (h : DivOperands s) (h0 : sVal s ≠ 0) :
    divideOperands s = .ok (tVal s / sVal s, tVal s % sVal s) := by
  rw [divideOperands, State.readLimbs_ok (by exact h.2.2.2.2.1), State.readLimbs_ok (by exact h.2.2.2.2.2.1)]
  simp only [bind, Except.bind]
  rw [if_neg (by exact h0)]
  exact congrArg _ (divWalk_spec (Nat.pos_of_ne_zero h0) s.args.tbits.toNat 0 0 (Nat.pos_of_ne_zero h0) (by simp)
    (by simpa [State.valAt] using valAt_lt s h.1.1))

theorem execDiv_zero {s : State} (h : DivOperands s) (h0 : sVal s = 0) :
    exec (.div false) s = .next (s.reject .divideByZero) := by
  rw [exec, execDiv, divideOperands_zero h h0]
  exact issue_raise ((validate_div s).mpr h) _

theorem execDiv_ready {s : State} (h : DivReady s) : exec (.div false) s =
    .next ((s.putBytes s.args.qaddr.toNat
      (bytesOfLimbs (limbsOfNat (limbCount s.args.tbits) (tVal s / sVal s)))).accept false) := by
  obtain ⟨h, h0⟩ := h
  rw [exec, execDiv, divideOperands_ready h h0]
  simp only [bind, Except.bind]
  rw [State.writeLimbs_inside h.1.1 h.2.2.2.2.2.2.1 (by simp)]
  exact issue_valid ((validate_div s).mpr h) _

theorem execDivr_zero {s : State} (h : DivrOperands s) (h0 : sVal s = 0) :
    exec (.divr false) s = .next (s.reject .divideByZero) := by
  rw [exec, execDivr, divideOperands_zero h.1 h0]
  exact issue_raise ((validate_divr s).mpr h) _

theorem execDivr_ready {s : State} (h : DivrReady s) : exec (.divr false) s =
    .next (((s.putBytes s.args.qaddr.toNat (bytesOfLimbs (limbsOfNat (limbCount s.args.tbits) (tVal s / sVal s)))).putBytes
      s.args.raddr.toNat (bytesOfLimbs (limbsOfNat (limbCount s.args.sbits) (tVal s % sVal s)))).accept false) := by
  obtain ⟨h, h0⟩ := h
  rw [exec, execDivr, divideOperands_ready h.1 h0]
  simp only [bind, Except.bind]
  rw [State.writeLimbs_inside h.1.1.1 h.1.2.2.2.2.2.2.1 (by simp)]
  simp only
  rw [State.writeLimbs_inside (by exact h.1.1.2.1) (by exact h.2.2.1) (by simp)]
  exact issue_valid ((validate_divr s).mpr h) _

/-- A command with `S` = 1 is rejected whatever the registers and the memory hold (R106). -/
theorem exec_signed {i : Instr} (h : i.signed = true) (s : State) : exec i s = .next (s.reject .signedUnsupported) := by
  cases i <;> exact issue_invalid (validate_signed h s) _

/-- A command that fails validation is rejected with the first error of R282. -/
theorem exec_invalid {i : Instr} {s : State} {e : CmdError} (h : validate i s = some e) : exec i s = .next (s.reject e) := by
  cases i <;> exact issue_invalid h _

/-! ### Everything a command can do -/

/-- A command is rejected, or it writes bytes inside buffers that R111 lists as written and is accepted; only `ADD` and
`SUB` set `WRAP`. -/
inductive Effect (i : Instr) (s t : State) : Prop where
  | rejected (e : CmdError) (h : t = s.reject e)
  | accepted (ws : List (Nat × List Byte)) (wrap : Bool) (hv : validate i s = none) (h : t = (s.putAll ws).accept wrap)
      (inside : ∀ p ∈ ws, p.1 + p.2.length ≤ s.cfg.memBytes)
      (listed : ∀ p ∈ ws, ∀ a, InRange p.1 p.2.length a → writesTo i s.args a = true)
      (flag : wrap = true → i = .add false ∨ i = .sub false)

theorem effect_one {i : Instr} {s : State} {a : Nat} {bs : List Byte} {wrap : Bool} {b : Buffer}
    (hv : validate i s = none) (hb : b ∈ buffers i s.args) (hw : b.writes = true) (ha : b.base = a)
    (hl : b.len = bs.length) (flag : wrap = true → i = .add false ∨ i = .sub false) :
    Effect i s ((s.putBytes a bs).accept wrap) := by
  refine .accepted [(a, bs)] wrap hv rfl (fun p hp => ?_) (fun p hp x hx => ?_) flag
  · obtain rfl := List.mem_singleton.mp hp
    have := inside_of_validate hv b hb
    simpa [ha, hl] using this
  · obtain rfl := List.mem_singleton.mp hp
    simp only [writesTo, List.any_eq_true]
    exact ⟨b, hb, by simp only [InRange] at hx; simp [hw, Buffer.covers, ha, hl, hx]⟩

/-- Every command answers a next state, and this is all it can be: execution cannot fail (R282, R293). -/
theorem exec_effect (i : Instr) (s : State) : ∃ t, exec i s = .next t ∧ Effect i s t := by
  cases hv : validate i s with
  | some e => exact ⟨_, exec_invalid hv, .rejected e rfl⟩
  | none =>
    have hs : i.signed = false := (validate_none hv).1
    cases i with
    | rev b =>
      obtain rfl : b = false := hs
      exact ⟨_, execRev_ready ((validate_rev s).mp hv), effect_one hv (List.mem_singleton.mpr rfl) rfl rfl
        (by simp [byteBuffer]) (by simp)⟩
    | revc b =>
      obtain rfl : b = false := hs
      exact ⟨_, execRevc_ready ((validate_revc s).mp hv), effect_one hv (List.mem_cons_self) rfl rfl
        (by simp [byteBuffer]) (by simp)⟩
    | bswp b =>
      obtain rfl : b = false := hs
      exact ⟨_, execBswp_ready ((validate_bswp s).mp hv), effect_one hv (List.mem_singleton.mpr rfl) rfl rfl
        (by simp [limbBuffer, length_bswap]) (by simp)⟩
    | zero b =>
      obtain rfl : b = false := hs
      have h := (validate_zero s).mp hv
      exact ⟨_, execZero_ready h, effect_one hv (List.mem_singleton.mpr rfl) rfl rfl
        (by simp [limbBuffer, four_limbCount h.1]) (by simp)⟩
    | setw b offs =>
      obtain rfl : b = false := hs
      have h := (validate_setw offs s).mp hv
      exact ⟨_, execSetw_ready h, effect_one hv (List.mem_singleton.mpr rfl) rfl rfl
        (by simp [limbBuffer, four_limbCount h.1.1]) (by simp)⟩
    | copy b =>
      obtain rfl : b = false := hs
      have h := (validate_copy s).mp hv
      have hl := sLimbs_le_tLimbs h.1.2.2
      exact ⟨_, execCopy_ready h, effect_one hv (List.mem_cons_self) rfl rfl
        (by rw [length_bytesOfLimbs, length_widenLimbs (by simpa using hl)]; exact (four_limbCount h.1.1).symm) (by simp)⟩
    | add b =>
      obtain rfl : b = false := hs
      have h := (validate_add s).mp hv
      exact ⟨_, execAdd_ready h, effect_one hv (List.mem_cons_self) rfl rfl
        (by simp [limbBuffer, four_limbCount h.1.1]) (by simp)⟩
    | sub b =>
      obtain rfl : b = false := hs
      have h := (validate_sub s).mp hv
      exact ⟨_, execSub_ready h, effect_one hv (List.mem_cons_self) rfl rfl
        (by simp [limbBuffer, four_limbCount h.1.1]) (by simp)⟩
    | mul b =>
      obtain rfl : b = false := hs
      have h := (validate_mul s).mp hv
      exact ⟨_, execMul_ready h, effect_one hv (List.mem_cons_self) rfl rfl
        (by simp [limbBuffer, four_limbCount h.1.1]) (by simp)⟩
    | div b =>
      obtain rfl : b = false := hs
      have h := (validate_div s).mp hv
      by_cases h0 : sVal s = 0
      · exact ⟨_, execDiv_zero h h0, .rejected _ rfl⟩
      · exact ⟨_, execDiv_ready ⟨h, h0⟩, effect_one hv (b := limbBuffer s.args.qaddr s.args.tbits false true)
          (by simp [buffers]) rfl rfl (by simp [limbBuffer, four_limbCount h.1.1]) (by simp)⟩
    | divr b =>
      obtain rfl : b = false := hs
      have h := (validate_divr s).mp hv
      by_cases h0 : sVal s = 0
      · exact ⟨_, execDivr_zero h h0, .rejected _ rfl⟩
      · have hq : (bytesOfLimbs (limbsOfNat (limbCount s.args.tbits) (tVal s / sVal s))).length = byteCount s.args.tbits := by
          simp [four_limbCount h.1.1.1]
        have hr : (bytesOfLimbs (limbsOfNat (limbCount s.args.sbits) (tVal s % sVal s))).length = byteCount s.args.sbits := by
          simp [four_limbCount h.1.1.2.1]
        refine ⟨_, execDivr_ready ⟨h, h0⟩, .accepted
          [(s.args.qaddr.toNat, bytesOfLimbs (limbsOfNat (limbCount s.args.tbits) (tVal s / sVal s))),
            (s.args.raddr.toNat, bytesOfLimbs (limbsOfNat (limbCount s.args.sbits) (tVal s % sVal s)))]
          false hv rfl ?_ ?_ (by simp)⟩
        · simp only [List.mem_cons, List.not_mem_nil, or_false, forall_eq_or_imp, forall_eq, hq, hr]
          exact ⟨h.1.2.2.2.2.2.2.1, h.2.2.1⟩
        · simp only [List.mem_cons, List.not_mem_nil, or_false, forall_eq_or_imp, forall_eq, hq, hr]
          refine ⟨fun a ha => ?_, fun a ha => ?_⟩ <;> simp only [InRange] at ha <;>
            simp [writesTo, buffers, limbBuffer, Buffer.covers, ha]

/-! ### Consequences -/

theorem effect_of_exec {i : Instr} {s t : State} (h : exec i s = .next t) : Effect i s t := by
  obtain ⟨t', h', e⟩ := exec_effect i s
  rw [h] at h'
  cases h'
  exact e

@[simp] theorem State.putAll_cfg (ws : List (Nat × List Byte)) : ∀ s : State, (s.putAll ws).cfg = s.cfg := by
  induction ws with
  | nil => exact fun _ => rfl
  | cons p ps ih => exact fun s => ih _

/-- Writing bytes changes operand memory and nothing else. -/
theorem State.putAll_eq (ws : List (Nat × List Byte)) : ∀ s : State, s.putAll ws = { s with mem := (s.putAll ws).mem } := by
  induction ws with
  | nil => exact fun _ => rfl
  | cons p ps ih =>
    intro s
    rw [State.putAll, ih (s.putBytes p.1 p.2)]
    rfl

theorem State.byteAt_putAll_outside (ws : List (Nat × List Byte)) {a : Nat} : ∀ s : State,
    (∀ p ∈ ws, ¬InRange p.1 p.2.length a) → (s.putAll ws).byteAt a = s.byteAt a := by
  induction ws with
  | nil => exact fun _ _ => rfl
  | cons p ps ih =>
    intro s h
    rw [State.putAll, ih _ fun q hq => h q (List.mem_cons_of_mem _ hq)]
    exact State.byteAt_putBytes_outside s (h p List.mem_cons_self)

theorem State.putAll_wf (ws : List (Nat × List Byte)) : ∀ s : State, Memory.wf s.mem → Memory.wf (s.putAll ws).mem := by
  induction ws with
  | nil => exact fun _ h => h
  | cons p ps ih => exact fun s h => ih _ (Memory.wf_putBytes _ _ h)

theorem State.putAll_below (ws : List (Nat × List Byte)) {n : Nat} : ∀ s : State, (∀ p ∈ ws, p.1 + p.2.length ≤ n) →
    (∀ c ∈ s.mem, c.1 < n) → ∀ c ∈ (s.putAll ws).mem, c.1 < n := by
  induction ws with
  | nil => exact fun _ _ h => h
  | cons p ps ih =>
    intro s hw h
    exact ih _ (fun q hq => hw q (List.mem_cons_of_mem _ hq))
      (Memory.below_putBytes _ _ (hw p List.mem_cons_self) h)

end Sys2Proof.Machine
end

