-- ==== Sys2Proof/Laws/Checks.lean ====
section
/-! SUPPORT. When each check of 60_exceptions.md R282 rejects a command: one lemma per check, from what the earlier checks
of the order have passed and what this one finds. -/

namespace Sys2Proof.Machine

open Sys2Proof.Safety

/-- The pairs of R72 as a proposition over the whole list. -/
theorem allCompatible_iff (l : List Buffer) : allCompatible l = true ↔ l.Pairwise Compatible := by
  induction l with
  | nil => simp [allCompatible]
  | cons b bs ih =>
    have h : ∀ c, b.compatible c = true ↔ Compatible b c := by
      intro c
      rw [compatible_iff]
      simp only [Compatible]
      cases b.writes <;> cases c.writes <;> simp
    simp only [allCompatible, Bool.and_eq_true, List.pairwise_cons, ih, List.all_eq_true, h]

/-- A command that passes checks 2 to 9 and, where it divides, has a divisor that is not zero is accepted. -/
theorem accepted_of_validate {i : Instr} {s : State} (hv : validate i s = none) (hd : ¬(Divides i ∧ sVal s = 0)) :
    ∃ t, exec i s = .next t ∧ t.status.err = 0 := by
  have hs := (validate_none hv).1
  cases i with
  | rev b => obtain rfl : b = false := hs; exact ⟨_, execRev_ready ((validate_rev s).mp hv), rfl⟩
  | revc b => obtain rfl : b = false := hs; exact ⟨_, execRevc_ready ((validate_revc s).mp hv), rfl⟩
  | bswp b => obtain rfl : b = false := hs; exact ⟨_, execBswp_ready ((validate_bswp s).mp hv), rfl⟩
  | zero b => obtain rfl : b = false := hs; exact ⟨_, execZero_ready ((validate_zero s).mp hv), rfl⟩
  | setw b o => obtain rfl : b = false := hs; exact ⟨_, execSetw_ready ((validate_setw o s).mp hv), rfl⟩
  | copy b => obtain rfl : b = false := hs; exact ⟨_, execCopy_ready ((validate_copy s).mp hv), rfl⟩
  | add b => obtain rfl : b = false := hs; exact ⟨_, execAdd_ready ((validate_add s).mp hv), rfl⟩
  | sub b => obtain rfl : b = false := hs; exact ⟨_, execSub_ready ((validate_sub s).mp hv), rfl⟩
  | mul b => obtain rfl : b = false := hs; exact ⟨_, execMul_ready ((validate_mul s).mp hv), rfl⟩
  | div b =>
    obtain rfl : b = false := hs
    exact ⟨_, execDiv_ready ⟨(validate_div s).mp hv, fun h => hd ⟨.inl rfl, h⟩⟩, rfl⟩
  | divr b =>
    obtain rfl : b = false := hs
    exact ⟨_, execDivr_ready ⟨(validate_divr s).mp hv, fun h => hd ⟨.inr rfl, h⟩⟩, rfl⟩

/-- Check 10: a command that passes the others and divides by zero is rejected. -/
theorem exec_divides_zero {i : Instr} {s : State} (hv : validate i s = none) (hd : Divides i) (h0 : sVal s = 0) :
    Rejects i s .divideByZero := by
  have hs := (validate_none hv).1
  rcases hd with hd | hd <;> rw [hs] at hd <;> subst hd
  · exact execDiv_zero ((validate_div s).mp hv) h0
  · exact execDivr_zero ((validate_divr s).mp hv) h0

section
variable {i : Instr} {s : State} (h2 : i.signed = false)
  (h3 : (uses i .tbits = true → GoodBits s.cfg s.args.tbits) ∧ (uses i .sbits = true → GoodBits s.cfg s.args.sbits))
  (h4 : uses i .len = true → s.args.len.toNat % 2 = 0)
  (h5 : uses i .sbits = true → s.args.sbits.toNat ≤ s.args.tbits.toNat)
  (h6 : ∀ offs, limbOffset i = some offs → offs < s.args.tbits.toNat / 32)
  (h7 : ∀ b ∈ buffers i s.args, b.limb = true → b.base % 4 = 0)
  (h8 : ∀ b ∈ buffers i s.args, b.base + b.len ≤ s.cfg.memBytes)

/-- Check 3 as a proposition. -/
theorem badBits_check : (((uses i .tbits && badBits s.cfg s.args.tbits) ||
    (uses i .sbits && badBits s.cfg s.args.sbits)) = true) ↔
    ¬((uses i .tbits = true → GoodBits s.cfg s.args.tbits) ∧ (uses i .sbits = true → GoodBits s.cfg s.args.sbits)) := by
  simp only [Bool.or_eq_true, Bool.and_eq_true, badBits_eq_true]; tauto

/-- Check 4 as a proposition. -/
theorem oddLen_check : (uses i .len && decide (s.args.len.toNat % 2 = 1)) = true ↔
    ¬(uses i .len = true → s.args.len.toNat % 2 = 0) := by
  simp only [Bool.and_eq_true, decide_eq_true_eq]
  cases uses i .len <;> simp

/-- Check 5 as a proposition. -/
theorem wider_check : (uses i .sbits && decide (s.args.tbits.toNat < s.args.sbits.toNat)) = true ↔
    ¬(uses i .sbits = true → s.args.sbits.toNat ≤ s.args.tbits.toNat) := by
  simp only [Bool.and_eq_true, decide_eq_true_eq]
  cases uses i .sbits <;> simp

/-- Check 6 as a proposition. -/
theorem offset_check : ((limbOffset i).any fun offs => decide (limbCount s.args.tbits ≤ offs)) = true ↔
    ¬∀ offs, limbOffset i = some offs → offs < s.args.tbits.toNat / 32 := by
  cases limbOffset i <;> simp [Option.any]; rfl

/-- Check 7 as a proposition. -/
theorem aligned_check : (buffers i s.args).any Buffer.misaligned = true ↔
    ¬∀ b ∈ buffers i s.args, b.limb = true → b.base % 4 = 0 := by
  simp [Buffer.misaligned]

/-- Check 8 as a proposition. -/
theorem inside_check : (buffers i s.args).any (Buffer.outside s.cfg) = true ↔
    ¬∀ b ∈ buffers i s.args, b.base + b.len ≤ s.cfg.memBytes := by
  simp [Buffer.outside]

include h2 in
theorem rejects_badBitSize (h : ¬((uses i .tbits = true → GoodBits s.cfg s.args.tbits) ∧
    (uses i .sbits = true → GoodBits s.cfg s.args.sbits))) : Rejects i s .badBitSize := by
  refine exec_invalid ?_
  rw [validate, if_neg (by simp [h2]), if_pos (badBits_check.mpr h)]

include h2 h3 in
theorem rejects_oddLength (h : uses i .len = true) (h' : s.args.len.toNat % 2 = 1) : Rejects i s .oddLength := by
  refine exec_invalid ?_
  rw [validate, if_neg (by simp [h2]), if_neg (fun hc => badBits_check.mp hc h3), if_pos (by simp [h, h'])]

include h2 h3 h4 in
theorem rejects_sourceWider (h : uses i .sbits = true) (h' : s.args.tbits.toNat < s.args.sbits.toNat) :
    Rejects i s .sourceWider := by
  refine exec_invalid ?_
  rw [validate, if_neg (by simp [h2]), if_neg (fun hc => badBits_check.mp hc h3), if_neg (fun hc => oddLen_check.mp hc h4),
    if_pos (by simp [h, h'])]

include h2 h3 h4 h5 in
theorem rejects_offsetRange {offs : Nat} (h : limbOffset i = some offs) (h' : s.args.tbits.toNat / 32 ≤ offs) :
    Rejects i s .offsetRange := by
  refine exec_invalid ?_
  rw [validate, if_neg (by simp [h2]), if_neg (fun hc => badBits_check.mp hc h3), if_neg (fun hc => oddLen_check.mp hc h4),
    if_neg (fun hc => wider_check.mp hc h5), if_pos (offset_check.mpr fun hall => by have := hall offs h; omega)]

include h2 h3 h4 h5 h6 in
theorem rejects_misaligned (h : ¬∀ b ∈ buffers i s.args, b.limb = true → b.base % 4 = 0) : Rejects i s .misaligned := by
  refine exec_invalid ?_
  rw [validate, if_neg (by simp [h2]), if_neg (fun hc => badBits_check.mp hc h3), if_neg (fun hc => oddLen_check.mp hc h4),
    if_neg (fun hc => wider_check.mp hc h5), if_neg (fun hc => offset_check.mp hc h6), if_pos (aligned_check.mpr h)]

include h2 h3 h4 h5 h6 h7 in
theorem rejects_outOfBounds (h : ¬∀ b ∈ buffers i s.args, b.base + b.len ≤ s.cfg.memBytes) :
    Rejects i s .outOfBounds := by
  refine exec_invalid ?_
  rw [validate, if_neg (by simp [h2]), if_neg (fun hc => badBits_check.mp hc h3), if_neg (fun hc => oddLen_check.mp hc h4),
    if_neg (fun hc => wider_check.mp hc h5), if_neg (fun hc => offset_check.mp hc h6), if_neg (fun hc => aligned_check.mp hc h7),
    if_pos (inside_check.mpr h)]

include h2 h3 h4 h5 h6 h7 h8 in
theorem rejects_overlap (h : ¬(buffers i s.args).Pairwise Compatible) : Rejects i s .overlap := by
  refine exec_invalid ?_
  rw [validate, if_neg (by simp [h2]), if_neg (fun hc => badBits_check.mp hc h3), if_neg (fun hc => oddLen_check.mp hc h4),
    if_neg (fun hc => wider_check.mp hc h5), if_neg (fun hc => offset_check.mp hc h6), if_neg (fun hc => aligned_check.mp hc h7),
    if_neg (fun hc => inside_check.mp hc h8), if_pos (by simpa [← allCompatible_iff] using h)]
end

end Sys2Proof.Machine
end

