-- ==== Sys2Proof/Laws/Decode.lean ====
section
/-! SUPPORT. The fields of a command word: format `C` put together and taken apart (30_encoding.md R101), and what the
opcode map answers (R103). -/

namespace Sys2Proof

/-- The four fields of a word put together from them. -/
theorem fields_formatC (op : BitVec 8) (s : Bool) (imm : BitVec 16) :
    opField (formatC op s imm) = op ∧ signedField (formatC op s imm) = s ∧ reservedField (formatC op s imm) = 0 ∧
      immField (formatC op s imm) = imm := by
  refine ⟨BitVec.eq_of_getLsbD_eq fun i hi => ?_, ?_, BitVec.eq_of_getLsbD_eq fun i hi => ?_,
    BitVec.eq_of_getLsbD_eq fun i hi => ?_⟩ <;>
    simp only [opField, signedField, reservedField, immField, formatC, BitVec.getLsbD_extractLsb', BitVec.getLsbD_append]
  · simp [hi]
  · simp
  · have h1 : ¬ (9 + i < 8) := by omega
    have h2 : ¬ (9 + i - 8 < 1) := by omega
    have h3 : 9 + i - 8 - 1 < 7 := by omega
    simp [hi, h1, h2, h3]
  · have h1 : ¬ (16 + i < 8) := by omega
    have h2 : ¬ (16 + i - 8 < 1) := by omega
    have h3 : ¬ (16 + i - 8 - 1 < 7) := by omega
    have h4 : 16 + i - 8 - 1 - 7 = i := by omega
    simp only [h1, h2, h3, h4]
    simp [hi]

@[simp] theorem opField_formatC (op : BitVec 8) (s : Bool) (imm : BitVec 16) : opField (formatC op s imm) = op :=
  (fields_formatC op s imm).1
@[simp] theorem signedField_formatC (op : BitVec 8) (s : Bool) (imm : BitVec 16) : signedField (formatC op s imm) = s :=
  (fields_formatC op s imm).2.1
@[simp] theorem reservedField_formatC (op : BitVec 8) (s : Bool) (imm : BitVec 16) :
    reservedField (formatC op s imm) = 0 := (fields_formatC op s imm).2.2.1
@[simp] theorem immField_formatC (op : BitVec 8) (s : Bool) (imm : BitVec 16) : immField (formatC op s imm) = imm :=
  (fields_formatC op s imm).2.2.2

/-- A word whose reserved bits are zero is its other three fields. -/
theorem formatC_fields {w : Word} (h : reservedField w = 0) : formatC (opField w) (signedField w) (immField w) = w := by
  apply BitVec.eq_of_getLsbD_eq
  intro i hi
  have hr : ∀ j < 7, w.getLsbD (9 + j) = false := by
    intro j hj
    have := congrArg (fun v => v.getLsbD j) h
    simpa [reservedField, hj] using this
  simp only [formatC, opField, signedField, immField, BitVec.getLsbD_append, BitVec.getLsbD_extractLsb']
  by_cases h1 : i < 8
  · simp [h1]
  · by_cases h2 : i = 8
    · subst h2; simp
    · by_cases h3 : i < 16
      · have := hr (i - 9) (by omega)
        rw [show 9 + (i - 9) = i by omega] at this
        have e : ¬ (i - 8 < 1) := by omega
        have e2 : i - 8 - 1 < 7 := by omega
        simp [this, h1, e, e2]
      · have e : ¬ (i - 8 < 1) := by omega
        have e2 : ¬ i - 8 - 1 < 7 := by omega
        have e3 : 16 + (i - 8 - 1 - 7) = i := by omega
        simp [h1, e, e2, e3]
        omega

/-- What the opcode map answers encodes to the fields it was given, where the immediate is unused or is `SETW`'s. -/
theorem commandOf_some {op : BitVec 8} {s : Bool} {imm : BitVec 16} {i : Instr} (h : commandOf op s imm = some i)
    (h9 : op = 0x09 ∨ imm = 0) : i.wellFormed = true ∧ encode i = formatC op s imm := by
  simp only [commandOf] at h
  split at h
  case h_5 heq =>
    cases h
    obtain rfl : op = 9#8 := BitVec.eq_of_toNat_eq heq
    exact ⟨by simp only [Instr.wellFormed, decide_eq_true_eq]; exact imm.isLt, by simp [encode]⟩
  case h_12 => cases h
  all_goals
    rename_i heq
    cases h
    have h0 : imm = 0 := h9.resolve_left fun h => by rw [h] at heq; exact absurd heq (by decide)
    exact ⟨rfl, by rw [h0, encode]; congr 1; exact (BitVec.eq_of_toNat_eq heq).symm⟩

/-- A word decodes to what the opcode map gives for its fields, when they pass (R104). -/
theorem decode_of_commandOf {w : Word} {i : Instr} (h : commandOf (opField w) (signedField w) (immField w) = some i)
    (hr : reservedField w = 0) (h9 : opField w = 0x09 ∨ immField w = 0) : decode w = .ok i := by
  simp only [decode, h]
  rw [if_neg (fun h => h hr), if_neg (by tauto)]

/-- What a word that decodes has passed. -/
theorem commandOf_of_decode {w : Word} {i : Instr} (h : decode w = .ok i) :
    commandOf (opField w) (signedField w) (immField w) = some i ∧ reservedField w = 0 ∧
      (opField w = 0x09 ∨ immField w = 0) := by
  simp only [decode] at h
  split at h
  · cases h
  · split at h
    · cases h
    · split at h
      · cases h
      · cases h
        exact ⟨by assumption, by simpa using ‹¬reservedField w ≠ 0›, by tauto⟩

/-- A word that does not decode is refused by one of the three names. -/
theorem decode_error_of_ne {w : Word} (h : ∀ i, decode w ≠ .ok i) : ∃ e, decode w = .error e := by
  cases hd : decode w with
  | error e => exact ⟨e, rfl⟩
  | ok i => exact absurd hd (h i)

end Sys2Proof
end

