-- ==== Sys2Proof/Laws/Values.lean ====
section
/-! SUPPORT. Values and bytes after a buffer has been written: the number in a written limb buffer, in one that is apart
from it, and the bytes of the reversal unit. -/

namespace Sys2Proof.Machine

open Sys2Proof.Safety

/-! ### Bytes and limbs -/

theorem getD_leBytes (v : Word) {j : Nat} (h : j < 4) : (leBytes v).getD j 0 = v.extractLsb' (8 * j) 8 := by
  interval_cases j <;> rfl

/-- `LimbRead` as a sum (R64). -/
theorem State.toNat_limbAt (s : State) (base k : Nat) : (s.limbAt base k).toNat =
    (s.byteAt (base + 4 * k)).toNat + (s.byteAt (base + 4 * k + 1)).toNat * 2 ^ 8 +
      (s.byteAt (base + 4 * k + 2)).toNat * 2 ^ 16 + (s.byteAt (base + 4 * k + 3)).toNat * 2 ^ 24 := by
  simp only [State.limbAt, limbOfBytes, BitVec.toNat_ofNat]
  have h0 := (s.byteAt (base + 4 * k)).isLt; have h1 := (s.byteAt (base + 4 * k + 1)).isLt
  have h2 := (s.byteAt (base + 4 * k + 2)).isLt; have h3 := (s.byteAt (base + 4 * k + 3)).isLt
  omega

/-- Byte `j` of a limb is the byte of memory at place `j` of it (R64). -/
theorem State.byteAt_of_limbAt (s : State) (base k : Nat) {j : Nat} (hj : j < 4) :
    s.byteAt (base + 4 * k + j) = (s.limbAt base k).extractLsb' (8 * j) 8 := by
  apply BitVec.eq_of_toNat_eq
  rw [BitVec.extractLsb'_toNat, State.toNat_limbAt]
  have h0 := (s.byteAt (base + 4 * k)).isLt; have h1 := (s.byteAt (base + 4 * k + 1)).isLt
  have h2 := (s.byteAt (base + 4 * k + 2)).isLt; have h3 := (s.byteAt (base + 4 * k + 3)).isLt
  interval_cases j <;> simp [Nat.shiftRight_eq_div_pow] <;> omega

/-- The limbs of a buffer, as bytes, are its bytes. -/
theorem getD_bytesOfLimbs_limbsAt (s : State) (base n j : Nat) (hj : j < 4 * n) :
    (bytesOfLimbs (s.limbsAt base n)).getD j 0 = s.byteAt (base + j) := by
  have h := getD_bytesOfLimbs (s.limbsAt base n) (j / 4) (j % 4) (by simp; omega) (by omega)
  rw [show 4 * (j / 4) + j % 4 = j by omega] at h
  rw [h, getD_leBytes _ (by omega), State.getElem_limbsAt, ← State.byteAt_of_limbAt s _ _ (by omega)]
  congr 1; omega

/-- Two buffers of the same number of limbs hold the same number only if they hold the same limbs. -/
theorem limbs_eq_of_limbsVal {a b : List Word} (hl : a.length = b.length) (h : limbsVal a = limbsVal b) : a = b := by
  rw [← limbsOfNat_limbsVal a, ← limbsOfNat_limbsVal b, hl, h]

/-! ### Values after a write -/

/-- A byte after a command's one buffer is written and the command accepted. -/
theorem byteAt_accept_putBytes (s : State) (a : Nat) (bs : List Byte) (w : Bool) (x : Nat) :
    ((s.putBytes a bs).accept w).byteAt x =
      if a ≤ x ∧ x < a + bs.length then bs.getD (x - a) 0 else s.byteAt x := by
  rw [State.accept_byteAt, State.byteAt_putBytes]

theorem accepted_putBytes {s : State} {a n : Nat} {bs : List Byte} {w : Bool} (h : bs.length = n) :
    Accepted s ((s.putBytes a bs).accept w) w (InRange a n) := by
  refine ⟨⟨rfl, rfl, rfl, rfl, rfl, rfl, rfl⟩, rfl, fun x hx => ?_⟩
  rw [State.accept_byteAt]
  exact State.byteAt_putBytes_outside s (by rw [h]; exact hx)

theorem valAt_putLimbs {s : State} {base bits : Word} {ls : List Word} (h : ls.length = limbCount bits) :
    (s.putBytes base.toNat (bytesOfLimbs ls)).valAt base bits = limbsVal ls := by
  have := State.limbsAt_putLimbs s base.toNat ls
  rw [h] at this
  rw [State.valAt, this]

theorem tVal_accept_putLimbs {s : State} {ls : List Word} {w : Bool} (h : ls.length = limbCount s.args.tbits) :
    tVal ((s.putBytes s.args.taddr.toNat (bytesOfLimbs ls)).accept w) = limbsVal ls :=
  valAt_putLimbs h

theorem valAt_putBytes_apart {s : State} {base bits : Word} {c : Config} (hg : GoodBits c bits) {a : Nat}
    {bs : List Byte} (h : Apart a bs.length base.toNat (bits.toNat / 8)) :
    (s.putBytes a bs).valAt base bits = s.valAt base bits := by
  rw [State.valAt, State.valAt, State.limbsAt_congr fun i hi => ?_]
  rw [four_limbCount hg] at hi
  refine State.byteAt_putBytes_outside s ?_
  simp only [Apart, byteCount] at *; omega

/-! ### The reversal unit (R130, R133) -/

theorem getD_brev_bytesAt (s : State) (a n j : Nat) (h : j < n) :
    (brev (s.bytesAt a n)).getD j 0 = s.byteAt (a + (n - 1 - j)) := by
  rw [List.getD_eq_getElem _ _ (by simpa using h)]
  simp only [brev, List.getElem_reverse, State.getElem_bytesAt, State.length_bytesAt]

theorem getD_bswap : ∀ (b : List Byte) (k i : Nat), 4 * k + 4 ≤ b.length → i < 4 →
    (bswap b).getD (4 * k + i) 0 = b.getD (4 * k + (3 - i)) 0
  | b0 :: b1 :: b2 :: b3 :: rest, k, i, h, hi => by
    cases k with
    | zero => interval_cases i <;> simp [bswap, brev]
    | succ k =>
      have := getD_bswap rest k i (by simp at h; omega) hi
      rw [bswap, List.getD_append_right _ _ _ _ (by simp; omega), length_brev]
      simp only [List.length_cons, List.length_nil]
      rw [show 4 * (k + 1) + i - (0 + 1 + 1 + 1 + 1) = 4 * k + i by omega, this,
        show 4 * (k + 1) + (3 - i) = 4 * k + (3 - i) + 1 + 1 + 1 + 1 by omega]
      rfl
  | [], k, i, h, hi => by simp at h
  | [_], k, i, h, hi => by simp at h
  | [_, _], k, i, h, hi => by simp at h
  | [_, _, _], k, i, h, hi => by simp at h

/-! ### Frames -/

/-- What an issue leaves alone, from everything it can do. -/
theorem Effect.frame {i : Instr} {s t : State} (h : Effect i s t) {written : Nat → Prop}
    (hw : ∀ a, writesTo i s.args a = true → written a) : Frame s t written := by
  cases h with
  | rejected e h =>
    subst h
    exact ⟨⟨rfl, rfl, rfl, rfl, rfl, rfl, rfl⟩, fun h => absurd h (CmdError.code_ne_zero e), fun _ _ => rfl, fun _ _ => rfl⟩
  | accepted ws w hv h _ hl =>
    subst h
    refine ⟨?_, fun _ => ?_, fun h => absurd rfl h, fun a ha => ?_⟩
    · rw [State.putAll_eq]; exact ⟨rfl, rfl, rfl, rfl, rfl, rfl, rfl⟩
    · rw [State.putAll_eq]; rfl
    · rw [State.accept_byteAt]
      exact State.byteAt_putAll_outside ws s fun p hp hin => ha (hw a (hl p hp a hin))

end Sys2Proof.Machine
end

