-- ==== Sys2Proof/Laws/HostPort.lean ====
section
/-! SUPPORT. What the host port and the step can do: one lemma says all a host write does, one all a step does, and later
proofs take their cases from these. -/

namespace Sys2Proof.Machine

open Sys2Proof.Safety

/-! ### Which accesses are allowed (R74) -/

theorem registerAccess_iff {off size : Nat} :
    registerAccess off size = true ↔ off < 0x1000 ∧ size = 4 ∧ off % 4 = 0 := by
  simp only [registerAccess, Bool.and_eq_true, decide_eq_true_eq, and_assoc]; rfl

theorem windowAccess_iff {c : Config} {off size : Nat} : windowAccess c off size = true ↔
    0x1000 ≤ off ∧ (size = 1 ∨ size = 2 ∨ size = 4) ∧ off % size = 0 ∧ off + size ≤ 0x1000 + c.memBytes := by
  simp only [windowAccess, Bool.and_eq_true, Bool.or_eq_true, decide_eq_true_eq, and_assoc, or_assoc]; rfl

/-- Under R7 a naturally aligned access that begins inside the window ends inside it. -/
theorem portAllows_iff {c : Config} (hc : c.wf) {off size : Nat} :
    PortAllows c off size ↔ registerAccess off size = true ∨ windowAccess c off size = true := by
  obtain ⟨-, -, -, h4, -, -⟩ := hc
  rw [registerAccess_iff, windowAccess_iff]
  constructor
  · rintro (h | ⟨h1, h2, h3 | ⟨h3, h5⟩ | ⟨h3, h5⟩⟩)
    · exact .inl h
    all_goals subst h3; right; omega
  · rintro (h | ⟨h1, h2 | h2 | h2, h3, h5⟩)
    · exact .inl h
    all_goals subst h2; right; omega

theorem registerAccess_offset (r : ArgReg) : registerAccess r.offset 4 = true := by cases r <;> rfl

/-- The window begins where the registers end. -/
theorem registerAccess_window {off size : Nat} (h : 0x1000 ≤ off) : registerAccess off size = false := by
  rw [← Bool.not_eq_true, registerAccess_iff]; omega

/-- A register offset is one of the map's. -/
theorem portReg_cmd_iff {off : Nat} : portReg off = .cmd ↔ off = 0x000 := by
  unfold portReg; split <;> simp_all

theorem portReg_status_iff {off : Nat} : portReg off = .status ↔ off = 0x004 := by
  unfold portReg; split <;> simp_all

/-- The register map has each argument register at one offset. -/
theorem portReg_arg_iff {off : Nat} {r : ArgReg} : portReg off = .arg r ↔ off = r.offset := by
  constructor
  · unfold portReg
    split <;> intro h <;> cases h <;> rfl
  · rintro rfl
    exact portReg_offset r

/-! ### Bytes of a window access (R74) -/

theorem leBytes_take_length {v : Word} {size : Nat} (h : size ≤ 4) : ((leBytes v).take size).length = size := by
  simp [h]

theorem leValue_lt (bs : List Byte) : leValue bs < 2 ^ (8 * bs.length) := by
  induction bs with
  | nil => simp [leValue]
  | cons b bs ih =>
    have hb := b.isLt
    rw [leValue, List.length_cons, show 8 * (bs.length + 1) = 8 + 8 * bs.length by omega, pow_add]
    nlinarith

/-- Byte `j` of the number that bytes hold is the byte at place `j`, and 0 beyond them. -/
theorem leValue_byte (bs : List Byte) : ∀ j, leValue bs / 2 ^ (8 * j) % 2 ^ 8 = (bs.getD j 0).toNat := by
  induction bs with
  | nil => intro j; simp [leValue]
  | cons b bs ih =>
    intro j
    have hb := b.isLt
    cases j with
    | zero => simp [leValue]; omega
    | succ j =>
      rw [leValue, show 8 * (j + 1) = 8 + 8 * j by omega, pow_add, ← Nat.div_div_eq_div_mul]
      rw [show (b.toNat + 2 ^ 8 * leValue bs) / 2 ^ 8 = leValue bs by omega]
      simpa using ih j

theorem extract_leValue {bs : List Byte} (h : bs.length ≤ 4) (j : Nat) :
    (BitVec.ofNat 32 (leValue bs)).extractLsb' (8 * j) 8 = bs.getD j 0 := by
  apply BitVec.eq_of_toNat_eq
  have hlt : leValue bs < 2 ^ 32 := (leValue_lt bs).trans_le (Nat.pow_le_pow_right (by norm_num) (by omega))
  rw [BitVec.extractLsb'_toNat, BitVec.toNat_ofNat, Nat.mod_eq_of_lt hlt, Nat.shiftRight_eq_div_pow, leValue_byte]

/-! ### Issuing a word (R31) -/

/-- The state in which the word written to `CMD` is issued. -/
abbrev State.withCmd (s : State) (w : Word) : State := { s with cmd := w, response := .done }

theorem State.issueWord_error {s : State} {w : Word} {e : DecodeError} (h : decode w = .error e) :
    s.issueWord w = .next ((s.withCmd w).reject .illegalCommand) := by
  simp only [State.issueWord, h]

theorem State.issueWord_ok {s : State} {w : Word} {i : Instr} (h : decode w = .ok i) :
    s.issueWord w = exec i (s.withCmd w) := by
  simp only [State.issueWord, h]

/-- Everything an issue can do: the word decodes to nothing and is rejected, or its command has its effect. -/
theorem State.issueWord_cases (s : State) (w : Word) : ∃ t, s.issueWord w = .next t ∧
    (((∀ i, decode w ≠ .ok i) ∧ t = (s.withCmd w).reject .illegalCommand) ∨
      ∃ i, decode w = .ok i ∧ exec i (s.withCmd w) = .next t ∧ Effect i (s.withCmd w) t) := by
  cases h : decode w with
  | error e => exact ⟨_, State.issueWord_error h, .inl ⟨fun i => by simp, rfl⟩⟩
  | ok i =>
    obtain ⟨t, ht, he⟩ := exec_effect i (s.withCmd w)
    exact ⟨t, (State.issueWord_ok h).trans ht, .inr ⟨i, rfl, ht, he⟩⟩

/-! ### A host write (R31 to R35, R61, R74) -/

/-- Everything a host write can do. -/
inductive WriteEffect (s : State) (off size : Nat) (v : Word) (t : State) : Prop where
  | command (ho : off = 0x000) (hs : size = 4) (h : s.issueWord v = .next t)
  | status (ho : off = 0x004) (hs : size = 4) (h : t = { s with status := s.status.hostWrite v, response := .done })
  | argument (r : ArgReg) (ho : portReg off = .arg r) (hs : size = 4)
      (h : t = { s with args := s.args.set r v, response := .done })
  | ignored (hs : size = 4) (h : t = { s with response := .done })
  | window (hw : windowAccess s.cfg off size = true)
      (h : t = { s.putBytes (off - 0x1000) ((leBytes v).take size) with response := .done })
  | busError (hr : registerAccess off size = false) (hw : windowAccess s.cfg off size = false)
      (h : t = { s with response := .busError })

theorem State.hostWrite_cases (s : State) (off size : Nat) (v : Word) :
    ∃ t, s.hostWrite off size v = .next t ∧ WriteEffect s off size v t := by
  rw [State.hostWrite]
  split
  · rename_i hr
    have hs := (registerAccess_iff.mp hr).2.1
    cases hp : portReg off with
    | cmd =>
      obtain ⟨t, ht, -⟩ := s.issueWord_cases v
      exact ⟨t, ht, .command (portReg_cmd_iff.mp hp) hs ht⟩
    | status => exact ⟨_, rfl, .status (portReg_status_iff.mp hp) hs rfl⟩
    | capBits => exact ⟨_, rfl, .ignored hs rfl⟩
    | capMem => exact ⟨_, rfl, .ignored hs rfl⟩
    | arg r => exact ⟨_, rfl, .argument r hp hs rfl⟩
    | reserved => exact ⟨_, rfl, .ignored hs rfl⟩
  · rename_i hr
    split
    · rename_i hw
      exact ⟨_, rfl, .window hw rfl⟩
    · rename_i hw
      exact ⟨_, rfl, .busError (by simpa using hr) (by simpa using hw) rfl⟩

/-! ### The step -/

theorem step_nil {s : State} (h : s.pending = []) : step s = .next s := by simp only [step, h]

theorem step_read {s : State} {off size : Nat} {rest : List HostEvent} (h : s.pending = .read off size :: rest) :
    step s = .next (State.hostRead { s with pending := rest } off size) := by
  simp only [step, h, hostEvent]

theorem step_write {s : State} {off size : Nat} {v : Word} {rest : List HostEvent}
    (h : s.pending = .write off size v :: rest) :
    step s = State.hostWrite { s with pending := rest } off size v := by
  simp only [step, h, hostEvent]

theorem step_reset {s : State} {rest : List HostEvent} (h : s.pending = .reset :: rest) :
    step s = .next (State.resetIdle { s with pending := rest }) := by
  simp only [step, h, hostEvent]

theorem step_resetDuring {s : State} {w : Word} {rest : List HostEvent} (h : s.pending = .resetDuring w :: rest) :
    step s = .next (State.resetDuring { s with pending := rest } w) := by
  simp only [step, h, hostEvent]

/-- A 32-bit write of a word to `CMD` issues it (R31). -/
theorem step_command {s : State} {w : Word} {rest : List HostEvent} (h : s.pending = .write 0x000 4 w :: rest) :
    step s = State.issueWord { s with pending := rest } w := by
  rw [step_write h]; rfl

/-- A read changes nothing but the answer (R75). -/
theorem State.hostRead_response (s : State) (off size : Nat) :
    ∃ r, s.hostRead off size = { s with response := r } := by
  rw [State.hostRead]
  split
  · exact ⟨_, rfl⟩
  · split <;> exact ⟨_, rfl⟩

/-- The bytes a reset leaves in an abandoned command's buffers are written nowhere else, and nothing else changes. -/
theorem length_abandonedBytes (k n : Nat) : ∀ a, (abandonedBytes k a n).length = n := by
  induction n with
  | zero => exact fun _ => rfl
  | succ n ih => exact fun a => by simp [abandonedBytes, ih]

theorem State.abandonBuffers_eq (bs : List Buffer) : ∀ s : State,
    ∃ ws : List (Nat × List Byte), s.abandonBuffers bs = s.putAll ws ∧
      ∀ p ∈ ws, ∃ b ∈ bs, b.writes = true ∧ p.1 = b.base ∧ p.2.length = b.len := by
  induction bs with
  | nil => exact fun s => ⟨[], rfl, by simp⟩
  | cons b bs ih =>
    intro s
    by_cases hb : b.writes = true
    · obtain ⟨ws, h1, h2⟩ := ih (s.putBytes b.base (abandonedBytes s.abandons b.base b.len))
      refine ⟨(b.base, abandonedBytes s.abandons b.base b.len) :: ws, ?_, ?_⟩
      · rw [State.abandonBuffers, if_pos hb, h1, State.putAll]
      · intro p hp
        rcases List.mem_cons.mp hp with rfl | hp
        · exact ⟨b, List.mem_cons_self, hb, rfl, length_abandonedBytes _ _ _⟩
        · obtain ⟨c, hc, h⟩ := h2 p hp
          exact ⟨c, List.mem_cons_of_mem _ hc, h⟩
    · obtain ⟨ws, h1, h2⟩ := ih s
      refine ⟨ws, ?_, fun p hp => ?_⟩
      · rw [State.abandonBuffers, if_neg hb, h1]
      · obtain ⟨c, hc, h⟩ := h2 p hp
        exact ⟨c, List.mem_cons_of_mem _ hc, h⟩

/-- Everything a reset during a command can do (R321): the registers take their reset values and no byte is written, or
the command would have been accepted and its written buffers are. -/
theorem State.resetDuring_cases (s : State) (w : Word) :
    s.resetDuring w = s.resetRegisters ∨
      ∃ i ws, decode w = .ok i ∧ validate i { s with cmd := w } = none ∧
        s.resetDuring w = { (s.putAll ws).resetRegisters with abandons := s.abandons + 1 } ∧
        ∀ p ∈ ws, ∃ b ∈ buffers i s.args, b.writes = true ∧ p.1 = b.base ∧ p.2.length = b.len := by
  cases hd : decode w with
  | error e => exact .inl (by simp only [State.resetDuring, hd])
  | ok i =>
    obtain ⟨t, ht, he⟩ := exec_effect i { s with cmd := w }
    by_cases h0 : t.status.err = 0
    · obtain ⟨ws, h1, h2⟩ := State.abandonBuffers_eq (buffers i s.args) s
      refine .inr ⟨i, ws, rfl, ?_, ?_, h2⟩
      · cases he with
        | rejected e h => subst h; exact absurd h0 (CmdError.code_ne_zero e)
        | accepted _ _ hv => exact hv
      · simp only [State.resetDuring, hd, ht, if_pos h0, h1]
    · exact .inl (by simp only [State.resetDuring, hd, ht, if_neg h0])

/-- Everything a step can do. -/
inductive StepEffect (s t : State) : Prop where
  | idle (h : s.pending = []) (ht : t = s)
  | read (off size : Nat) (rest : List HostEvent) (r : Response) (h : s.pending = .read off size :: rest)
      (ht : t = { s with pending := rest, response := r })
  | write (off size : Nat) (v : Word) (rest : List HostEvent) (h : s.pending = .write off size v :: rest)
      (ht : WriteEffect { s with pending := rest } off size v t)
  | reset (rest : List HostEvent) (h : s.pending = .reset :: rest) (ht : t = State.resetIdle { s with pending := rest })
  | resetDuring (w : Word) (rest : List HostEvent) (h : s.pending = .resetDuring w :: rest)
      (ht : t = State.resetDuring { s with pending := rest } w)

/-- Every step answers a next state, and this is all it can be. -/
theorem step_cases (s : State) : ∃ t, step s = .next t ∧ StepEffect s t := by
  cases hp : s.pending with
  | nil => exact ⟨s, step_nil hp, .idle hp rfl⟩
  | cons e rest =>
    cases e with
    | read off size =>
      obtain ⟨r, hr⟩ := State.hostRead_response { s with pending := rest } off size
      exact ⟨_, step_read hp, .read off size rest r hp hr⟩
    | write off size v =>
      obtain ⟨t, ht, he⟩ := State.hostWrite_cases { s with pending := rest } off size v
      exact ⟨t, (step_write hp).trans ht, .write off size v rest hp he⟩
    | reset => exact ⟨_, step_reset hp, .reset rest hp rfl⟩
    | resetDuring w => exact ⟨_, step_resetDuring hp, .resetDuring w rest hp rfl⟩

theorem effect_of_step {s t : State} (h : step s = .next t) : StepEffect s t := by
  obtain ⟨t', h', e⟩ := step_cases s
  rw [h] at h'
  cases h'
  exact e

end Sys2Proof.Machine
end

