-- ==== Sys2Proof/Laws/PerInstr.lean ====
section
/-! SUPPORT. The family `Encoding`: for every command, the fields of its word (30_encoding.md R101 to R103), one lemma per
constructor. -/

/-- The word of the command has no reserved bit set, carries the command's `S` in bit 8, is selected by its `OP`, and has
an unused `IMM` of zero. -/
def Sys2Proof.Laws.Encoding.Statement (i : Sys2Proof.Instr) : Prop :=
  Sys2Proof.reservedField (Sys2Proof.encode i) = 0 ∧ Sys2Proof.signedField (Sys2Proof.encode i) = i.signed ∧
    (Sys2Proof.opField (Sys2Proof.encode i) = 0x09 ∨ Sys2Proof.immField (Sys2Proof.encode i) = 0) ∧
    (i.wellFormed = true → Sys2Proof.commandOf (Sys2Proof.opField (Sys2Proof.encode i))
      (Sys2Proof.signedField (Sys2Proof.encode i)) (Sys2Proof.immField (Sys2Proof.encode i)) = some i)

theorem Sys2Proof.Laws.Encoding.rev (signed : Bool) : Sys2Proof.Laws.Encoding.Statement (.rev signed) := by
  simp [Sys2Proof.Laws.Encoding.Statement, encode, Instr.signed, commandOf]

theorem Sys2Proof.Laws.Encoding.revc (signed : Bool) : Sys2Proof.Laws.Encoding.Statement (.revc signed) := by
  simp [Sys2Proof.Laws.Encoding.Statement, encode, Instr.signed, commandOf]

theorem Sys2Proof.Laws.Encoding.bswp (signed : Bool) : Sys2Proof.Laws.Encoding.Statement (.bswp signed) := by
  simp [Sys2Proof.Laws.Encoding.Statement, encode, Instr.signed, commandOf]

theorem Sys2Proof.Laws.Encoding.zero (signed : Bool) : Sys2Proof.Laws.Encoding.Statement (.zero signed) := by
  simp [Sys2Proof.Laws.Encoding.Statement, encode, Instr.signed, commandOf]

theorem Sys2Proof.Laws.Encoding.setw (signed : Bool) (offs : Nat) :
    Sys2Proof.Laws.Encoding.Statement (.setw signed offs) := by
  refine ⟨by simp [encode], by simp [encode, Instr.signed], .inl (by simp [encode]), fun h => ?_⟩
  simp [encode, commandOf]
  simpa [Instr.wellFormed] using h

theorem Sys2Proof.Laws.Encoding.copy (signed : Bool) : Sys2Proof.Laws.Encoding.Statement (.copy signed) := by
  simp [Sys2Proof.Laws.Encoding.Statement, encode, Instr.signed, commandOf]

theorem Sys2Proof.Laws.Encoding.add (signed : Bool) : Sys2Proof.Laws.Encoding.Statement (.add signed) := by
  simp [Sys2Proof.Laws.Encoding.Statement, encode, Instr.signed, commandOf]

theorem Sys2Proof.Laws.Encoding.sub (signed : Bool) : Sys2Proof.Laws.Encoding.Statement (.sub signed) := by
  simp [Sys2Proof.Laws.Encoding.Statement, encode, Instr.signed, commandOf]

theorem Sys2Proof.Laws.Encoding.mul (signed : Bool) : Sys2Proof.Laws.Encoding.Statement (.mul signed) := by
  simp [Sys2Proof.Laws.Encoding.Statement, encode, Instr.signed, commandOf]

theorem Sys2Proof.Laws.Encoding.div (signed : Bool) : Sys2Proof.Laws.Encoding.Statement (.div signed) := by
  simp [Sys2Proof.Laws.Encoding.Statement, encode, Instr.signed, commandOf]

theorem Sys2Proof.Laws.Encoding.divr (signed : Bool) : Sys2Proof.Laws.Encoding.Statement (.divr signed) := by
  simp [Sys2Proof.Laws.Encoding.Statement, encode, Instr.signed, commandOf]
end

