-- ==== Sys2Proof/Tests/Slice0.lean ====
section
/-! SUPPORT. The model's own tests: ill-formed terms refused, words written out bit by bit, single commands with the
results of 95_test_vectors.md, and for every obligation with hypotheses a witness that meets them. -/

namespace Sys2Proof.Tests

open Sys2Proof.Machine Sys2Proof.Safety

/-! ### WellFormed and the decoder (30_encoding.md) -/

/-- A limb offset that does not fit `IMM` (R102). -/
theorem test_offset_too_wide_is_ill_formed : (Instr.setw false 65536).wellFormed = false := by decide
theorem test_widest_offset_is_well_formed : (Instr.setw false 65535).wellFormed = true := by decide

/-! Each word is written as `IMM`, `RSV`, `S`, `OP` (R101), the values from the map of R103. -/
theorem test_decode_rev : decode 0b0000000000000000_0000000_0_00000001 = .ok (.rev false) := by rfl
theorem test_decode_revc : decode 0b0000000000000000_0000000_0_00000010 = .ok (.revc false) := by rfl
theorem test_decode_bswp : decode 0b0000000000000000_0000000_0_00000011 = .ok (.bswp false) := by rfl
theorem test_decode_zero : decode 0b0000000000000000_0000000_0_00001000 = .ok (.zero false) := by rfl
theorem test_decode_setw : decode 0b0000000000000010_0000000_0_00001001 = .ok (.setw false 2) := by rfl
theorem test_decode_setw_last : decode 0b1111111111111111_0000000_0_00001001 = .ok (.setw false 65535) := by rfl
theorem test_decode_copy : decode 0b0000000000000000_0000000_0_00001010 = .ok (.copy false) := by rfl
theorem test_decode_add : decode 0b0000000000000000_0000000_0_00010000 = .ok (.add false) := by rfl
theorem test_decode_sub : decode 0b0000000000000000_0000000_0_00010001 = .ok (.sub false) := by rfl
theorem test_decode_sub_signed : decode 0b0000000000000000_0000000_1_00010001 = .ok (.sub true) := by rfl
theorem test_decode_mul : decode 0b0000000000000000_0000000_0_00010010 = .ok (.mul false) := by rfl
theorem test_decode_div : decode 0b0000000000000000_0000000_0_00010011 = .ok (.div false) := by rfl
theorem test_decode_divr : decode 0b0000000000000000_0000000_0_00010100 = .ok (.divr false) := by rfl

/-- The illegal words of 95_test_vectors.md section 2.1. -/
theorem test_decode_refuses_unassigned : decode 0x00000000 = .error .unassignedOpcode ∧
    decode 0x00000004 = .error .unassignedOpcode ∧ decode 0x0000000B = .error .unassignedOpcode ∧
    decode 0x00000015 = .error .unassignedOpcode ∧ decode 0x000000FF = .error .unassignedOpcode ∧
    decode 0x00000115 = .error .unassignedOpcode := by decide
theorem test_decode_refuses_reserved : decode 0x00000208 = .error .reservedBits ∧
    decode 0x00010008 = .error .unusedImmediate ∧ decode 0x00010010 = .error .unusedImmediate := by decide

/-! ### Single commands (95_test_vectors.md part 2) -/

/-- Argument registers with these numbers in `TADDR`, `TBITS`, `SADDR`, `SBITS`. -/
def args4 (t tb s sb : Nat) : Args :=
  { Args.reset with taddr := BitVec.ofNat 32 t, tbits := BitVec.ofNat 32 tb, saddr := BitVec.ofNat 32 s,
                    sbits := BitVec.ofNat 32 sb }

/-- Operand memory listing the bytes of the strings. -/
def memOf : List (Nat × List Byte) → Memory
  | [] => []
  | p :: ps => (memOf ps).putBytes p.1 p.2

/-- The state after reset with these registers and bytes, and one word about to be written to `CMD`. -/
def start (x : Args) (m : List (Nat × List Byte)) (w : Word) : State :=
  { State.reset with args := x, mem := memOf m, pending := [.write 0x000 4 w] }

/-- The step answers a next state with this `STATUS` word and these bytes at these addresses, and lists no others. -/
def gives (o : Host.Outcome State Fault Refusal) (status : Word) (m : List (Nat × List Byte)) : Bool :=
  match o with
  | .next t => decide (t.status.word = status) && decide (t.mem = memOf m)
  | .fault _ => false
  | .refused _ => false

theorem test_rev_B1 : gives (step (start { args4 0x10 0 0 0 with len := 6 } [(0x10, [1, 2, 3, 4, 5, 6])] 0x00000001))
    0 [(0x10, [6, 5, 4, 3, 2, 1])] = true := by decide
theorem test_rev_odd_B2 : gives (step (start { args4 0x10 0 0 0 with len := 5 } [(0x10, [1, 2, 3, 4, 5, 6])] 0x00000001))
    0x204 [(0x10, [1, 2, 3, 4, 5, 6])] = true := by decide
theorem test_revc_B7 : gives (step (start { args4 0x21 0 0x11 0 with len := 4 }
    [(0x11, [0xDE, 0xAD, 0xBE, 0xEF])] 0x00000002))
    0 [(0x11, [0xDE, 0xAD, 0xBE, 0xEF]), (0x21, [0xEF, 0xBE, 0xAD, 0xDE])] = true := by decide

/-- `BSWP` of B10. -/
theorem test_bswp_B10 : gives (step (start (args4 0 64 0 0) [(0, [4, 3, 2, 1, 0xD4, 0xC3, 0xB2, 0xA1])] 0x00000003))
    0 [(0, [1, 2, 3, 4, 0xA1, 0xB2, 0xC3, 0xD4])] = true := by decide
theorem test_bswp_misaligned_B11 : gives (step (start (args4 2 64 0 0) [] 0x00000003)) 0x207 [] = true := by decide
theorem test_zero_Z2 : gives (step (start (args4 0x40 32 0 0) [(0x40, [1, 2, 3, 4, 5])] 0x00000008))
    0 [(0x40, [0, 0, 0, 0, 5])] = true := by decide
/-- E14: one word beyond the end of memory. -/
theorem test_zero_outside_E14 : gives (step (start (args4 4092 64 0 0) [] 0x00000008)) 0x208 [] = true := by decide
/-- W3 of 96 bits: the word in the most-significant limb, which stands first. -/
theorem test_setw_W3 : gives (step (start { args4 0 96 0 0 with word := 0xAABBCCDD } [] 0x00020009))
    0 [(0, [0xDD, 0xCC, 0xBB, 0xAA, 0, 0, 0, 0, 0, 0, 0, 0])] = true := by decide
theorem test_setw_offset_W4 : gives (step (start { args4 0 128 0 0 with word := 0xAABBCCDD } [] 0x00040009))
    0x206 [] = true := by decide
/-- Y1 with an asymmetric source: the source's limbs at the least-significant end (20_memory.md R63, R64). -/
theorem test_copy_Y1 : gives (step (start (args4 0 96 0x20 64) [(0x20, [0xA1, 0xA2, 0xA3, 0xA4, 0xB1, 0xB2, 0xB3, 0xB4])]
      0x0000000A))
    0 [(0, [0, 0, 0, 0, 0xA1, 0xA2, 0xA3, 0xA4, 0xB1, 0xB2, 0xB3, 0xB4]),
       (0x20, [0xA1, 0xA2, 0xA3, 0xA4, 0xB1, 0xB2, 0xB3, 0xB4])] = true := by decide
theorem test_copy_overlap_Y5 : gives (step (start (args4 0 128 8 64) [] 0x0000000A)) 0x209 [] = true := by decide
/-- A11: a carry out of the middle limb. -/
theorem test_add_A11 : gives (step (start (args4 0 96 0x20 64)
      [(0, [0, 0, 0, 0, 0xFF, 0xFF, 0xFF, 0xFF, 0, 0, 0, 0]), (0x20, [1, 0, 0, 0, 0, 0, 0, 0])] 0x00000010))
    0 [(0, [1, 0, 0, 0, 0, 0, 0, 0, 0, 0, 0, 0]), (0x20, [1, 0, 0, 0, 0, 0, 0, 0])] = true := by decide
/-- A12: doubling in place, with a carry out of the top. -/
theorem test_add_A12 : gives (step (start (args4 0 64 0 64) [(0, [0, 0, 0, 0x80, 1, 0, 0, 0])] 0x00000010))
    0x100 [(0, [0, 0, 0, 0, 2, 0, 0, 0])] = true := by decide
/-- S7: the difference of the smaller less the greater wraps. -/
theorem test_sub_S7 : gives (step (start (args4 0 64 0x20 64)
      [(0, [0xA9, 0xCB, 0xED, 0x0F, 0x21, 0x43, 0x65, 0x87]), (0x20, [0x78, 0x56, 0x34, 0x12, 0xF0, 0xDE, 0xBC, 0x9A])]
      0x00000011))
    0x100 [(0, [0x30, 0x75, 0xB9, 0xFD, 0x31, 0x64, 0xA8, 0xEC]),
           (0x20, [0x78, 0x56, 0x34, 0x12, 0xF0, 0xDE, 0xBC, 0x9A])] = true := by decide +kernel
theorem test_sub_signed_S12 : gives (step (start (args4 0 64 0x20 64) [] 0x00000111)) 0x202 [] = true := by decide
/-- M4: a product that does not fit, without a flag. -/
theorem test_mul_M4 : gives (step (start (args4 0 64 0x20 32)
      [(0, [0xFF, 0xFF, 0xFF, 0xFF, 0xFF, 0xFF, 0xFF, 0xFF]), (0x20, [0xFF, 0xFF, 0xFF, 0xFF])] 0x00000012))
    0 [(0, [0xFF, 0xFF, 0xFF, 0xFF, 1, 0, 0, 0]), (0x20, [0xFF, 0xFF, 0xFF, 0xFF])] = true := by decide +kernel
/-- M-LIT2: the high half carries up one limb. -/
theorem test_mul_M_LIT2 : gives (step (start (args4 0 64 0x20 32)
      [(0, [0, 0, 0, 0, 2, 0, 0, 0]), (0x20, [0, 0, 0, 0x80])] 0x00000012))
    0 [(0, [1, 0, 0, 0, 0, 0, 0, 0]), (0x20, [0, 0, 0, 0x80])] = true := by decide +kernel
/-- V14 by `DIV`. -/
theorem test_div_V14 : gives (step (start { args4 0 32 0x20 32 with qaddr := 0x40 }
      [(0, [0xFF, 0xFF, 0xFF, 0xFF]), (0x20, [0, 0, 1, 0])] 0x00000013))
    0 [(0, [0xFF, 0xFF, 0xFF, 0xFF]), (0x20, [0, 0, 1, 0]), (0x40, [0xFF, 0xFF, 0, 0])] = true := by decide +kernel
/-- V12: a divisor of zero, whatever the dividend. -/
theorem test_div_by_zero_V12 : gives (step (start { args4 0 64 0x20 32 with qaddr := 0x40 }
      [(0, [0, 0, 0, 0, 0, 0, 0, 0]), (0x20, [0, 0, 0, 0])] 0x00000013))
    0x20A [(0, [0, 0, 0, 0, 0, 0, 0, 0]), (0x20, [0, 0, 0, 0])] = true := by decide +kernel
/-- V13: quotient of the dividend's width, remainder of the divisor's. -/
theorem test_divr_V13 : gives (step (start { args4 0 96 0x20 32 with qaddr := 0x40, raddr := 0x60 }
      [(0, [1, 0, 0, 0, 0, 0, 0, 0, 0, 0, 0, 0]), (0x20, [3, 0, 0, 0])] 0x00000014))
    0 [(0, [1, 0, 0, 0, 0, 0, 0, 0, 0, 0, 0, 0]), (0x20, [3, 0, 0, 0]),
       (0x40, [0, 0, 0, 0, 0x55, 0x55, 0x55, 0x55, 0x55, 0x55, 0x55, 0x55]), (0x60, [1, 0, 0, 0])] = true := by decide +kernel
/-- V22: quotient over dividend and remainder over divisor. -/
theorem test_divr_V22 : gives (step (start { args4 0 64 8 64 with raddr := 8 }
      [(0, [0, 0, 0, 0, 100, 0, 0, 0]), (8, [0, 0, 0, 0, 7, 0, 0, 0])] 0x00000014))
    0 [(0, [0, 0, 0, 0, 14, 0, 0, 0]), (8, [0, 0, 0, 0, 2, 0, 0, 0])] = true := by decide +kernel

/-! ### The host port (95_test_vectors.md section 2.10) -/

/-- The state after reset with one host event outstanding. -/
def facing (e : HostEvent) : State := { State.reset with pending := [e] }

/-- The step answers a next state whose port gives this answer. -/
def answers (o : Host.Outcome State Fault Refusal) (r : Response) : Bool :=
  match o with
  | .next t => decide (t.response = r)
  | .fault _ => false
  | .refused _ => false

theorem test_read_registers_H2_H4 : answers (step (facing (.read 0x008 4))) (.data 0x200) = true ∧
    answers (step (facing (.read 0x00C 4))) (.data 0x1000) = true ∧
    answers (step (facing (.read 0x030 4))) (.data 0) = true := by decide
/-- H6: the window is little-endian at every width. -/
theorem test_window_H6 :
    answers (step { facing (.read 0x1000 1) with mem := memOf [(0, [0x44, 0x33, 0x22, 0x11])] }) (.data 0x44) = true ∧
    answers (step { facing (.read 0x1002 2) with mem := memOf [(0, [0x44, 0x33, 0x22, 0x11])] }) (.data 0x1122) = true ∧
    gives (step (facing (.write 0x1000 4 0x11223344))) 0 [(0, [0x44, 0x33, 0x22, 0x11])] = true := by decide
theorem test_bus_errors_H8 : answers (step (facing (.write 0x010 1 0))) .busError = true ∧
    answers (step (facing (.read 0x1002 4))) .busError = true ∧
    answers (step (facing (.read 0x2000 1))) .busError = true := by decide
/-- The `STATUS` values at the end of section 2.9. -/
theorem test_status_write : answers (step { facing (.read 0x004 4) with
      status := { err := 0, wrap := true, sticky := true } }) (.data 0x300) = true ∧
    gives (step { facing (.write 0x004 4 0x200) with status := { err := 0, wrap := true, sticky := true } }) 0x100 [] = true ∧
    gives (step { facing (.write 0x004 4 0xFFFFFDFF) with status := { err := 0, wrap := true, sticky := true } })
      0x300 [] = true := by decide
/-- The adder, subtractor and multiplier cells (section 2.2). -/
theorem test_cells : ladd 0x12345678 0x9ABCDEF0 true = (0xACF13569, false) ∧
    lsub 0x12345678 0x9ABCDEF0 false = (0x77777788, true) ∧
    lmul 0x12345678 0x9ABCDEF0 0x0FEDCBA9 = (0x341AEC29, 0x0B00EA4E) := by decide

/-! ### Witnesses: concrete states and operands that meet the hypotheses of each obligation that has some -/

/-- A state after reset with these registers and bytes and no host event outstanding. -/
def holding (x : Args) (m : List (Nat × List Byte)) : State := { State.reset with args := x, mem := memOf m }

/-- Registers whose operands are as small as R282 allows: 32 bits at 0, at 4, at 8 and at 12. -/
def smallArgs : Args := { args4 0 32 4 32 with qaddr := 8, raddr := 12 }
/-- Registers whose operands end at the last byte of memory, the target as wide as R282 allows (R71, R285). -/
def edgeArgs : Args := { args4 4032 512 4028 32 with qaddr := 3964, raddr := 3960 }
/-- The dividend 7 and the divisor 2. -/
def small : State := holding smallArgs [(0, [7, 0, 0, 0]), (4, [2, 0, 0, 0])]
/-- A divisor of 1 below a dividend that nothing has written. -/
def edge : State := holding edgeArgs [(4028, [1, 0, 0, 0])]
/-- A state in which the host is about to write `w` to `CMD`, `STICKY` clear. -/
def issuing (w : Word) : State := { small with pending := [.write 0x000 4 w] }

/-! Encoding. -/

theorem witness_DecodeOfEncodeIsTheCommand : (Instr.setw true 65535).wellFormed = true ∧
    (Instr.divr false).wellFormed = true := by decide
theorem witness_DecodedWordIsItsEncoding : decode 0xFFFF0109 = .ok (.setw true 65535) := by rfl
/-- One word for each way of selecting no command, one for a command without and one with an immediate. -/
theorem witness_DecodeSelectsByTheFields :
    ((0x00000015 : Word).extractLsb' 0 8 = 0x15 ∧ (0x0000FE08 : Word).extractLsb' 9 7 ≠ 0 ∧
      ((0x00010008 : Word).extractLsb' 0 8 ≠ 0x09 ∧ (0x00010008 : Word).extractLsb' 16 16 ≠ 0)) ∧
    ((0x00000014 : Word).extractLsb' 9 7 = 0 ∧ (0x00000014 : Word).extractLsb' 16 16 = 0 ∧
      (0x00000014 : Word).extractLsb' 0 8 = 0x14) ∧
    ((0xFFFF0009 : Word).extractLsb' 9 7 = 0 ∧ (0xFFFF0009 : Word).extractLsb' 0 8 = 0x09) := by decide
theorem witness_StepRunsTheDecodedCommand : (issuing 0x00000010).pending = .write 0x000 4 0x00000010 :: [] ∧
    decode 0x00000010 = .ok (.add false) ∧ small.pending = [] := ⟨rfl, rfl, rfl⟩

/-! Errors. -/

theorem illegal_word (i : Instr) : decode 0x00000015 ≠ .ok i := by
  have h : decode 0x00000015 = .error .unassignedOpcode := by rfl
  rw [h]; simp
theorem witness_IllegalWordIsRejectedWithCodeOne : (issuing 0x00000015).pending = .write 0x000 4 0x00000015 :: [] ∧
    ∀ i, decode 0x00000015 ≠ .ok i := ⟨rfl, illegal_word⟩
theorem witness_SignedRequestIsRejectedWithCodeTwo : decode 0x00000111 = .ok (.sub true) ∧
    (0x00000111 : Word).getLsbD 8 = true := ⟨rfl, by decide⟩
theorem witness_RejectionChangesOnlyCmdAndStatus : (issuing 0x00000015).pending = .write 0x000 4 0x00000015 :: [] ∧
    ∃ t, step (issuing 0x00000015) = .next t ∧ t.status.err ≠ 0 := ⟨rfl, _, rfl, by decide⟩
theorem witness_ErrorCodesAreThoseOfTheTable : ∃ t, small.issueWord 0x00000111 = .next t := ⟨_, rfl⟩

/-- The registers of the rows of section 2.9 that fail each check and no earlier one. -/
def failing : (k : Nat) → Instr × State
  | 0 => (.add true, holding (args4 0 48 0 0) [])
  | 1 => (.zero false, holding (args4 0 544 0 0) [])
  | 2 => (.rev false, holding { args4 5000 0 0 0 with len := 5 } [])
  | 3 => (.add false, holding (args4 1 32 0 64) [])
  | 4 => (.setw false 4, holding (args4 0 128 0 0) [])
  | 5 => (.add false, holding (args4 1 32 5000 32) [])
  | 6 => (.zero false, holding (args4 4092 64 0 0) [])
  | 7 => (.div false, holding { args4 0 64 16 32 with qaddr := 4 } [(16, [0, 0, 0, 0])])
  | _ => (.div false, holding { args4 0 64 16 32 with qaddr := 32 } [(16, [0, 0, 0, 0])])

/-- Every check of R282 is the first to fail of some command, and some command passes them all. -/
theorem witness_FirstFailingCheckGivesTheError_1 : ∀ i, decode 0x00000015 ≠ .ok i := illegal_word
theorem witness_FirstFailingCheckGivesTheError_2 : decode 0x00000010 = .ok (.add false) := rfl
theorem witness_FirstFailingCheckGivesTheError_3 : ∀ k < 9, ∃ p e, (checks (failing k).1 (failing k).2)[k]? = some (p, e) ∧
    p ∧ ∀ j < k, ∀ q, (checks (failing k).1 (failing k).2)[j]? = some q → ¬q.1 := by
  intro k hk
  interval_cases k <;> refine ⟨_, _, rfl, ?_, fun j hj q hq => ?_⟩ <;>
    try (interval_cases j <;> cases hq)
  all_goals decide
theorem witness_FirstFailingCheckGivesTheError_4 : ∀ q ∈ checks (.divr false) small, ¬q.1 := by
  intro q hq
  simp only [checks, List.mem_cons, List.not_mem_nil, or_false] at hq
  rcases hq with rfl | rfl | rfl | rfl | rfl | rfl | rfl | rfl | rfl
  all_goals decide

/-! Registers. -/

theorem witness_UnlistedRegistersHaveNoEffect :
    (∀ r ∈ registersRead (.add false), ({ smallArgs with qaddr := 1, len := 7 } : Args).get r = small.args.get r) ∧
    ∃ t, exec (.add false) small = .next t := ⟨by decide, _, rfl⟩
theorem witness_ArgumentRegistersHoldWhatTheHostWrites :
    (facing (.write (ArgReg.offset .len) 4 0xDEADBEEF)).pending = .write (ArgReg.offset .len) 4 0xDEADBEEF :: [] ∧
    ArgReg.taddr ≠ .len ∧ (facing (.read (ArgReg.offset .taddr) 4)).pending = .read (ArgReg.offset .taddr) 4 :: [] ∧
    (∃ t, small.issueWord 0x00000014 = .next t) ∧
    ∃ t, step (facing (.write (ArgReg.offset .len) 4 0xDEADBEEF)) = .next t ∧
      t.args.get .len ≠ (facing (.write (ArgReg.offset .len) 4 0xDEADBEEF)).args.get .len :=
  ⟨rfl, by decide, rfl, ⟨_, rfl⟩, _, rfl, by decide⟩
theorem witness_WrapIsCarryOrBorrowAndIsNeverRead : PairReady small ∧ (∃ t, exec (.add false) small = .next t) ∧
    (∃ t, exec (.sub false) small = .next t) ∧
    (∃ t, exec (.sub false) (holding smallArgs [(0, [7, 0, 0, 0]), (4, [8, 0, 0, 0])]) = .next t ∧
      t.status.wrap = true) ∧
    (∀ i, decode 0x00000015 ≠ .ok i) ∧ ∃ t, small.issueWord 0x00000015 = .next t :=
  ⟨by decide, ⟨_, rfl⟩, ⟨_, rfl⟩, ⟨_, rfl, by decide⟩, illegal_word, _, rfl⟩
theorem witness_CmdHoldsTheLastWordWritten : ((issuing 0x00000015).pending = .write 0x000 4 0x00000015 :: [] ∧
    ∃ t, step (issuing 0x00000015) = .next t ∧ t.cmd ≠ (issuing 0x00000015).cmd) ∧
    (facing (.read 0x000 4)).pending = .read 0x000 4 :: [] := ⟨⟨rfl, _, rfl, by decide⟩, rfl⟩
theorem witness_StatusRegisterBehaves : (facing (.read 0x004 4)).pending = .read 0x004 4 :: [] ∧
    (facing (.write 0x004 4 0x200)).pending = .write 0x004 4 0x200 :: [] ∧
    (∃ t, small.issueWord 0x00000111 = .next t) ∧
    ∃ t, step { facing (.write 0x004 4 0x200) with status := { err := 2, wrap := false, sticky := true } } = .next t ∧
      t.status.sticky = false := ⟨rfl, rfl, ⟨_, rfl⟩, _, rfl, by decide⟩
theorem witness_CapabilityRegistersReadTheParameters : (facing (.read 0x008 4)).pending = .read 0x008 4 :: [] ∧
    (facing (.read 0x00C 4)).pending = .read 0x00C 4 :: [] ∧
    (facing (.write 0x008 4 0x55)).pending = .write 0x008 4 0x55 :: [] := ⟨rfl, rfl, rfl⟩
/-- The first and the last reserved offset; the first offset past the window; a 16-bit access to a register. -/
theorem witness_ReservedOffsetsAndBusErrors : ((0x030 : Nat) ≤ 0x030 ∧ (0x030 : Nat) ≤ 0xFFC ∧ 0x030 % 4 = 0) ∧
    ((0x030 : Nat) ≤ 0xFFC ∧ (0xFFC : Nat) ≤ 0xFFC ∧ 0xFFC % 4 = 0) ∧
    (facing (.read 0xFFC 4)).pending = .read 0xFFC 4 :: [] ∧
    (facing (.write 0x030 4 1)).pending = .write 0x030 4 1 :: [] ∧
    0x1000 + small.cfg.memBytes ≤ 0x2000 ∧ ¬PortAllows small.cfg 0x010 2 ∧
    (facing (.read 0x2000 1)).pending = .read 0x2000 1 :: [] ∧
    (facing (.write 0x010 2 0)).pending = .write 0x010 2 0 :: [] :=
  ⟨by decide, by decide, rfl, rfl, by decide, by decide, rfl, rfl⟩

/-! Memory and the port. -/

/-- A place inside a limb and one just past it. -/
theorem witness_LimbsAreLittleEndian : 3 < 4 ∧ ¬InRange (8 + 4 * 1) 4 16 := by decide
theorem witness_ValueIsTheWeightedSumOfLimbs : (512#32).toNat % 32 = 0 := by decide
theorem witness_StoreThenValueReturnsTheNumber : (64#32).toNat % 32 = 0 ∧ 2 ^ 64 - 1 < 2 ^ (64#32).toNat ∧
    InRange 8 ((64#32).toNat / 8) 15 ∧ ¬InRange 8 ((64#32).toNat / 8) 16 := by decide
/-- The last limb of memory, its last byte and its last half. -/
theorem witness_WindowShowsLimbsAsNumbers : 4088 % 4 = 0 ∧ 4088 + 4 * 1 + 4 ≤ small.cfg.memBytes ∧
    (facing (.read (0x1000 + 4088 + 4 * 1) 4)).pending = .read (0x1000 + 4088 + 4 * 1) 4 :: [] ∧
    (facing (.read (0x1000 + 4088 + 4 * 1 + 3) 1)).pending = .read (0x1000 + 4088 + 4 * 1 + 3) 1 :: [] ∧
    (facing (.read (0x1000 + 4088 + 4 * 1 + 2 * 1) 2)).pending = .read (0x1000 + 4088 + 4 * 1 + 2 * 1) 2 :: [] ∧
    (facing (.read (0x1000 + 4088 + 4 * 1) 8)).pending = .read (0x1000 + 4088 + 4 * 1) 8 :: [] :=
  ⟨by decide, by decide, rfl, rfl, rfl, rfl⟩
/-- The first and the last allowed register and window accesses, and accesses just beyond them. -/
theorem witness_PortAllowsExactlyTheAlignedAccesses : small.cfg.wf ∧ PortAllows small.cfg 0x000 4 ∧
    PortAllows small.cfg 0xFFC 4 ∧ PortAllows small.cfg 0x1FFF 1 ∧ PortAllows small.cfg 0x1FFE 2 ∧
    PortAllows small.cfg 0x1FFC 4 ∧ ¬PortAllows small.cfg 0x1FFD 2 ∧ ¬PortAllows small.cfg 0xFFC 2 ∧
    ¬PortAllows small.cfg 0x2000 1 ∧ (facing (.read 0x1FFE 2)).pending = .read 0x1FFE 2 :: [] ∧
    (facing (.write 0x1FFE 2 0xAB)).pending = .write 0x1FFE 2 0xAB :: [] ∧ ¬InRange (0x1FFE - 0x1000) 2 0x1000 :=
  ⟨by decide, by decide, by decide, by decide, by decide, by decide, by decide, by decide, by decide, rfl, rfl, by decide⟩
theorem witness_HostReadsHaveNoSideEffect : (facing (.read 0x1FFF 1)).pending = .read 0x1FFF 1 :: [] := rfl
/-- `SUB` of 2 from 7 changes the byte at 0. -/
theorem witness_OnlyWritesChangeOperandMemory :
    ∃ t, step (issuing 0x00000011) = .next t ∧ t.byteAt 0 ≠ (issuing 0x00000011).byteAt 0 :=
  ⟨_, rfl, by decide +kernel⟩
/-- Memory with another byte listed past the two operands. -/
theorem witness_CommandsReadOnlyTheirBuffers : (∀ b ∈ buffers (.add false) small.args, b.reads = true →
      ∀ a, InRange b.base b.len a →
        State.byteAt { small with mem := memOf [(0, [7, 0, 0, 0]), (4, [2, 0, 0, 0]), (100, [9])] } a = small.byteAt a) ∧
    (∃ t, exec (.add false) small = .next t ∧ t.status.err = 0) ∧ writesTo (.add false) small.args 3 = true := by
  refine ⟨?_, ⟨_, rfl, by decide⟩, by decide⟩
  have hb : buffers (.add false) small.args = [{ base := 0, len := 4, limb := true, reads := true, writes := true },
      { base := 4, len := 4, limb := true, reads := true, writes := false }] := by decide
  rw [hb]
  simp only [List.mem_cons, List.not_mem_nil, or_false, forall_eq_or_imp, forall_eq, InRange]
  refine ⟨fun _ a h => ?_, fun _ a h => ?_⟩
  · obtain ⟨-, h⟩ := h
    interval_cases a <;> rfl
  · obtain ⟨h1, h2⟩ := h
    interval_cases a <;> rfl

/-! The commands: the operands each accepts, at the smallest and at the edge of what is allowed, and for each rejection
operands that reach it. -/

theorem witness_ByteReversalFrame : (∃ t, exec (.rev false) small = .next t) ∧ (∃ t, exec (.revc false) small = .next t) :=
  ⟨⟨_, rfl⟩, _, rfl⟩
theorem witness_TargetCommandsFrame : (∃ t, exec (.bswp false) small = .next t) ∧ (∃ t, exec (.zero false) small = .next t) ∧
    (∃ t, exec (.setw false 0) small = .next t) ∧ (∃ t, exec (.copy false) small = .next t) ∧
    (∃ t, exec (.add false) small = .next t) ∧ (∃ t, exec (.sub false) small = .next t) ∧
    (∃ t, exec (.mul false) small = .next t) := ⟨⟨_, rfl⟩, ⟨_, rfl⟩, ⟨_, rfl⟩, ⟨_, rfl⟩, ⟨_, rfl⟩, ⟨_, rfl⟩, _, rfl⟩
theorem witness_DivisionFrame : (∃ t, exec (.div false) small = .next t) ∧ (∃ t, exec (.divr false) small = .next t) :=
  ⟨⟨_, rfl⟩, _, rfl⟩

/-- Byte reversal of 6 bytes from 0x10, of none at the end of memory, and out of bounds (B1, B2, B4, B5). -/
def revs (t n : Nat) (s : Nat) : State := holding { args4 t 0 s 0 with len := BitVec.ofNat 32 n } []

theorem witness_RevReversesTheBytesInPlace : RevReady (revs 0x10 6 0) ∧ RevReady (revs 4096 0 0) ∧
    (revs 0x10 5 0).args.len.toNat % 2 = 1 ∧ (revs 4097 0 0).args.len.toNat % 2 = 0 ∧
    ¬BytesInside (revs 4097 0 0).cfg (revs 4097 0 0).args.taddr (revs 4097 0 0).args.len := by decide
/-- B7, B9, B8 and a source out of bounds. -/
theorem witness_RevcReversesTheBytesIntoACopy : RevcReady (revs 0x21 4 0x11) ∧ RevcReady (revs 0x10 4 0x10) ∧
    (revs 0 5 0x10).args.len.toNat % 2 = 1 ∧
    ((revs 0 4 4094).args.len.toNat % 2 = 0 ∧
      ¬(BytesInside (revs 0 4 4094).cfg (revs 0 4 4094).args.taddr (revs 0 4 4094).args.len ∧
        BytesInside (revs 0 4 4094).cfg (revs 0 4 4094).args.saddr (revs 0 4 4094).args.len)) ∧
    ((revs 0x12 4 0x10).args.len.toNat % 2 = 0 ∧
      BytesInside (revs 0x12 4 0x10).cfg (revs 0x12 4 0x10).args.taddr (revs 0x12 4 0x10).args.len ∧
      BytesInside (revs 0x12 4 0x10).cfg (revs 0x12 4 0x10).args.saddr (revs 0x12 4 0x10).args.len ∧
      ¬SameOrDisjoint (revs 0x12 4 0x10).args.taddr.toNat (revs 0x12 4 0x10).args.len.toNat
        (revs 0x12 4 0x10).args.saddr.toNat (revs 0x12 4 0x10).args.len.toNat) := by decide

/-- A target alone (E7, E9, E13, E14, E15). -/
def target (t tb : Nat) : State := holding (args4 t tb 0 0) []

theorem witness_BswpReversesTheBytesOfEachLimb : TargetReady (target 0 32) ∧ TargetReady (target 4032 512) ∧
    ¬GoodBits (target 0 0).cfg (target 0 0).args.tbits ∧ ¬GoodBits (target 0 544).cfg (target 0 544).args.tbits ∧
    (GoodBits (target 2 32).cfg (target 2 32).args.tbits ∧ ¬Aligned (target 2 32).args.taddr) ∧
    (GoodBits (target 4092 64).cfg (target 4092 64).args.tbits ∧ Aligned (target 4092 64).args.taddr ∧
      ¬LimbsInside (target 4092 64).cfg (target 4092 64).args.taddr (target 4092 64).args.tbits) := by decide
theorem witness_ReversalsUndoThemselves : RevReady (revs 0x11 2 0) ∧ TargetReady (target 4088 64) ∧
    RevcReady (revs 0x21 4 0x11) ∧ TargetReady (holding { args4 0 64 0 0 with len := 8 } []) ∧
    (holding { args4 0 64 0 0 with len := 8 } []).args.len.toNat =
      (holding { args4 0 64 0 0 with len := 8 } []).args.tbits.toNat / 8 := by decide
theorem witness_ZeroFillsTheTarget : TargetReady (target 4088 64) ∧
    ¬GoodBits (target 0 48).cfg (target 0 48).args.tbits ∧
    (GoodBits (target 2 32).cfg (target 2 32).args.tbits ∧ ¬Aligned (target 2 32).args.taddr) ∧
    (GoodBits (target 4092 64).cfg (target 4092 64).args.tbits ∧ Aligned (target 4092 64).args.taddr ∧
      ¬LimbsInside (target 4092 64).cfg (target 4092 64).args.taddr (target 4092 64).args.tbits) := by decide
/-- W1, W3, W4, and the last offset of the widest target. -/
theorem witness_SetwPlacesTheWordAtItsOffset : 65535 < 65536 ∧ SetwReady 0 (target 0 128) ∧ SetwReady 3 (target 0 128) ∧
    SetwReady 15 (target 4032 512) ∧ ¬GoodBits (target 0 0).cfg (target 0 0).args.tbits ∧
    (GoodBits (target 0 128).cfg (target 0 128).args.tbits ∧ (target 0 128).args.tbits.toNat / 32 ≤ 4) ∧
    (GoodBits (target 2 128).cfg (target 2 128).args.tbits ∧ 3 < (target 2 128).args.tbits.toNat / 32 ∧
      ¬Aligned (target 2 128).args.taddr) ∧
    (GoodBits (target 4092 64).cfg (target 4092 64).args.tbits ∧ 1 < (target 4092 64).args.tbits.toNat / 32 ∧
      Aligned (target 4092 64).args.taddr ∧
      ¬LimbsInside (target 4092 64).cfg (target 4092 64).args.taddr (target 4092 64).args.tbits) := by decide

/-- A pair of operands. -/
def pair (t tb s sb : Nat) : State := holding (args4 t tb s sb) []

/-- What `COPY`, `ADD`, `SUB` and `MUL` accept, and operands that reach each of their rejections. -/
theorem witness_pair : PairReady (pair 0 32 4 32) ∧ PairReady (pair 4032 512 4028 32) ∧ PairReady (pair 0 64 0 64) ∧
    ¬(GoodBits (pair 0 32 8 0).cfg (pair 0 32 8 0).args.tbits ∧ GoodBits (pair 0 32 8 0).cfg (pair 0 32 8 0).args.sbits) ∧
    (GoodBits (pair 1 32 0 64).cfg (pair 1 32 0 64).args.tbits ∧ GoodBits (pair 1 32 0 64).cfg (pair 1 32 0 64).args.sbits ∧
      (pair 1 32 0 64).args.tbits.toNat < (pair 1 32 0 64).args.sbits.toNat) ∧
    (SizesReady (pair 1 32 5000 32) ∧ ¬(Aligned (pair 1 32 5000 32).args.taddr ∧ Aligned (pair 1 32 5000 32).args.saddr)) ∧
    (SizesReady (pair 0 32 4096 32) ∧ Aligned (pair 0 32 4096 32).args.taddr ∧ Aligned (pair 0 32 4096 32).args.saddr ∧
      ¬(LimbsInside (pair 0 32 4096 32).cfg (pair 0 32 4096 32).args.taddr (pair 0 32 4096 32).args.tbits ∧
        LimbsInside (pair 0 32 4096 32).cfg (pair 0 32 4096 32).args.saddr (pair 0 32 4096 32).args.sbits)) ∧
    (SizesReady (pair 0 64 4 32) ∧ Aligned (pair 0 64 4 32).args.taddr ∧ Aligned (pair 0 64 4 32).args.saddr ∧
      LimbsInside (pair 0 64 4 32).cfg (pair 0 64 4 32).args.taddr (pair 0 64 4 32).args.tbits ∧
      LimbsInside (pair 0 64 4 32).cfg (pair 0 64 4 32).args.saddr (pair 0 64 4 32).args.sbits ∧
      ¬SameOrDisjoint (pair 0 64 4 32).args.taddr.toNat (tBytes (pair 0 64 4 32)) (pair 0 64 4 32).args.saddr.toNat
        (sBytes (pair 0 64 4 32))) := by
  constructorm* _ ∧ _ <;> decide +kernel
theorem witness_CopyCopiesTheValue : PairReady (pair 0 128 0x20 64) ∧ InRange 0x20 (64 / 8) 0x27 ∧
    0 < (128 - 64) / 32 ∧ 1 < 64 / 32 := by decide
theorem witness_AddAddsModuloTheWidth : PairReady (pair 4032 512 4028 32) := by decide
theorem witness_LimbWalksAreExact : ([1] : List Word).length ≤ ([0xFFFFFFFF, 0xFFFFFFFF] : List Word).length := by decide
theorem witness_SubSubtractsModuloTheWidth : PairReady (pair 0 64 0 64) := by decide
theorem witness_SubUndoesAdd : PairReady (pair 0 64 8 64) ∧
    Apart (pair 0 64 8 64).args.taddr.toNat ((pair 0 64 8 64).args.tbits.toNat / 8) (pair 0 64 8 64).args.saddr.toNat
      ((pair 0 64 8 64).args.sbits.toNat / 8) := by decide
theorem witness_AccumulateAddsModuloTheWidth : ([0, 0] : List Word).length ≤ 2 := by decide
theorem witness_MulMultipliesModuloTheWidth : PairReady (pair 4032 512 4028 32) := by decide
/-- A step that subtracts, at the least doubled remainder that does, and one that does not. -/
theorem witness_DividerStepKeepsTheRemainderSmall : (6 < 7 ∧ 1 ≤ 1 ∧ 7 ≤ 2 * 6 + 1) ∧ (3 < 7 ∧ 1 ≤ 1 ∧ 7 ≤ 2 * 3 + 1) ∧
    (3 < 7 ∧ 0 ≤ 1 ∧ 2 * 3 + 0 < 7) := by decide
theorem witness_DivBitsGivesQuotientAndRemainder : 1 ≤ 1 ∧ 2 ^ 32 - 1 < 2 ^ 32 := by decide

/-- The operands of a division with no byte listed but the divisor's. -/
def quad (t tb s sb q r : Nat) (d : List Byte) : State :=
  holding { args4 t tb s sb with qaddr := BitVec.ofNat 32 q, raddr := BitVec.ofNat 32 r } [(s, d)]

/-- What `DIV` and `DIVR` accept: apart, at the edge of memory, and the aliased forms V20 and V22. -/
theorem witness_DivrReady : DivrReady small ∧ DivrReady edge ∧
    DivrReady (holding { args4 0 32 0 32 with raddr := 4 } [(0, [9, 0, 0, 0])]) ∧
    DivrReady (holding { args4 0 32 4 32 with raddr := 4 } [(0, [100, 0, 0, 0]), (4, [7, 0, 0, 0])]) := by
  constructorm* _ ∧ _ <;> decide +kernel
theorem witness_DivWritesTheQuotient : DivReady small ∧ DivReady edge ∧
    (DivOperands (quad 0 32 4 32 8 12 [0, 0, 0, 0]) ∧ sVal (quad 0 32 4 32 8 12 [0, 0, 0, 0]) = 0) ∧
    (SizesReady (quad 0 32 4 32 6 0 []) ∧ ¬(Aligned (quad 0 32 4 32 6 0 []).args.taddr ∧
      Aligned (quad 0 32 4 32 6 0 []).args.saddr ∧ Aligned (quad 0 32 4 32 6 0 []).args.qaddr)) := by
  constructorm* _ ∧ _ <;> decide +kernel
/-- A quotient past the end of memory, and one that partly overlaps the dividend (V24). -/
theorem witness_DivWritesTheQuotient_bounds :
    (SizesReady (quad 0 32 4 32 4096 0 []) ∧ Aligned (quad 0 32 4 32 4096 0 []).args.taddr ∧
      Aligned (quad 0 32 4 32 4096 0 []).args.saddr ∧ Aligned (quad 0 32 4 32 4096 0 []).args.qaddr ∧
      ¬LimbsInside (quad 0 32 4 32 4096 0 []).cfg (quad 0 32 4 32 4096 0 []).args.qaddr
        (quad 0 32 4 32 4096 0 []).args.tbits) ∧
    (SizesReady (quad 0 64 16 64 4 0 []) ∧ Aligned (quad 0 64 16 64 4 0 []).args.taddr ∧
      Aligned (quad 0 64 16 64 4 0 []).args.saddr ∧ Aligned (quad 0 64 16 64 4 0 []).args.qaddr ∧
      LimbsInside (quad 0 64 16 64 4 0 []).cfg (quad 0 64 16 64 4 0 []).args.taddr (quad 0 64 16 64 4 0 []).args.tbits ∧
      LimbsInside (quad 0 64 16 64 4 0 []).cfg (quad 0 64 16 64 4 0 []).args.saddr (quad 0 64 16 64 4 0 []).args.sbits ∧
      LimbsInside (quad 0 64 16 64 4 0 []).cfg (quad 0 64 16 64 4 0 []).args.qaddr (quad 0 64 16 64 4 0 []).args.tbits ∧
      ¬DivOperands (quad 0 64 16 64 4 0 [])) := by decide
theorem witness_DivrWritesQuotientAndRemainder : DivrReady small ∧
    (DivrOperands (quad 0 32 4 32 8 12 [0, 0, 0, 0]) ∧ sVal (quad 0 32 4 32 8 12 [0, 0, 0, 0]) = 0) ∧
    (SizesReady (quad 0 32 4 32 8 13 []) ∧ ¬(Aligned (quad 0 32 4 32 8 13 []).args.taddr ∧
      Aligned (quad 0 32 4 32 8 13 []).args.saddr ∧ Aligned (quad 0 32 4 32 8 13 []).args.qaddr ∧
      Aligned (quad 0 32 4 32 8 13 []).args.raddr)) := by
  constructorm* _ ∧ _ <;> decide +kernel
/-- A remainder past the end of memory, and quotient and remainder in one place (V23). -/
theorem witness_DivrWritesQuotientAndRemainder_bounds :
    (SizesReady (quad 0 32 4 32 8 4096 []) ∧ Aligned (quad 0 32 4 32 8 4096 []).args.taddr ∧
      Aligned (quad 0 32 4 32 8 4096 []).args.saddr ∧ Aligned (quad 0 32 4 32 8 4096 []).args.qaddr ∧
      Aligned (quad 0 32 4 32 8 4096 []).args.raddr ∧
      ¬LimbsInside (quad 0 32 4 32 8 4096 []).cfg (quad 0 32 4 32 8 4096 []).args.raddr
        (quad 0 32 4 32 8 4096 []).args.sbits) ∧
    (SizesReady (quad 0 32 4 32 8 8 []) ∧ Aligned (quad 0 32 4 32 8 8 []).args.taddr ∧
      Aligned (quad 0 32 4 32 8 8 []).args.saddr ∧ Aligned (quad 0 32 4 32 8 8 []).args.qaddr ∧
      Aligned (quad 0 32 4 32 8 8 []).args.raddr ∧
      LimbsInside (quad 0 32 4 32 8 8 []).cfg (quad 0 32 4 32 8 8 []).args.taddr (quad 0 32 4 32 8 8 []).args.tbits ∧
      LimbsInside (quad 0 32 4 32 8 8 []).cfg (quad 0 32 4 32 8 8 []).args.saddr (quad 0 32 4 32 8 8 []).args.sbits ∧
      LimbsInside (quad 0 32 4 32 8 8 []).cfg (quad 0 32 4 32 8 8 []).args.qaddr (quad 0 32 4 32 8 8 []).args.tbits ∧
      LimbsInside (quad 0 32 4 32 8 8 []).cfg (quad 0 32 4 32 8 8 []).args.raddr (quad 0 32 4 32 8 8 []).args.sbits ∧
      ¬DivrOperands (quad 0 32 4 32 8 8 [])) := by
  constructorm* _ ∧ _ <;> decide +kernel
theorem witness_QuotientTimesDivisorPlusRemainder : DivrReady small ∧
    Apart small.args.qaddr.toNat (small.args.tbits.toNat / 8) small.args.saddr.toNat (small.args.sbits.toNat / 8) ∧
    Apart small.args.raddr.toNat (small.args.sbits.toNat / 8) small.args.saddr.toNat (small.args.sbits.toNat / 8) := by
  decide +kernel

/-! The assembler, reset and the invariant. -/

theorem witness_AssemblerLinesExpandToHostWrites : 65535 < 65536 ∧
    (AsmLine.setw false 0 32 1 65535).instr.wellFormed = true ∧
    ({ State.reset with pending := (AsmLine.setw false 0 32 1 65535).expand ++ [] } : State).pending =
      (AsmLine.setw false 0 32 1 65535).expand ++ [] ∧
    (facing (.write (ArgReg.offset .tbits) 4 0)).pending =
      .write (ArgReg.offset .tbits) 4 ((facing (.write (ArgReg.offset .tbits) 4 0)).args.get .tbits) :: [] :=
  ⟨by decide, by decide, rfl, rfl⟩
theorem witness_ResetClearsTheRegisters : (facing .reset).pending = .reset :: [] ∧ State.reset.args.tbits = 0 ∧
    (Instr.divr false).signed = false ∧ Instr.divr false ≠ .rev false ∧ Instr.divr false ≠ .revc false ∧
    (∀ r, State.reset.args.get r = 0) ∧ ∃ t, State.reset.issueWord 0x00000001 = .next t :=
  ⟨rfl, rfl, rfl, by decide, by decide, Args.get_reset, _, rfl⟩
/-- `ADD` abandoned: the byte at 4 is its source's, outside what it writes. -/
theorem witness_ResetDuringACommandKeepsOtherBytes :
    ({ small with pending := [.resetDuring 0x00000010] } : State).pending = .resetDuring 0x00000010 :: [] ∧
    ∀ i, decode 0x00000010 = .ok i → writesTo i small.args 4 = false := by
  refine ⟨rfl, fun i h => ?_⟩
  have h' : decode 0x00000010 = .ok (.add false) := rfl
  rw [h'] at h
  cases h
  decide
theorem witness_EveryStepKeepsTheInvariant : Inv (issuing 0x00000011) ∧ ∃ t, step (issuing 0x00000011) = .next t :=
  ⟨by decide, _, rfl⟩

end Sys2Proof.Tests
end

section
/-! The step of the machine and its invariant (00_scope.md R4, R7). The invariant has two parts that no update of the
state mixes: what operand memory lists under the parameters, and what `STATUS` says under `CMD`. Each update gets one
lemma about the part it changes; the effects of an issue, a host write and a step are assembled from them. -/

namespace Sys2Proof

/-- The command of a word has that word as its encoding (R101, R104). -/
theorem encode_of_decode {w : Word} {i : Instr} (h : decode w = .ok i) : encode i = w := by
  obtain ⟨hc, hr, h9⟩ := commandOf_of_decode h
  exact (commandOf_some hc h9).2.trans (formatC_fields hr)

end Sys2Proof

namespace Sys2Proof.Machine

open Sys2Proof.Safety

/-! ### The step runs the decoded command -/

/-- The step after `withFetchWord` issues the given word and leaves the host's other events outstanding. -/
theorem step_withFetchWord (s : State) (w : Word) : step (s.withFetchWord 32 w.toNat) = s.issueWord w := by
  have hw : BitVec.ofNat 32 (w.toNat % 2 ^ 32) = w := by
    rw [Nat.mod_eq_of_lt w.isLt, BitVec.ofNat_toNat, BitVec.setWidth_eq]
  have hp : (s.withFetchWord 32 w.toNat).pending = .write 0x000 4 w :: s.pending := by rw [State.withFetchWord, hw]
  exact step_command hp

/-- Settles O6: a 32-bit write to `CMD` issues its word, and a word that decodes is issued by running its command. -/
theorem stepRunsTheDecodedCommand : Obligations.StepRunsTheDecodedCommand := by
  refine ⟨fun s w rest i hp hd => ?_, fun s w i hd => ?_, fun s hp => step_nil hp⟩
  · exact (step_command hp).trans (State.issueWord_ok hd)
  · exact (step_withFetchWord s w).trans (State.issueWord_ok hd)

/-! ### The two parts of the invariant -/

/-- The parameters are those of R7, and memory is in canonical form and lists only addresses that exist (R60). -/
def StorageLegal (c : Config) (m : Memory) : Prop := c.wf ∧ Memory.wf m ∧ ∀ x ∈ m, x.1 < c.memBytes

/-- `ERR` holds a code of R280, and `WRAP` is set only after an accepted `ADD` or `SUB` whose word is `cmd` (R26, R32). -/
def StatusLegal (st : Status) (cmd : Word) : Prop :=
  st.err.toNat ≤ 10 ∧ (st.wrap = true → st.err = 0 ∧ (cmd = 0x00000010 ∨ cmd = 0x00000011))

theorem inv_iff {s : State} : Inv s ↔ StorageLegal s.cfg s.mem ∧ StatusLegal s.status s.cmd := by
  simp only [Safety.Inv, StorageLegal, StatusLegal, and_assoc]

/-! ### Memory -/

theorem storageLegal_nil {c : Config} (h : c.wf) : StorageLegal c [] := ⟨h, .nil, by simp⟩

theorem storageLegal_putBytes {c : Config} {m : Memory} {a : Nat} {bs : List Byte} (h : StorageLegal c m)
    (hb : a + bs.length ≤ c.memBytes) : StorageLegal c (m.putBytes a bs) := by
  obtain ⟨hc, hwf, hlt⟩ := h
  exact ⟨hc, Memory.wf_putBytes bs a hwf, Memory.below_putBytes bs a hb hlt⟩

theorem storageLegal_putAll {s : State} {ws : List (Nat × List Byte)} (h : StorageLegal s.cfg s.mem)
    (hb : ∀ p ∈ ws, p.1 + p.2.length ≤ s.cfg.memBytes) : StorageLegal s.cfg (s.putAll ws).mem := by
  obtain ⟨hc, hwf, hlt⟩ := h
  exact ⟨hc, State.putAll_wf ws s hwf, State.putAll_below ws s hb hlt⟩

/-- A window access that the port allows ends inside operand memory (R61, R74). -/
theorem window_inside {c : Config} {off size : Nat} (h : windowAccess c off size = true) (v : Word) :
    off - 0x1000 + ((leBytes v).take size).length ≤ c.memBytes := by
  obtain ⟨hbase, hsize, -, hend⟩ := windowAccess_iff.mp h
  rw [leBytes_take_length (by omega)]
  omega

/-! ### `STATUS` -/

theorem statusLegal_reset (cmd : Word) : StatusLegal Status.reset cmd := by simp [StatusLegal, Status.reset]

theorem statusLegal_afterReject (st : Status) (e : CmdError) (cmd : Word) : StatusLegal (st.afterReject e) cmd :=
  ⟨e.code_le, by simp⟩

theorem statusLegal_afterAccept (st : Status) {wrap : Bool} {cmd : Word}
    (h : wrap = true → cmd = 0x00000010 ∨ cmd = 0x00000011) : StatusLegal (st.afterAccept wrap) cmd :=
  ⟨by simp, fun hw => ⟨rfl, h hw⟩⟩

theorem statusLegal_hostWrite {st : Status} {cmd : Word} (h : StatusLegal st cmd) (v : Word) :
    StatusLegal (st.hostWrite v) cmd := by
  simpa only [StatusLegal, Status.hostWrite_err, Status.hostWrite_wrap] using h

/-! ### Issuing a word -/

/-- Whatever `STATUS` held, the effect of the command that `CMD` holds ends in the invariant. -/
theorem inv_of_effect {i : Instr} {s t : State} (hd : decode s.cmd = .ok i) (hm : StorageLegal s.cfg s.mem)
    (he : Effect i s t) : Inv t := by
  cases he with
  | rejected e h => exact h ▸ inv_iff.mpr ⟨hm, statusLegal_afterReject s.status e s.cmd⟩
  | accepted ws wrap _ h inside _ flag =>
    have hcmd : wrap = true → s.cmd = 0x00000010 ∨ s.cmd = 0x00000011 := by
      intro hw
      rw [← encode_of_decode hd]
      exact (flag hw).imp (congrArg encode) (congrArg encode)
    have hmem := storageLegal_putAll hm inside
    rw [h, State.putAll_eq]
    exact inv_iff.mpr ⟨hmem, statusLegal_afterAccept _ hcmd⟩

/-- Whatever `STATUS` and `CMD` held, issuing a word ends in the invariant. -/
theorem inv_of_issueWord {s t : State} {w : Word} (hm : StorageLegal s.cfg s.mem) (h : s.issueWord w = .next t) :
    Inv t := by
  obtain ⟨t', ht', hcases⟩ := s.issueWord_cases w
  obtain rfl : t = t' := by simpa [h] using ht'
  rcases hcases with ⟨-, rfl⟩ | ⟨i, hd, -, he⟩
  · exact inv_iff.mpr ⟨hm, statusLegal_afterReject s.status .illegalCommand w⟩
  · exact inv_of_effect (s := s.withCmd w) hd hm he

/-! ### Host events -/

theorem inv_of_writeEffect {s t : State} {off size : Nat} {v : Word} (hs : Inv s) (he : WriteEffect s off size v t) :
    Inv t := by
  obtain ⟨hm, hst⟩ := inv_iff.mp hs
  cases he with
  | command _ _ h => exact inv_of_issueWord hm h
  | status _ _ h => exact h ▸ inv_iff.mpr ⟨hm, statusLegal_hostWrite hst v⟩
  | argument r _ _ h => exact h ▸ hs
  | ignored _ h => exact h ▸ hs
  | window hw h => exact h ▸ inv_iff.mpr ⟨storageLegal_putBytes hm (window_inside hw v), hst⟩
  | busError _ _ h => exact h ▸ hs

theorem inv_resetRegisters {s : State} (hm : StorageLegal s.cfg s.mem) : Inv s.resetRegisters :=
  inv_iff.mpr ⟨hm, statusLegal_reset _⟩

theorem inv_resetIdle {s : State} (hc : s.cfg.wf) : Inv s.resetIdle :=
  inv_iff.mpr ⟨storageLegal_nil hc, statusLegal_reset _⟩

/-- An abandoned command would have been accepted, so the buffers that take unspecified bytes lie inside memory. -/
theorem inv_resetDuring {s : State} (hm : StorageLegal s.cfg s.mem) (w : Word) : Inv (s.resetDuring w) := by
  rcases s.resetDuring_cases w with h | ⟨i, ws, -, hv, h, hws⟩
  · rw [h]
    exact inv_resetRegisters hm
  · have inside : ∀ p ∈ ws, p.1 + p.2.length ≤ s.cfg.memBytes := by
      intro p hp
      obtain ⟨b, hb, -, hbase, hlen⟩ := hws p hp
      rw [hbase, hlen]
      exact inside_of_validate hv b hb
    have hmem := storageLegal_putAll hm inside
    rw [h, State.putAll_eq]
    exact inv_resetRegisters hmem

/-! ### The invariant at reset and after every step -/

theorem inv_of_stepEffect {s t : State} (hs : Inv s) (he : StepEffect s t) : Inv t := by
  have hm := (inv_iff.mp hs).1
  cases he with
  | idle _ ht => exact ht ▸ hs
  | read _ _ rest r _ ht => exact ht ▸ hs
  | write off size v rest _ ht => exact inv_of_writeEffect (s := { s with pending := rest }) hs ht
  | reset rest _ ht => exact ht ▸ inv_resetIdle hm.1
  | resetDuring w rest _ ht => exact ht ▸ inv_resetDuring (s := { s with pending := rest }) hm w

/-- Settles O58: a command is rejected or writes inside memory and is accepted, a host access to the window ends inside
it, and the resets clear `STATUS`; only an accepted `ADD` or `SUB` sets `WRAP`, and `CMD` then holds that command's encoding. -/
theorem everyStepKeepsTheInvariant : Obligations.EveryStepKeepsTheInvariant :=
  fun _ _ hs h => inv_of_stepEffect hs (effect_of_step h)

/-- Settles O57: the default parameters are legal, no byte is written and `STATUS` is clear. -/
theorem resetMeetsTheInvariant : Obligations.ResetMeetsTheInvariant :=
  inv_iff.mpr ⟨storageLegal_nil (by decide), statusLegal_reset _⟩

end Sys2Proof.Machine
end

section
/-! The registers of the block (10_state.md R20 to R35): what an access to a register offset does, what issuing a word
leaves alone, and, from these, everything a step can do to the argument registers, `CMD` and `STATUS`. -/

namespace Sys2Proof.Machine

open Sys2Proof.Safety

/-! ### Accesses to registers (R30, R74) -/

/-- A 32-bit read at a register offset answers what the register holds (R22, R31 to R35). -/
theorem step_readRegister {s : State} {off : Nat} {rest : List HostEvent} (hr : registerAccess off 4 = true)
    (h : s.pending = .read off 4 :: rest) :
    step s = .next { s with pending := rest, response := .data (s.readRegister (portReg off)) } := by
  rw [step_read h, State.hostRead, if_pos hr]
  cases portReg off <;> rfl

/-- A 32-bit write at a register offset is that register's write (R22, R31 to R35). -/
theorem step_writeRegister {s : State} {off : Nat} {v : Word} {rest : List HostEvent} (hr : registerAccess off 4 = true)
    (h : s.pending = .write off 4 v :: rest) :
    step s = State.writeRegister { s with pending := rest } v (portReg off) := by
  rw [step_write h, State.hostWrite, if_pos hr]

/-- The offsets above the argument registers are reserved (R35). -/
theorem portReg_reserved {off : Nat} (h : 0x030 ≤ off) : portReg off = .reserved := by
  unfold portReg
  split
  case h_13 => rfl
  all_goals omega

/-! ### Accesses the port refuses (R74) -/

/-- What the port performs, it is allowed to perform, whatever the parameters. -/
theorem access_refused {c : Config} {off size : Nat} (h : ¬PortAllows c off size) :
    registerAccess off size = false ∧ windowAccess c off size = false := by
  simp only [← Bool.not_eq_true, registerAccess_iff, windowAccess_iff]
  refine ⟨fun hr => h (.inl hr), ?_⟩
  rintro ⟨hbase, hsize, halign, hend⟩
  refine h (.inr ⟨hbase, by omega, ?_⟩)
  rcases hsize with rfl | rfl | rfl
  · exact .inl rfl
  · exact .inr (.inl ⟨rfl, halign⟩)
  · exact .inr (.inr ⟨rfl, halign⟩)

theorem not_portAllows_beyond {c : Config} {off size : Nat} (h : 0x1000 + c.memBytes ≤ off) :
    ¬PortAllows c off size := by
  rintro (⟨hoff, -, -⟩ | ⟨-, hoff, -⟩) <;> omega

theorem step_read_refused {s : State} {off size : Nat} {rest : List HostEvent} (h : ¬PortAllows s.cfg off size)
    (hp : s.pending = .read off size :: rest) : step s = .next { s with pending := rest, response := .busError } := by
  obtain ⟨hr, hw⟩ := access_refused h
  simp [step_read hp, State.hostRead, hr, hw]

theorem step_write_refused {s : State} {off size : Nat} {v : Word} {rest : List HostEvent}
    (h : ¬PortAllows s.cfg off size) (hp : s.pending = .write off size v :: rest) :
    step s = .next { s with pending := rest, response := .busError } := by
  obtain ⟨hr, hw⟩ := access_refused h
  simp [step_write hp, State.hostWrite, hr, hw]

/-- Settles O19: the two offsets are read-only registers of the map, and the default parameters are R7's. -/
theorem capabilityRegistersReadTheParameters : Obligations.CapabilityRegistersReadTheParameters := by
  refine ⟨fun s rest => step_readRegister rfl, fun s rest => step_readRegister rfl, fun s v rest h => ?_, rfl⟩
  rcases h with h | h <;> exact step_writeRegister rfl h

/-- Settles O20: the reserved offsets are registers that hold 0 and ignore writes, and no access that the port refuses
reaches a register or the window. -/
theorem reservedOffsetsAndBusErrors : Obligations.ReservedOffsetsAndBusErrors := by
  refine ⟨fun s off rest hlo hhi halign => ?_, fun s off size rest h => ?_⟩
  · have hr : registerAccess off 4 = true := registerAccess_iff.mpr ⟨by omega, rfl, halign⟩
    refine ⟨fun h => ?_, fun v h => ?_⟩
    · rw [step_readRegister hr h, portReg_reserved hlo]; rfl
    · rw [step_writeRegister hr h, portReg_reserved hlo]; rfl
  · have hna : ¬PortAllows s.cfg off size := h.elim not_portAllows_beyond id
    exact ⟨step_read_refused hna, fun v => step_write_refused hna⟩

/-! ### What an issue leaves alone (R22, R31, R32, R281) -/

/-- A rejection leaves all of memory and every register but `STATUS` alone (R281). -/
theorem frame_reject (s : State) (e : CmdError) (written : Nat → Prop) : Frame s (s.reject e) written :=
  ⟨⟨rfl, rfl, rfl, rfl, rfl, rfl, rfl⟩, fun h => absurd h e.code_ne_zero, fun _ _ => rfl, fun _ _ => rfl⟩

/-- Issuing a word stores only to the buffers that R111 lists as written by its command. -/
theorem frame_of_issueWord {s t : State} {w : Word} (h : s.issueWord w = .next t) :
    Frame (s.withCmd w) t (fun a => ∃ i, decode w = .ok i ∧ writesTo i s.args a = true) := by
  obtain ⟨t', ht', hcases⟩ := s.issueWord_cases w
  obtain rfl : t = t' := by simpa [h] using ht'
  rcases hcases with ⟨-, rfl⟩ | ⟨i, hd, -, he⟩
  · exact frame_reject _ _ _
  · exact he.frame fun a ha => ⟨i, hd, ha⟩

theorem issueWord_args {s t : State} {w : Word} (h : s.issueWord w = .next t) : t.args = s.args := by
  obtain ⟨⟨-, hargs, -⟩, -⟩ := frame_of_issueWord h
  exact hargs

theorem issueWord_cmd {s t : State} {w : Word} (h : s.issueWord w = .next t) : t.cmd = w := by
  obtain ⟨⟨-, -, hcmd, -⟩, -⟩ := frame_of_issueWord h
  exact hcmd

theorem Effect.status_cases {i : Instr} {s t : State} (h : Effect i s t) :
    (∃ e, t.status = s.status.afterReject e) ∨ ∃ wrap, t.status = s.status.afterAccept wrap := by
  cases h with
  | rejected e h => exact .inl ⟨e, h ▸ rfl⟩
  | accepted ws wrap _ h => exact .inr ⟨wrap, by rw [h, State.putAll_eq]; rfl⟩

/-- What issuing a word leaves in `STATUS` (R26, R31, R281). -/
theorem issueWord_status_cases {s t : State} {w : Word} (h : s.issueWord w = .next t) :
    (∃ e, t.status = s.status.afterReject e) ∨ ∃ wrap, t.status = s.status.afterAccept wrap := by
  obtain ⟨t', ht', hcases⟩ := s.issueWord_cases w
  obtain rfl : t = t' := by simpa [h] using ht'
  rcases hcases with ⟨-, rfl⟩ | ⟨i, -, -, he⟩
  · exact .inl ⟨_, rfl⟩
  · exact he.status_cases

/-! ### What a step does to the registers -/

/-- Everything a step can do to the argument registers, `CMD` and `STATUS`. -/
inductive RegisterEffect (s t : State) : Prop where
  | unchanged (hargs : t.args = s.args) (hcmd : t.cmd = s.cmd) (hstatus : t.status = s.status)
  | command (w : Word) (rest : List HostEvent) (hp : s.pending = .write 0x000 4 w :: rest) (hargs : t.args = s.args)
      (hcmd : t.cmd = w)
      (hstatus : (∃ e, t.status = s.status.afterReject e) ∨ ∃ wrap, t.status = s.status.afterAccept wrap)
  | status (v : Word) (rest : List HostEvent) (hp : s.pending = .write 0x004 4 v :: rest) (hargs : t.args = s.args)
      (hcmd : t.cmd = s.cmd) (hstatus : t.status = s.status.hostWrite v)
  | argument (r : ArgReg) (v : Word) (rest : List HostEvent) (hp : s.pending = .write r.offset 4 v :: rest)
      (hargs : t.args = s.args.set r v) (hcmd : t.cmd = s.cmd) (hstatus : t.status = s.status)
  | reset (rest : List HostEvent) (hp : s.pending = .reset :: rest ∨ ∃ w, s.pending = .resetDuring w :: rest)

/-- A host write changes a register only at that register's offset (R31 to R35). -/
theorem registerEffect_of_write {s t : State} {off size : Nat} {v : Word} {rest : List HostEvent}
    (hp : s.pending = .write off size v :: rest) (he : WriteEffect { s with pending := rest } off size v t) :
    RegisterEffect s t := by
  cases he with
  | command ho hs h =>
    subst ho hs
    have hargs := issueWord_args h
    have hstatus := issueWord_status_cases h
    exact .command v rest hp hargs (issueWord_cmd h) hstatus
  | status ho hs h =>
    subst ho hs h
    exact .status v rest hp rfl rfl rfl
  | argument r ho hs h =>
    obtain rfl := portReg_arg_iff.mp ho
    subst hs h
    exact .argument r v rest hp rfl rfl rfl
  | ignored _ h => subst h; exact .unchanged rfl rfl rfl
  | window _ h => subst h; exact .unchanged rfl rfl rfl
  | busError _ _ h => subst h; exact .unchanged rfl rfl rfl

theorem registerEffect_of_step {s t : State} (h : step s = .next t) : RegisterEffect s t := by
  cases effect_of_step h with
  | idle _ ht => subst ht; exact .unchanged rfl rfl rfl
  | read _ _ _ _ _ ht => subst ht; exact .unchanged rfl rfl rfl
  | write _ _ _ _ hp he => exact registerEffect_of_write hp he
  | reset rest hp _ => exact .reset rest (.inl hp)
  | resetDuring w rest hp _ => exact .reset rest (.inr ⟨w, hp⟩)

/-! ### The argument registers (R22, R23) -/

/-- A step that changes an argument register is a write of its new value at its offset, or a reset. -/
theorem event_of_args_change {s t : State} {r : ArgReg} (h : step s = .next t) (hne : t.args.get r ≠ s.args.get r) :
    ∃ rest, s.pending = .write r.offset 4 (t.args.get r) :: rest ∨ s.pending = .reset :: rest ∨
      ∃ w, s.pending = .resetDuring w :: rest := by
  cases registerEffect_of_step h with
  | unchanged hargs _ _ => exact absurd (congrArg (·.get r) hargs) hne
  | command _ _ _ hargs _ _ => exact absurd (congrArg (·.get r) hargs) hne
  | status _ _ _ hargs _ _ => exact absurd (congrArg (·.get r) hargs) hne
  | reset rest hp => exact ⟨rest, .inr hp⟩
  | argument r' v rest hp hargs _ _ =>
    rw [hargs, Args.get_set] at hne
    obtain rfl : r = r' := by
      by_contra hr
      exact hne (if_neg hr)
    exact ⟨rest, .inl (by rw [hp, hargs, Args.get_set, if_pos rfl])⟩

/-- Settles O15: an argument register is what the map has at its offset, and issuing a word changes none. -/
theorem argumentRegistersHoldWhatTheHostWrites : Obligations.ArgumentRegistersHoldWhatTheHostWrites := by
  refine ⟨fun s r v rest h => ?_, fun s r rest h => ?_, Args.get_reset, fun s t w => issueWord_args,
    fun s t r => event_of_args_change⟩
  · refine ⟨{ s with pending := rest, response := .done, args := s.args.set r v }, ?_, ?_, fun r' hr => ?_, rfl⟩
    · rw [step_writeRegister (registerAccess_offset r) h, portReg_offset]; rfl
    · simp
    · simp [hr]
  · rw [step_readRegister (registerAccess_offset r) h, portReg_offset]; rfl

/-! ### `CMD` (R31) -/

/-- A step that changes `CMD` is a write of its new value to it, or a reset. -/
theorem event_of_cmd_change {s t : State} (h : step s = .next t) (hne : t.cmd ≠ s.cmd) :
    ∃ rest, s.pending = .write 0x000 4 t.cmd :: rest ∨ s.pending = .reset :: rest ∨
      ∃ w, s.pending = .resetDuring w :: rest := by
  cases registerEffect_of_step h with
  | unchanged _ hcmd _ => exact absurd hcmd hne
  | command w rest hp _ hcmd _ => exact ⟨rest, .inl (by rw [hp, hcmd])⟩
  | status _ _ _ _ hcmd _ => exact absurd hcmd hne
  | argument _ _ _ _ _ hcmd _ => exact absurd hcmd hne
  | reset rest hp => exact ⟨rest, .inr hp⟩

/-- Settles O17: issuing a word leaves it in `CMD`, and `CMD` is the register at offset 0. -/
theorem cmdHoldsTheLastWordWritten : Obligations.CmdHoldsTheLastWordWritten := by
  refine ⟨fun s t w rest hp h => ?_, fun s rest => step_readRegister rfl, fun s t => event_of_cmd_change⟩
  rw [step_command hp] at h
  exact issueWord_cmd h

/-! ### `STATUS` (R26, R32) -/

/-- The fields of the word a read of `STATUS` returns stand where R32 says. -/
theorem Status.word_fields (st : Status) : st.word.extractLsb' 0 8 = st.err ∧ st.word.getLsbD 8 = st.wrap ∧
    st.word.getLsbD 9 = st.sticky ∧ st.word.extractLsb' 10 22 = 0 := by
  refine ⟨BitVec.eq_of_getLsbD_eq fun i hi => ?_, ?_, ?_, BitVec.eq_of_getLsbD_eq fun i hi => ?_⟩ <;>
    simp only [Status.word, BitVec.getLsbD_extractLsb', BitVec.getLsbD_append]
  · simp [hi]
  · simp
  · simp
  · have hlow : ¬ 10 + i < 8 := by omega
    have hwrap : ¬ 10 + i - 8 < 1 := by omega
    have hsticky : ¬ 10 + i - 8 - 1 < 1 := by omega
    simp [hlow, hwrap, hsticky]

theorem Status.hostWrite_eq (st : Status) (v : Word) :
    st.hostWrite v = { st with sticky := st.sticky && !v.getLsbD 9 } := by
  rw [← Status.hostWrite_sticky, ← Status.hostWrite_err st v, ← Status.hostWrite_wrap st v]

/-- A step that clears `STICKY` is a write to `STATUS` with bit 9 set, or a reset. -/
theorem event_of_sticky_cleared {s t : State} (h : step s = .next t) (hs : s.status.sticky = true)
    (ht : t.status.sticky = false) :
    ∃ rest, (∃ v : Word, v.getLsbD 9 = true ∧ s.pending = .write 0x004 4 v :: rest) ∨ s.pending = .reset :: rest ∨
      ∃ w, s.pending = .resetDuring w :: rest := by
  have hne : t.status ≠ s.status := fun he => by simp [he, hs] at ht
  cases registerEffect_of_step h with
  | unchanged _ _ hstatus => exact absurd hstatus hne
  | argument _ _ _ _ _ _ hstatus => exact absurd hstatus hne
  | reset rest hp => exact ⟨rest, .inr hp⟩
  | status v rest hp _ _ hstatus =>
    have hbit : v.getLsbD 9 = true := by simpa [hstatus, Status.hostWrite_sticky, hs] using ht
    exact ⟨rest, .inl ⟨v, hbit, hp⟩⟩
  | command _ _ _ _ _ hstatus =>
    rcases hstatus with ⟨e, hstatus⟩ | ⟨wrap, hstatus⟩
    · simp [hstatus] at ht
    · simp [hstatus, hs] at ht

/-- Settles O18: what an issue leaves in `STATUS` is what a rejection or an acceptance writes. -/
theorem statusRegisterBehaves : Obligations.StatusRegisterBehaves := by
  refine ⟨Status.word_fields, fun s rest => step_readRegister rfl, fun s v rest h => ?_, fun s t w h => ?_,
    fun s t => event_of_sticky_cleared, rfl⟩
  · rw [step_writeRegister rfl h, ← Status.hostWrite_eq]; rfl
  · rcases issueWord_status_cases h with ⟨e, he⟩ | ⟨wrap, he⟩
    · rw [he]; exact ⟨e.code_le, .inl ⟨e, rfl⟩⟩
    · rw [he]; exact ⟨Nat.zero_le _, .inr ⟨wrap, rfl⟩⟩

end Sys2Proof.Machine
end

section
/-! Where the commands store, what they compute from, and what reset leaves (10_state.md R21, R22, R26, R39). -/

namespace Sys2Proof.Machine

open Sys2Proof.Safety

/-! ### The frames of the commands (R111) -/

/-- What a command leaves alone: everything but `STATUS` and the buffers R111 lists as written. -/
theorem frame_of_exec {i : Instr} {s t : State} (h : exec i s = .next t) {written : Nat → Prop}
    (hw : ∀ a, writesTo i s.args a = true → written a) : Frame s t written :=
  (effect_of_exec h).frame hw

/-- An address that a command writes lies in a buffer that it writes. -/
theorem writesTo_iff {i : Instr} {x : Args} {a : Nat} :
    writesTo i x a = true ↔ ∃ b ∈ buffers i x, b.writes = true ∧ InRange b.base b.len a := by
  simp [writesTo, Buffer.covers, InRange]

/-- Settles O29: the one buffer that either command writes is the `LEN` bytes at `TADDR`. -/
theorem byteReversalFrame : Obligations.ByteReversalFrame := by
  rintro signed s t (h | h) <;>
    exact frame_of_exec h fun a ha => by simpa [writesTo_iff, buffers, byteBuffer] using ha

/-- Settles O30: the one buffer that each of these commands writes is the target. -/
theorem targetCommandsFrame : Obligations.TargetCommandsFrame := by
  intro i signed offs s t hi h
  refine frame_of_exec h fun a ha => ?_
  rcases hi with rfl | rfl | rfl | rfl | rfl | rfl | rfl <;>
    simpa [writesTo_iff, buffers, limbBuffer, byteCount] using ha

/-- Settles O31: `DIV` writes the quotient's buffer, and `DIVR` the remainder's besides. -/
theorem divisionFrame : Obligations.DivisionFrame := by
  refine fun signed s t => ⟨fun h => frame_of_exec h fun a ha => ?_, fun h => frame_of_exec h fun a ha => ?_⟩
  · simpa [writesTo_iff, buffers, limbBuffer, byteCount] using ha
  · simpa [writesTo_iff, buffers, limbBuffer, byteCount] using ha

/-! ### What a command computes from (R21, R26) -/

/-- How a command ends: the error that rejects it, or the memory it leaves and `WRAP`. -/
abbrev Verdict := Except CmdError (Memory × Bool)

/-- The state that the verdict makes of the one the command was issued in (R31, R281). -/
def State.conclude (s : State) : Verdict → State
  | .error e => s.reject e
  | .ok (m, wrap) => State.accept { s with mem := m } wrap

/-- A command that leaves the same memory and the same `WRAP` in both states ends the same way. -/
theorem verdict_of_mem {i : Instr} {s s' u u' : State} {wrap : Bool} (hu : u = { s with mem := u.mem })
    (hu' : u' = { s' with mem := u'.mem }) (hm : u'.mem = u.mem) (e : exec i s = .next (u.accept wrap))
    (e' : exec i s' = .next (u'.accept wrap)) :
    ∃ v, exec i s = .next (s.conclude v) ∧ exec i s' = .next (s'.conclude v) :=
  ⟨.ok (u.mem, wrap), by rw [e, hu]; rfl, by rw [e', hu', hm]; rfl⟩

/-- A command's buffers are placed by the registers that it reads (R111). -/
theorem buffers_congr {i : Instr} {x y : Args} (h : ∀ r ∈ registersRead i, x.get r = y.get r) :
    buffers i x = buffers i y := by
  cases i <;> simp only [registersRead, Args.get, List.forall_mem_cons] at h <;> simp [buffers, h]

/-- The two states agree on all that the command may compute from: the parameters, operand memory, and the argument
registers R111 lists for it. -/
structure SameOperands (i : Instr) (s s' : State) : Prop where
  cfg : s'.cfg = s.cfg
  mem : s'.mem = s.mem
  resets : s'.resets = s.resets
  args : ∀ r ∈ registersRead i, s'.args.get r = s.args.get r

namespace SameOperands

variable {i : Instr} {s s' : State} (h : SameOperands i s s')
include h

theorem reg {r : ArgReg} (hu : uses i r = true) : s'.args.get r = s.args.get r :=
  h.args r (List.contains_iff_mem.mp hu)

theorem taddr (hu : uses i .taddr = true) : s'.args.taddr = s.args.taddr := h.reg hu
theorem tbits (hu : uses i .tbits = true) : s'.args.tbits = s.args.tbits := h.reg hu
theorem saddr (hu : uses i .saddr = true) : s'.args.saddr = s.args.saddr := h.reg hu
theorem sbits (hu : uses i .sbits = true) : s'.args.sbits = s.args.sbits := h.reg hu
theorem qaddr (hu : uses i .qaddr = true) : s'.args.qaddr = s.args.qaddr := h.reg hu
theorem raddr (hu : uses i .raddr = true) : s'.args.raddr = s.args.raddr := h.reg hu
theorem word (hu : uses i .word = true) : s'.args.word = s.args.word := h.reg hu
theorem len (hu : uses i .len = true) : s'.args.len = s.args.len := h.reg hu

theorem byteAt (a : Nat) : s'.byteAt a = s.byteAt a := by
  simp only [State.byteAt, State.unwrittenByte, h.mem, h.resets]

theorem bytesAt (a n : Nat) : s'.bytesAt a n = s.bytesAt a n := State.bytesAt_congr n a fun _ _ => h.byteAt _

theorem tLimbs (ht : uses i .taddr = true) (hb : uses i .tbits = true) : tLimbs s' = tLimbs s := by
  rw [Machine.tLimbs, h.taddr ht, h.tbits hb]
  exact State.limbsAt_congr fun _ _ => h.byteAt _

theorem sLimbs (hs : uses i .saddr = true) (hb : uses i .sbits = true) : sLimbs s' = sLimbs s := by
  rw [Machine.sLimbs, h.saddr hs, h.sbits hb]
  exact State.limbsAt_congr fun _ _ => h.byteAt _

theorem tVal (ht : uses i .taddr = true) (hb : uses i .tbits = true) : tVal s' = tVal s :=
  congrArg limbsVal (h.tLimbs ht hb)

theorem sVal (hs : uses i .saddr = true) (hb : uses i .sbits = true) : sVal s' = sVal s :=
  congrArg limbsVal (h.sLimbs hs hb)

/-- Validation looks at the registers that the command reads and at the parameters (R282). -/
theorem validate : validate i s' = validate i s := by
  have hargs := h.args
  simp only [Machine.validate, h.cfg, buffers_congr hargs]
  cases i <;> simp only [registersRead, Args.get, List.forall_mem_cons] at hargs <;>
    simp [uses, registersRead, limbOffset, hargs]

/-- The command writes the same bytes at the same address in both states. -/
theorem verdict_of_write {a : Nat} {bs : List Byte} {wrap : Bool}
    (e : exec i s = .next ((s.putBytes a bs).accept wrap)) (e' : exec i s' = .next ((s'.putBytes a bs).accept wrap)) :
    ∃ v, exec i s = .next (s.conclude v) ∧ exec i s' = .next (s'.conclude v) :=
  verdict_of_mem rfl rfl (congrArg (Memory.putBytes · a bs) h.mem) e e'

/-- The outcome of a command is fixed by its operands: with the same operands it ends the same way. -/
theorem verdict : ∃ v, exec i s = .next (s.conclude v) ∧ exec i s' = .next (s'.conclude v) := by
  cases hv : Machine.validate i s with
  | some e => exact ⟨.error e, exec_invalid hv, exec_invalid (h.validate.trans hv)⟩
  | none =>
    have hv' := h.validate.trans hv
    have hs : i.signed = false := (validate_none hv).1
    cases i with
    | rev b =>
      obtain rfl : b = false := hs
      have e' := execRev_ready ((validate_rev s').mp hv')
      rw [h.bytesAt, h.taddr rfl, h.len rfl] at e'
      exact h.verdict_of_write (execRev_ready ((validate_rev s).mp hv)) e'
    | revc b =>
      obtain rfl : b = false := hs
      have e' := execRevc_ready ((validate_revc s').mp hv')
      rw [h.bytesAt, h.taddr rfl, h.saddr rfl, h.len rfl] at e'
      exact h.verdict_of_write (execRevc_ready ((validate_revc s).mp hv)) e'
    | bswp b =>
      obtain rfl : b = false := hs
      have e' := execBswp_ready ((validate_bswp s').mp hv')
      rw [h.bytesAt, h.taddr rfl, h.tbits rfl] at e'
      exact h.verdict_of_write (execBswp_ready ((validate_bswp s).mp hv)) e'
    | zero b =>
      obtain rfl : b = false := hs
      have e' := execZero_ready ((validate_zero s').mp hv')
      rw [h.taddr rfl, h.tbits rfl] at e'
      exact h.verdict_of_write (execZero_ready ((validate_zero s).mp hv)) e'
    | setw b offs =>
      obtain rfl : b = false := hs
      have e' := execSetw_ready ((validate_setw offs s').mp hv')
      rw [h.taddr rfl, h.tbits rfl, h.word rfl] at e'
      exact h.verdict_of_write (execSetw_ready ((validate_setw offs s).mp hv)) e'
    | copy b =>
      obtain rfl : b = false := hs
      have e' := execCopy_ready ((validate_copy s').mp hv')
      rw [h.sLimbs rfl rfl, h.taddr rfl, h.tbits rfl] at e'
      exact h.verdict_of_write (execCopy_ready ((validate_copy s).mp hv)) e'
    | add b =>
      obtain rfl : b = false := hs
      have e' := execAdd_ready ((validate_add s').mp hv')
      rw [h.tLimbs rfl rfl, h.sLimbs rfl rfl, h.taddr rfl] at e'
      exact h.verdict_of_write (execAdd_ready ((validate_add s).mp hv)) e'
    | sub b =>
      obtain rfl : b = false := hs
      have e' := execSub_ready ((validate_sub s').mp hv')
      rw [h.tLimbs rfl rfl, h.sLimbs rfl rfl, h.taddr rfl] at e'
      exact h.verdict_of_write (execSub_ready ((validate_sub s).mp hv)) e'
    | mul b =>
      obtain rfl : b = false := hs
      have e' := execMul_ready ((validate_mul s').mp hv')
      rw [h.tLimbs rfl rfl, h.sLimbs rfl rfl, h.taddr rfl] at e'
      exact h.verdict_of_write (execMul_ready ((validate_mul s).mp hv)) e'
    | div b =>
      obtain rfl : b = false := hs
      have hd := (validate_div s).mp hv
      have hd' := (validate_div s').mp hv'
      have hsv := h.sVal rfl rfl
      by_cases h0 : Safety.sVal s = 0
      · exact ⟨.error .divideByZero, execDiv_zero hd h0, execDiv_zero hd' (hsv.trans h0)⟩
      · have e' := execDiv_ready ⟨hd', by rwa [hsv]⟩
        rw [hsv, h.tVal rfl rfl, h.qaddr rfl, h.tbits rfl] at e'
        exact h.verdict_of_write (execDiv_ready ⟨hd, h0⟩) e'
    | divr b =>
      obtain rfl : b = false := hs
      have hd := (validate_divr s).mp hv
      have hd' := (validate_divr s').mp hv'
      have hsv := h.sVal rfl rfl
      by_cases h0 : Safety.sVal s = 0
      · exact ⟨.error .divideByZero, execDivr_zero hd h0, execDivr_zero hd' (hsv.trans h0)⟩
      · have e' := execDivr_ready ⟨hd', by rwa [hsv]⟩
        rw [hsv, h.tVal rfl rfl, h.qaddr rfl, h.tbits rfl, h.raddr rfl, h.sbits rfl] at e'
        exact verdict_of_mem rfl rfl (by simp only [State.putBytes_mem, h.mem]) (execDivr_ready ⟨hd, h0⟩) e'

end SameOperands

/-- Settles O14: the registers R111 does not list are no operands, so both states end by one verdict, and a verdict touches
no argument register. -/
theorem unlistedRegistersHaveNoEffect : Obligations.UnlistedRegistersHaveNoEffect := by
  intro i s t x hx h
  have hsame : SameOperands i s { s with args := x } := ⟨rfl, rfl, rfl, hx⟩
  obtain ⟨v, hs, hs'⟩ := hsame.verdict
  obtain rfl : t = s.conclude v := by simpa [h] using hs
  rw [hs']
  cases v <;> rfl

/-! ### `WRAP` (R26) -/

theorem wrap_of_add {s t : State} (hr : PairReady s) (h : exec (.add false) s = .next t) :
    t.status.wrap = true ↔ 2 ^ s.args.tbits.toNat ≤ tVal s + sVal s := by
  obtain ⟨⟨htb, -, hle⟩, -⟩ := id hr
  have hcarry := addLimbs_carry (sLimbs_le_tLimbs hle)
  rw [State.length_limbsAt, bits_limbCount htb] at hcarry
  obtain rfl : _ = t := by simpa [execAdd_ready hr] using h
  exact hcarry

theorem wrap_of_sub {s t : State} (hr : PairReady s) (h : exec (.sub false) s = .next t) :
    t.status.wrap = true ↔ tVal s < sVal s := by
  obtain rfl : _ = t := by simpa [execSub_ready hr] using h
  exact subLimbs_borrow (sLimbs_le_tLimbs hr.1.2.2)

/-- Only an accepted `ADD` or `SUB` sets `WRAP`. -/
theorem accepted_of_wrap {i : Instr} {s t : State} (h : exec i s = .next t) (hw : t.status.wrap = true) :
    t.status.err = 0 ∧ (i = .add false ∨ i = .sub false) := by
  cases effect_of_exec h with
  | rejected e ht => simp [ht] at hw
  | accepted ws wrap _ ht _ _ flag =>
    subst ht
    exact ⟨rfl, flag hw⟩

/-- `WRAP` is no operand, and either way of ending a command replaces it. -/
theorem exec_wrap_irrelevant (i : Instr) (s : State) (b : Bool) :
    exec i { s with status := { s.status with wrap := b } } = exec i s := by
  have hsame : SameOperands i s { s with status := { s.status with wrap := b } } := ⟨rfl, rfl, rfl, fun _ _ => rfl⟩
  obtain ⟨v, hs, hs'⟩ := hsame.verdict
  rw [hs, hs']
  cases v <;> rfl

/-- Settles O16: the carry and the borrow are those of the exact sum and difference; no other ending sets `WRAP`. -/
theorem wrapIsCarryOrBorrowAndIsNeverRead : Obligations.WrapIsCarryOrBorrowAndIsNeverRead := by
  refine ⟨fun s t => wrap_of_add, fun s t => wrap_of_sub, fun i s t => accepted_of_wrap, fun s t w hd h => ?_, rfl,
    exec_wrap_irrelevant⟩
  obtain ⟨e, hd⟩ := decode_error_of_ne hd
  obtain rfl : _ = t := by simpa [State.issueWord_error hd] using h
  rfl

/-! ### Reset (R39, R320) -/

/-- With all argument registers 0 every buffer of every command is empty. -/
theorem writesTo_of_args_zero {x : Args} (hx : ∀ r, x.get r = 0) (i : Instr) (a : Nat) : writesTo i x a = false := by
  have htb : x.tbits = 0 := hx .tbits
  have hsb : x.sbits = 0 := hx .sbits
  have hlen : x.len = 0 := hx .len
  have hempty : ∀ b ∈ buffers i x, b.len = 0 := by
    cases i <;> simp [buffers, limbBuffer, byteBuffer, byteCount, htb, hsb, hlen]
  rw [← Bool.not_eq_true, writesTo_iff]
  rintro ⟨b, hb, -, hlo, hhi⟩
  rw [hempty b hb] at hhi
  omega

/-- Every command but `REV` and `REVC` reads `TBITS` (R111). -/
theorem uses_tbits {i : Instr} (hs : i.signed = false) (hrev : i ≠ .rev false) (hrevc : i ≠ .revc false) :
    uses i .tbits = true := by
  cases i with
  | rev b => exact absurd (congrArg Instr.rev hs) hrev
  | revc b => exact absurd (congrArg Instr.revc hs) hrevc
  | _ => rfl

/-- Settles O55: reset writes the registers' reset values; a bit-size of 0 is bad; and empty buffers hold no byte. -/
theorem resetClearsTheRegisters : Obligations.ResetClearsTheRegisters := by
  refine ⟨Args.get_reset, rfl, rfl, rfl, fun s rest hp => ?_, fun i s htb hs hrev hrevc => ?_, fun s t w hx h a => ?_⟩
  · exact ⟨_, step_reset hp, Args.get_reset, rfl, rfl, rfl, rfl⟩
  · refine rejects_badBitSize hs fun hgood => ?_
    obtain ⟨hne, -⟩ := hgood.1 (uses_tbits hs hrev hrevc)
    exact hne (by rw [htb]; rfl)
  · obtain ⟨-, -, -, hbytes⟩ := frame_of_issueWord h
    refine hbytes a ?_
    rintro ⟨i, -, hw⟩
    rw [writesTo_of_args_zero hx] at hw
    cases hw

end Sys2Proof.Machine
end

section
/-! Operand memory as numbers (20_memory.md R64 to R69): limbs, the value of a buffer, and what a window read answers. -/

namespace Sys2Proof.Machine

open Sys2Proof.Safety

/-! ### Limbs and values (R64, R66, R67) -/

/-- Settles O21: a limb is the sum of its bytes, and `LimbWrite` writes the value's bytes over those four addresses only. -/
theorem limbsAreLittleEndian : Obligations.LimbsAreLittleEndian := by
  refine ⟨State.toNat_limbAt, fun s base k v => ⟨fun i hi => ?_, fun a ha => State.byteAt_putBytes_outside s ha⟩⟩
  have hi4 : i < (leBytes v).length := hi
  rw [State.byteAt_putBytes_of_lt hi4, ← getD_leBytes v hi, List.getD_eq_getElem _ _ hi4]

/-- `Val` of limbs given by their index, as a sum (R66). -/
theorem limbsVal_map_range (n : Nat) : ∀ f : Nat → Word,
    limbsVal ((List.range n).map f) = ∑ k ∈ Finset.range n, (f k).toNat * 2 ^ (32 * (n - 1 - k)) := by
  induction n with
  | zero => exact fun _ => rfl
  | succ n ih =>
    intro f
    have hk : ∀ k, n + 1 - 1 - (k + 1) = n - 1 - k := by omega
    simp only [List.range_succ_eq_map, List.map_cons, List.map_map, limbsVal, List.length_map, List.length_range, ih,
      Finset.sum_range_succ', hk, Function.comp_apply]
    exact Nat.add_comm _ _

/-- Settles O22: `Val` is that sum by recursion on the limbs, and `n` limbs hold less than `2^(32n)`. -/
theorem valueIsTheWeightedSumOfLimbs : Obligations.ValueIsTheWeightedSumOfLimbs := by
  refine fun s base bits hb => ⟨limbsVal_map_range _ _, ?_⟩
  have hlt := limbsVal_lt (s.limbsAt base.toNat (limbCount bits))
  rwa [State.length_limbsAt, limbCount, Nat.mul_div_cancel' (Nat.dvd_of_mod_eq_zero hb)] at hlt

/-- Every byte of a write has been written after it (R77). -/
theorem State.isSome_byte?_putBytes (s : State) {a x : Nat} {bs : List Byte} (h : InRange a bs.length x) :
    ((s.putBytes a bs).mem.byte? x).isSome = true := by
  obtain ⟨hlo, hhi⟩ := h
  rw [State.putBytes_mem, Memory.byte?_putBytes, if_pos ⟨hlo, hhi⟩, List.getElem?_eq_getElem (by omega), Option.isSome_some]

/-- Settles O23: the limbs written are read back, they hold the number, and they fill the buffer exactly. -/
theorem storeThenValueReturnsTheNumber : Obligations.StoreThenValueReturnsTheNumber := by
  intro s base bits v hb hv n t
  have hlen : (bytesOfLimbs (limbsOfNat n v)).length = bits.toNat / 8 := by
    rw [length_bytesOfLimbs, length_limbsOfNat]; omega
  refine ⟨fun k hk => ?_, ?_, fun a ha => ?_, fun a ha => ?_⟩
  · have hk' : k < (limbsOfNat n v).length := by rwa [length_limbsOfNat]
    rw [State.limbAt_putLimbs _ _ _ _ hk', getElem_limbsOfNat, BitVec.toNat_ofNat]
  · have hn : 32 * n = bits.toNat := by omega
    rw [valAt_putLimbs (length_limbsOfNat n v), limbsVal_limbsOfNat, hn, Nat.mod_eq_of_lt hv]
  · exact State.isSome_byte?_putBytes s (by rwa [hlen])
  · exact State.byteAt_putBytes_outside s (by rwa [hlen])

/-! ### What a window read answers (R69, R74) -/

theorem leValue_append (xs ys : List Byte) : leValue (xs ++ ys) = leValue xs + 2 ^ (8 * xs.length) * leValue ys := by
  induction xs with
  | nil => simp [leValue]
  | cons x xs ih =>
    rw [List.cons_append, leValue, ih, leValue, List.length_cons, Nat.mul_add_one, pow_add]
    ring

/-- Bytes read in two runs are the bytes read in one. -/
theorem State.bytesAt_add (s : State) (m n : Nat) : ∀ a, s.bytesAt a (m + n) = s.bytesAt a m ++ s.bytesAt (a + m) n := by
  induction m with
  | zero => intro a; simp [State.bytesAt]
  | succ m ih =>
    intro a
    rw [Nat.add_right_comm, State.bytesAt, ih, State.bytesAt, List.cons_append, Nat.add_assoc a 1 m, Nat.add_comm 1 m]

/-- Part of a run of bytes holds the digits of the run's number at its place. -/
theorem State.leValue_bytesAt_part (s : State) (a j n k : Nat) :
    leValue (s.bytesAt (a + j) n) = leValue (s.bytesAt a (j + n + k)) / 2 ^ (8 * j) % 2 ^ (8 * n) := by
  have hj := leValue_lt (s.bytesAt a j)
  have hn := leValue_lt (s.bytesAt (a + j) n)
  rw [State.length_bytesAt] at hj hn
  rw [Nat.add_assoc j n k, State.bytesAt_add, State.bytesAt_add, leValue_append, leValue_append, State.length_bytesAt,
    State.length_bytesAt, Nat.add_mul_div_left _ _ (Nat.two_pow_pos _), Nat.div_eq_of_lt hj, Nat.zero_add,
    Nat.add_mul_mod_self_left, Nat.mod_eq_of_lt hn]

/-- A limb is the number its four bytes hold (R64). -/
theorem State.leValue_limb (s : State) (base k : Nat) : leValue (s.bytesAt (base + 4 * k) 4) = (s.limbAt base k).toNat := by
  rw [State.toNat_limbAt]
  simp only [State.bytesAt, leValue]
  ring

/-- Bytes of a limb hold the bits of the limb at their place (R69). -/
theorem State.leValue_limb_part (s : State) (base k j n : Nat) (h : j + n ≤ 4) :
    BitVec.ofNat 32 (leValue (s.bytesAt (base + 4 * k + j) n)) =
      ((s.limbAt base k).extractLsb' (8 * j) (8 * n)).setWidth 32 := by
  obtain ⟨r, hr⟩ := Nat.exists_eq_add_of_le h
  rw [State.leValue_bytesAt_part s _ j n r, ← hr, State.leValue_limb]
  apply BitVec.eq_of_toNat_eq
  rw [BitVec.toNat_ofNat, BitVec.toNat_setWidth, BitVec.extractLsb'_toNat, Nat.shiftRight_eq_div_pow]

/-- A window read answers the number that the bytes hold (R74). -/
theorem step_readWindow {s : State} {off size : Nat} {rest : List HostEvent} (hw : windowAccess s.cfg off size = true)
    (h : s.pending = .read off size :: rest) : step s =
      .next { s with pending := rest, response := .data (BitVec.ofNat 32 (leValue (s.bytesAt (off - 0x1000) size))) } := by
  have hr := registerAccess_window (size := size) (windowAccess_iff.mp hw).1
  have hbytes : State.bytesAt { s with pending := rest } (off - windowBase) size = s.bytesAt (off - 0x1000) size :=
    State.bytesAt_congr size _ fun _ _ => rfl
  rw [step_read h, State.hostRead, if_neg (by simp [hr]), if_pos hw, hbytes]

/-- A naturally aligned read inside a limb answers those bits of the limb (R69). -/
theorem step_readLimbPart {s : State} {base k j n : Nat} {rest : List HostEvent} (hb : base % 4 = 0)
    (hin : base + 4 * k + 4 ≤ s.cfg.memBytes) (hn : n = 1 ∨ n = 2 ∨ n = 4) (hj : j % n = 0) (h4 : j + n ≤ 4)
    (h : s.pending = .read (0x1000 + base + 4 * k + j) n :: rest) : step s =
      .next { s with pending := rest,
                     response := .data (((s.limbAt base k).extractLsb' (8 * j) (8 * n)).setWidth 32) } := by
  have hw : windowAccess s.cfg (0x1000 + base + 4 * k + j) n = true :=
    windowAccess_iff.mpr ⟨by omega, hn, by rcases hn with rfl | rfl | rfl <;> omega, by omega⟩
  have ho : 0x1000 + base + 4 * k + j - 0x1000 = base + 4 * k + j := by omega
  rw [step_readWindow hw h, ho, State.leValue_limb_part s base k j n h4]

/-- Settles O24: a read of 1, 2 or 4 bytes inside a limb answers the limb's bits at its place, and no wider access is
allowed. -/
theorem windowShowsLimbsAsNumbers : Obligations.WindowShowsLimbsAsNumbers := by
  intro s base k rest hb hin
  refine ⟨fun hp => ?_, fun i hi hp => ?_, fun h hh hp => ?_, fun size hsize hp => ?_⟩
  · have hall : ((s.limbAt base k).extractLsb' (8 * 0) (8 * 4)).setWidth 32 = s.limbAt base k := by simp
    rw [step_readLimbPart (j := 0) (n := 4) hb hin (by omega) rfl (by omega) hp, hall]
  · exact step_readLimbPart hb hin (.inl rfl) (Nat.mod_one i) (by omega) hp
  · rw [step_readLimbPart hb hin (.inr (.inl rfl)) (Nat.mul_mod_right 2 h) (by omega) hp, ← Nat.mul_assoc]
  · exact step_read_refused (by simp only [PortAllows]; omega) hp

/-! ### What the port performs (R74, R75) -/

/-- A window write stores the low bytes of the data, least-significant first (R74). -/
theorem step_writeWindow {s : State} {off size : Nat} {v : Word} {rest : List HostEvent}
    (hw : windowAccess s.cfg off size = true) (h : s.pending = .write off size v :: rest) : step s =
      .next { s.putBytes (off - 0x1000) ((leBytes v).take size) with pending := rest, response := .done } := by
  have hr := registerAccess_window (size := size) (windowAccess_iff.mp hw).1
  rw [step_write h, State.hostWrite, if_neg (by simp [hr]), if_pos hw]
  rfl

/-- Every register write completes (R31 to R35). -/
theorem writeRegister_done (s : State) (v : Word) (p : PortReg) :
    ∃ t, s.writeRegister v p = .next t ∧ t.response = .done := by
  cases p with
  | cmd =>
    obtain ⟨t, ht, -⟩ := s.issueWord_cases v
    obtain ⟨⟨-, -, -, -, -, -, hresp⟩, -⟩ := frame_of_issueWord ht
    exact ⟨t, ht, hresp⟩
  | _ => exact ⟨_, rfl, rfl⟩

/-- Byte `j` of a window read's answer is the byte of memory at its place, and 0 at or above the size (R74). -/
theorem extract_windowData (s : State) (a : Nat) {size : Nat} (h : size ≤ 4) (j : Nat) :
    (BitVec.ofNat 32 (leValue (s.bytesAt a size))).extractLsb' (8 * j) 8 = if j < size then s.byteAt (a + j) else 0 := by
  have hlen := s.length_bytesAt size a
  rw [extract_leValue (by rwa [hlen])]
  split
  · rw [List.getD_eq_getElem _ _ (by omega), State.getElem_bytesAt]
  · rw [List.getD_eq_default _ _ (by omega)]

/-- Byte `j` of a window write is byte `j` of its data (R74). -/
theorem State.byteAt_putData (s : State) (a : Nat) (v : Word) {size j : Nat} (hs : size ≤ 4) (hj : j < size) :
    (s.putBytes a ((leBytes v).take size)).byteAt (a + j) = v.extractLsb' (8 * j) 8 := by
  have hlen := leBytes_take_length (v := v) hs
  have hj4 : j < (leBytes v).length := hj.trans_le hs
  rw [State.byteAt_putBytes_of_lt (by omega), List.getElem_take, ← getD_leBytes v hj4, List.getD_eq_getElem _ _ hj4]

/-- Settles O25: what the rule allows is a register access or a window access, which complete, and no other is
performed. -/
theorem portAllowsExactlyTheAlignedAccesses : Obligations.PortAllowsExactlyTheAlignedAccesses := by
  intro s off size rest hc
  refine ⟨fun h => ⟨step_read_refused h, fun v => step_write_refused h⟩, fun h => ?_⟩
  rcases (portAllows_iff hc).mp h with hr | hw
  · obtain ⟨hoff, rfl, -⟩ := registerAccess_iff.mp hr
    refine ⟨fun hp => ⟨_, step_readRegister hr hp, fun _ => by omega⟩, fun v hp => ?_⟩
    obtain ⟨t, ht, hdone⟩ := writeRegister_done { s with pending := rest } v (portReg off)
    exact ⟨t, (step_writeRegister hr hp).trans ht, hdone, fun _ => by omega⟩
  · obtain ⟨-, hsize, -⟩ := windowAccess_iff.mp hw
    have h4 : size ≤ 4 := by omega
    refine ⟨fun hp => ⟨_, step_readWindow hw hp, fun _ => extract_windowData s _ h4⟩, fun v hp => ?_⟩
    refine ⟨_, step_writeWindow hw hp, rfl, fun _ => ⟨fun j hj => ?_, fun a ha => ?_, rfl⟩⟩
    · exact State.byteAt_putData s _ v h4 hj
    · exact State.byteAt_putBytes_outside s (by rwa [leBytes_take_length h4])

/-- Settles O26: a step that is a host read is that read, which changes the answer only. -/
theorem hostReadsHaveNoSideEffect : Obligations.HostReadsHaveNoSideEffect := by
  intro s off size rest hp
  obtain ⟨r, hr⟩ := State.hostRead_response { s with pending := rest } off size
  exact ⟨r, (step_read hp).trans (congrArg _ hr)⟩

end Sys2Proof.Machine
end

section
/-! Which steps write operand memory, and what a command's written bytes depend on (20_memory.md R60, R77;
30_encoding.md R111). -/

namespace Sys2Proof.Machine

open Sys2Proof.Safety

/-! ### Where memory changes (R77) -/

/-- A byte that an issue changes lies in a buffer that the word's command writes. -/
theorem writesTo_of_issueWord {s t : State} {w : Word} {a : Nat} (h : s.issueWord w = .next t)
    (hne : t.byteAt a ≠ s.byteAt a) : ∃ i, decode w = .ok i ∧ writesTo i s.args a = true := by
  obtain ⟨-, -, -, hbytes⟩ := frame_of_issueWord h
  by_contra hw
  exact hne (hbytes a hw)

/-- A byte that a host write changes is written by the command it issues or by its window access. -/
theorem writes_of_writeEffect {s t : State} {off size a : Nat} {v : Word} (he : WriteEffect s off size v t)
    (hne : t.byteAt a ≠ s.byteAt a) :
    (off = 0x000 ∧ size = 4 ∧ ∃ i, decode v = .ok i ∧ writesTo i s.args a = true) ∨
      (PortAllows s.cfg off size ∧ 0x1000 ≤ off ∧ InRange (off - 0x1000) size a) := by
  cases he with
  | command ho hs h => exact .inl ⟨ho, hs, writesTo_of_issueWord h hne⟩
  | status _ _ h => exact absurd (by rw [h]; rfl) hne
  | argument _ _ _ h => exact absurd (by rw [h]; rfl) hne
  | ignored _ h => exact absurd (by rw [h]; rfl) hne
  | busError _ _ h => exact absurd (by rw [h]; rfl) hne
  | window hw h =>
    obtain ⟨hbase, hsize, -⟩ := windowAccess_iff.mp hw
    have hallowed : PortAllows s.cfg off size := by
      by_contra hno
      simp [(access_refused hno).2] at hw
    refine .inr ⟨hallowed, hbase, ?_⟩
    by_contra hout
    have hlen := leBytes_take_length (v := v) (size := size) (by omega)
    refine hne ?_
    rw [h]
    exact State.byteAt_putBytes_outside s (by rwa [hlen])

/-- A byte that a reset during a command changes lies in a buffer that the command writes (R321). -/
theorem writesTo_of_resetDuring {s : State} {w : Word} {a : Nat} (hne : (s.resetDuring w).byteAt a ≠ s.byteAt a) :
    ∃ i, decode w = .ok i ∧ writesTo i s.args a = true := by
  rcases s.resetDuring_cases w with h | ⟨i, ws, hd, -, h, hws⟩
  · exact absurd (by rw [h]; rfl) hne
  · refine ⟨i, hd, ?_⟩
    by_contra hw
    refine hne ?_
    rw [h]
    refine State.byteAt_putAll_outside ws s fun p hp hin => hw ?_
    obtain ⟨b, hb, hwrites, hbase, hlen⟩ := hws p hp
    rw [hbase, hlen] at hin
    exact writesTo_iff.mpr ⟨b, hb, hwrites, hin⟩

/-- Settles O27: of all a step can be, only an issue, a window write and the two resets touch memory, each where it
writes. -/
theorem onlyWritesChangeOperandMemory : Obligations.OnlyWritesChangeOperandMemory := by
  intro s t a hstep hne
  cases effect_of_step hstep with
  | idle _ ht => exact absurd (by rw [ht]) hne
  | read _ _ _ _ _ ht => exact absurd (by rw [ht]; rfl) hne
  | write off size v rest hp he =>
    refine ⟨rest, ?_⟩
    rcases writes_of_writeEffect he hne with ⟨rfl, rfl, i, hi⟩ | hw
    · exact .inl ⟨v, i, hp, hi⟩
    · exact .inr (.inl ⟨off, size, v, hp, hw⟩)
  | reset rest hp _ => exact ⟨rest, .inr (.inr (.inl hp))⟩
  | resetDuring w rest hp ht =>
    obtain ⟨i, hi⟩ := writesTo_of_resetDuring (s := { s with pending := rest }) (ht ▸ hne)
    exact ⟨rest, .inr (.inr (.inr ⟨w, i, hp, hi⟩))⟩

end Sys2Proof.Machine
end

section
/-! What a command writes, as byte strings, and the bytes it depends on: the buffers R111 lists as read. -/

namespace Sys2Proof.Machine

open Sys2Proof.Safety

/-! ### What an accepted command writes (R111) -/

/-- The byte strings that a command writes once it is accepted, with their addresses, and `WRAP`. -/
def writtenBytes (i : Instr) (s : State) : List (Nat × List Byte) × Bool :=
  match i with
  | .rev _ => ([(s.args.taddr.toNat, brev (s.bytesAt s.args.taddr.toNat s.args.len.toNat))], false)
  | .revc _ => ([(s.args.taddr.toNat, brev (s.bytesAt s.args.saddr.toNat s.args.len.toNat))], false)
  | .bswp _ => ([(s.args.taddr.toNat, bswap (s.bytesAt s.args.taddr.toNat (byteCount s.args.tbits)))], false)
  | .zero _ => ([(s.args.taddr.toNat, bytesOfLimbs (zeroLimbs (limbCount s.args.tbits)))], false)
  | .setw _ offs => ([(s.args.taddr.toNat, bytesOfLimbs (seedLimbs (limbCount s.args.tbits) s.args.word offs))], false)
  | .copy _ => ([(s.args.taddr.toNat, bytesOfLimbs (widenLimbs (limbCount s.args.tbits) (sLimbs s)))], false)
  | .add _ =>
    ([(s.args.taddr.toNat, bytesOfLimbs (addLimbs (tLimbs s) (sLimbs s)).1)], (addLimbs (tLimbs s) (sLimbs s)).2)
  | .sub _ =>
    ([(s.args.taddr.toNat, bytesOfLimbs (subLimbs (tLimbs s) (sLimbs s)).1)], (subLimbs (tLimbs s) (sLimbs s)).2)
  | .mul _ => ([(s.args.taddr.toNat, bytesOfLimbs (mulLimbs (tLimbs s) (sLimbs s)))], false)
  | .div _ => ([(s.args.qaddr.toNat, bytesOfLimbs (limbsOfNat (limbCount s.args.tbits) (tVal s / sVal s)))], false)
  | .divr _ =>
    ([(s.args.qaddr.toNat, bytesOfLimbs (limbsOfNat (limbCount s.args.tbits) (tVal s / sVal s))),
      (s.args.raddr.toNat, bytesOfLimbs (limbsOfNat (limbCount s.args.sbits) (tVal s % sVal s)))], false)

/-- A command that passes checks 2 to 9 and, where it divides, check 10, writes those bytes and is accepted. -/
theorem exec_accepted {i : Instr} {s : State} (hv : validate i s = none) (hd : ¬(Divides i ∧ sVal s = 0)) :
    exec i s = .next ((s.putAll (writtenBytes i s).1).accept (writtenBytes i s).2) := by
  have hs : i.signed = false := (validate_none hv).1
  cases i with
  | rev b => obtain rfl : b = false := hs; exact execRev_ready ((validate_rev s).mp hv)
  | revc b => obtain rfl : b = false := hs; exact execRevc_ready ((validate_revc s).mp hv)
  | bswp b => obtain rfl : b = false := hs; exact execBswp_ready ((validate_bswp s).mp hv)
  | zero b => obtain rfl : b = false := hs; exact execZero_ready ((validate_zero s).mp hv)
  | setw b o => obtain rfl : b = false := hs; exact execSetw_ready ((validate_setw o s).mp hv)
  | copy b => obtain rfl : b = false := hs; exact execCopy_ready ((validate_copy s).mp hv)
  | add b => obtain rfl : b = false := hs; exact execAdd_ready ((validate_add s).mp hv)
  | sub b => obtain rfl : b = false := hs; exact execSub_ready ((validate_sub s).mp hv)
  | mul b => obtain rfl : b = false := hs; exact execMul_ready ((validate_mul s).mp hv)
  | div b =>
    obtain rfl : b = false := hs
    exact execDiv_ready ⟨(validate_div s).mp hv, fun h0 => hd ⟨.inl rfl, h0⟩⟩
  | divr b =>
    obtain rfl : b = false := hs
    exact execDivr_ready ⟨(validate_divr s).mp hv, fun h0 => hd ⟨.inr rfl, h0⟩⟩

/-- An accepted command writes its written buffers whole, in order. -/
theorem writtenBytes_fill {i : Instr} {s : State} (hv : validate i s = none) :
    (writtenBytes i s).1.map (fun p => (p.1, p.2.length)) =
      ((buffers i s.args).filter Buffer.writes).map fun b => (b.base, b.len) := by
  have ht : uses i .tbits = true → 4 * limbCount s.args.tbits = byteCount s.args.tbits := fun hu =>
    four_limbCount (good_tbits_of_validate hv hu)
  have hs : uses i .sbits = true → 4 * limbCount s.args.sbits = byteCount s.args.sbits := fun hu =>
    four_limbCount (good_sbits_of_validate hv hu)
  cases i with
  | rev b => simp [writtenBytes, buffers, byteBuffer]
  | revc b => simp [writtenBytes, buffers, byteBuffer]
  | bswp b => simp [writtenBytes, buffers, limbBuffer, length_bswap]
  | zero b => simp [writtenBytes, buffers, limbBuffer, ht rfl]
  | setw b o => simp [writtenBytes, buffers, limbBuffer, ht rfl]
  | copy b =>
    obtain ⟨-, -, -, -, hle, -⟩ := validate_eq_none.mp hv
    have hl : (sLimbs s).length ≤ limbCount s.args.tbits := by simpa using sLimbs_le_tLimbs (hle rfl)
    simp [writtenBytes, buffers, limbBuffer, length_widenLimbs hl, ht rfl]
  | add b => simp [writtenBytes, buffers, limbBuffer, ht rfl]
  | sub b => simp [writtenBytes, buffers, limbBuffer, ht rfl]
  | mul b => simp [writtenBytes, buffers, limbBuffer, mulLimbs, ht rfl]
  | div b => simp [writtenBytes, buffers, limbBuffer, ht rfl]
  | divr b => simp [writtenBytes, buffers, limbBuffer, ht rfl, hs rfl]

/-- Every byte of a buffer that an accepted command writes is one it has written. -/
theorem writtenBytes_cover {i : Instr} {s : State} (hv : validate i s = none) {a : Nat}
    (h : writesTo i s.args a = true) : ∃ p ∈ (writtenBytes i s).1, InRange p.1 p.2.length a := by
  obtain ⟨b, hb, hw, ha⟩ := writesTo_iff.mp h
  have hmem : (b.base, b.len) ∈ (writtenBytes i s).1.map fun p => (p.1, p.2.length) := by
    rw [writtenBytes_fill hv]
    exact List.mem_map_of_mem (List.mem_filter.mpr ⟨hb, hw⟩)
  obtain ⟨p, hp, he⟩ := List.mem_map.mp hmem
  obtain ⟨hbase, hlen⟩ := Prod.mk.inj he
  exact ⟨p, hp, by rwa [hbase, hlen]⟩

/-- A byte that is written, or that was the same before, is the same after the same writes. -/
theorem State.byteAt_putAll_congr (ws : List (Nat × List Byte)) {a : Nat} : ∀ s s' : State,
    (s'.byteAt a = s.byteAt a ∨ ∃ p ∈ ws, InRange p.1 p.2.length a) →
      (s'.putAll ws).byteAt a = (s.putAll ws).byteAt a := by
  induction ws with
  | nil => exact fun s s' h => h.elim id (by simp)
  | cons p ps ih =>
    intro s s' h
    refine ih _ _ ?_
    by_cases hp : InRange p.1 p.2.length a
    · left
      rw [State.byteAt_putBytes, State.byteAt_putBytes, if_pos hp, if_pos hp]
    · rw [State.byteAt_putBytes_outside s hp, State.byteAt_putBytes_outside s' hp]
      simpa [hp] using h

/-! ### What a command computes from (R60, R111) -/

section
variable {i : Instr} {s : State} {m : Memory}
  (h : ∀ b ∈ buffers i s.args, b.reads = true → ∀ a, InRange b.base b.len a →
    State.byteAt { s with mem := m } a = s.byteAt a)
include h

theorem bytesAt_of_reads {b : Buffer} (hb : b ∈ buffers i s.args) (hr : b.reads = true) :
    State.bytesAt { s with mem := m } b.base b.len = s.bytesAt b.base b.len :=
  State.bytesAt_congr _ _ fun j hj => h b hb hr _ ⟨by omega, by omega⟩

theorem limbsAt_of_reads {base bits : Word} {w : Bool} (hb : limbBuffer base bits true w ∈ buffers i s.args) :
    State.limbsAt { s with mem := m } base.toNat (limbCount bits) = s.limbsAt base.toNat (limbCount bits) := by
  refine State.limbsAt_congr fun j hj => h _ hb rfl _ ⟨Nat.le_add_right _ _, ?_⟩
  simp only [limbBuffer, byteCount, limbCount] at hj ⊢
  omega

/-- The source of a dividing command is the same number in both memories, so check 10 finds the same. -/
theorem divisorZero_of_reads : (Divides i ∧ sVal { s with mem := m } = 0) ↔ (Divides i ∧ sVal s = 0) := by
  refine and_congr_right fun hd => ?_
  have hb : limbBuffer s.args.saddr s.args.sbits true false ∈ buffers i s.args := by
    rcases hd with hd | hd <;> rw [hd] <;> simp [buffers]
  have hsv : sVal { s with mem := m } = sVal s := congrArg limbsVal (limbsAt_of_reads h hb)
  rw [hsv]

/-- A command writes the same bytes in both memories. -/
theorem writtenBytes_of_reads : writtenBytes i { s with mem := m } = writtenBytes i s := by
  have ht {w : Bool} (hb : limbBuffer s.args.taddr s.args.tbits true w ∈ buffers i s.args) :
      tLimbs { s with mem := m } = tLimbs s := limbsAt_of_reads h hb
  have hs (hb : limbBuffer s.args.saddr s.args.sbits true false ∈ buffers i s.args) :
      sLimbs { s with mem := m } = sLimbs s := limbsAt_of_reads h hb
  have htv (hb : limbBuffer s.args.taddr s.args.tbits true false ∈ buffers i s.args) :
      tVal { s with mem := m } = tVal s := congrArg limbsVal (ht hb)
  have hsv (hb : limbBuffer s.args.saddr s.args.sbits true false ∈ buffers i s.args) :
      sVal { s with mem := m } = sVal s := congrArg limbsVal (hs hb)
  cases i with
  | rev b =>
    have hb := bytesAt_of_reads h (b := byteBuffer s.args.taddr s.args.len true true) (by simp [buffers]) rfl
    exact congrArg (fun bs => ([(s.args.taddr.toNat, brev bs)], false)) hb
  | revc b =>
    have hb := bytesAt_of_reads h (b := byteBuffer s.args.saddr s.args.len true false) (by simp [buffers]) rfl
    exact congrArg (fun bs => ([(s.args.taddr.toNat, brev bs)], false)) hb
  | bswp b =>
    have hb := bytesAt_of_reads h (b := limbBuffer s.args.taddr s.args.tbits true true) (by simp [buffers]) rfl
    exact congrArg (fun bs => ([(s.args.taddr.toNat, bswap bs)], false)) hb
  | zero b => rfl
  | setw b o => rfl
  | copy b => simp only [writtenBytes, hs (by simp [buffers])]
  | add b => simp only [writtenBytes, ht (w := true) (by simp [buffers]), hs (by simp [buffers])]
  | sub b => simp only [writtenBytes, ht (w := true) (by simp [buffers]), hs (by simp [buffers])]
  | mul b => simp only [writtenBytes, ht (w := true) (by simp [buffers]), hs (by simp [buffers])]
  | div b => simp only [writtenBytes, htv (by simp [buffers]), hsv (by simp [buffers])]
  | divr b => simp only [writtenBytes, htv (by simp [buffers]), hsv (by simp [buffers])]
end

/-- Settles O28: validation looks at no byte; the read buffers fix the divisor and the bytes written, and these fill the
written buffers. -/
theorem commandsReadOnlyTheirBuffers : Obligations.CommandsReadOnlyTheirBuffers := by
  intro i s t m h ht
  have hval : validate i { s with mem := m } = validate i s := rfl
  cases hv : validate i s with
  | some e =>
    obtain rfl : s.reject e = t := by simpa [exec_invalid hv] using ht
    exact ⟨_, exec_invalid (hval.trans hv), rfl, fun h0 => absurd h0 e.code_ne_zero⟩
  | none =>
    by_cases hd : Divides i ∧ sVal s = 0
    · obtain rfl : s.reject .divideByZero = t := by simpa [exec_divides_zero hv hd.1 hd.2] using ht
      have hd' := (divisorZero_of_reads h).mpr hd
      exact ⟨_, exec_divides_zero (hval.trans hv) hd'.1 hd'.2, rfl, fun h0 => absurd h0 (CmdError.code_ne_zero .divideByZero)⟩
    · obtain rfl : _ = t := by simpa [exec_accepted hv hd] using ht
      have e' := exec_accepted (hval.trans hv) (mt (divisorZero_of_reads h).mp hd)
      rw [writtenBytes_of_reads h] at e'
      refine ⟨_, e', ?_, fun _ a ha => ?_⟩
      · rw [State.putAll_eq, State.putAll_eq _ s]; rfl
      · exact State.byteAt_putAll_congr _ _ _ (.inr (writtenBytes_cover hv ha))

end Sys2Proof.Machine
end

section
/-! The decoder and the encoder are inverse to each other, and both are told by the fields of the word (30_encoding.md R101
to R104): a word decodes to a command exactly when the command is well-formed and the word is its encoding, which is to say
when the word's `OP`, `RSV` and `IMM` are those of the encoding. -/

namespace Sys2Proof

/-! ### Round trip (R101 to R104) -/

/-- The word of every command has the command's fields: the lemmas of Laws/PerInstr.lean together. -/
theorem encoding_fields : ∀ i : Instr, Laws.Encoding.Statement i
  | .rev b => Laws.Encoding.rev b
  | .revc b => Laws.Encoding.revc b
  | .bswp b => Laws.Encoding.bswp b
  | .zero b => Laws.Encoding.zero b
  | .setw b offs => Laws.Encoding.setw b offs
  | .copy b => Laws.Encoding.copy b
  | .add b => Laws.Encoding.add b
  | .sub b => Laws.Encoding.sub b
  | .mul b => Laws.Encoding.mul b
  | .div b => Laws.Encoding.div b
  | .divr b => Laws.Encoding.divr b

theorem decode_encode {i : Instr} (hw : i.wellFormed = true) : decode (encode i) = .ok i := by
  obtain ⟨hrsv, -, himm, hcommand⟩ := encoding_fields i
  exact decode_of_commandOf (hcommand hw) hrsv himm

theorem wellFormed_of_decode {w : Word} {i : Instr} (h : decode w = .ok i) : i.wellFormed = true := by
  obtain ⟨hcommand, -, himm⟩ := commandOf_of_decode h
  exact (commandOf_some hcommand himm).1

/-- Bit 8 of a word that decodes is the command's `S` (R101). -/
theorem signed_of_decode {w : Word} {i : Instr} (h : decode w = .ok i) : i.signed = w.getLsbD 8 := by
  obtain ⟨-, hsigned, -⟩ := encoding_fields i
  rw [← hsigned, encode_of_decode h]
  rfl

theorem decode_eq_ok_iff {w : Word} {i : Instr} : decode w = .ok i ↔ i.wellFormed = true ∧ encode i = w := by
  refine ⟨fun h => ⟨wellFormed_of_decode h, encode_of_decode h⟩, ?_⟩
  rintro ⟨hw, rfl⟩
  exact decode_encode hw

/-! ### Decoding by the fields (R104) -/

theorem formatC_eq_iff {w : Word} {op : BitVec 8} {imm : BitVec 16} :
    formatC op (signedField w) imm = w ↔ opField w = op ∧ reservedField w = 0 ∧ immField w = imm := by
  refine ⟨fun h => ?_, ?_⟩
  · rw [← h]
    exact ⟨opField_formatC .., reservedField_formatC .., immField_formatC ..⟩
  · rintro ⟨rfl, hrsv, rfl⟩
    exact formatC_fields hrsv

/-- A word decodes to the command whose encoding, with the word's own `S`, has the word's fields. -/
theorem decode_iff_fields {w : Word} {i : Instr} {op : BitVec 8} {imm : BitVec 16} (hw : i.wellFormed = true)
    (he : encode i = formatC op (signedField w) imm) :
    decode w = .ok i ↔ opField w = op ∧ reservedField w = 0 ∧ immField w = imm := by
  rw [decode_eq_ok_iff, he, formatC_eq_iff, and_iff_right hw]

/-- `SETW` takes any `IMM`, as its offset (R102). -/
theorem decode_setw_iff {w : Word} :
    decode w = .ok (.setw (signedField w) (immField w).toNat) ↔ opField w = 0x09 ∧ reservedField w = 0 := by
  have hw : (Instr.setw (signedField w) (immField w).toNat).wellFormed = true := decide_eq_true (immField w).isLt
  have he : encode (.setw (signedField w) (immField w).toNat) = formatC 0x09 (signedField w) (immField w) := by
    rw [encode, BitVec.ofNat_toNat, BitVec.setWidth_eq]
  rw [decode_iff_fields hw he, and_iff_left rfl]

/-- The `OP` values of the map of R103. -/
def opcodes : List (BitVec 8) := [0x01, 0x02, 0x03, 0x08, 0x09, 0x0A, 0x10, 0x11, 0x12, 0x13, 0x14]

theorem opField_encode_mem (i : Instr) : opField (encode i) ∈ opcodes := by cases i <;> simp [encode, opcodes]

/-- A word passes R104 when its `OP` is assigned, its `RSV` is 0, and its `IMM` is 0 unless it is `SETW`'s. -/
theorem fields_of_decode {w : Word} {i : Instr} (h : decode w = .ok i) :
    opField w ∈ opcodes ∧ reservedField w = 0 ∧ (opField w = 0x09 ∨ immField w = 0) := by
  obtain ⟨-, hfields⟩ := commandOf_of_decode h
  exact ⟨encode_of_decode h ▸ opField_encode_mem i, hfields⟩

/-! ### The masks of the opcode table -/

theorem opField_and (v w : Word) : opField (v &&& w) = opField v &&& opField w := BitVec.extractLsb'_and
theorem reservedField_and (v w : Word) : reservedField (v &&& w) = reservedField v &&& reservedField w :=
  BitVec.extractLsb'_and
theorem immField_and (v w : Word) : immField (v &&& w) = immField v &&& immField w := BitVec.extractLsb'_and

/-- The mask of a row: all of `OP` and `RSV`, nothing of `S`, and of `IMM` the bits `m`. -/
def rowMask (m : BitVec 16) : Word := m ++ BitVec.allOnes 7 ++ (0 : BitVec 1) ++ BitVec.allOnes 8

theorem opField_rowMask (m : BitVec 16) : opField (rowMask m) = BitVec.allOnes 8 := BitVec.extractLsb'_append_eq_right

theorem reservedField_rowMask (m : BitVec 16) : reservedField (rowMask m) = BitVec.allOnes 7 := by
  rw [reservedField, rowMask, BitVec.extractLsb'_append_eq_of_le (by decide),
    BitVec.extractLsb'_append_eq_of_le (by decide)]
  exact BitVec.extractLsb'_append_eq_right

theorem immField_rowMask (m : BitVec 16) : immField (rowMask m) = m := by
  rw [immField, rowMask, BitVec.extractLsb'_append_eq_of_le (by decide), BitVec.extractLsb'_append_eq_of_le (by decide)]
  exact BitVec.extractLsb'_append_eq_left

/-- A row's mask takes the `S` out of a word of format `C`. -/
theorem formatC_and_rowMask (op : BitVec 8) (b : Bool) (imm m : BitVec 16) :
    formatC op b imm &&& rowMask m = formatC op false (imm &&& m) := by
  rw [formatC, rowMask, BitVec.and_append, BitVec.and_append, BitVec.and_append, BitVec.and_allOnes, BitVec.and_allOnes]
  have hs : BitVec.ofBool b &&& 0 = BitVec.ofBool false := BitVec.and_zero
  rw [hs, formatC]

/-- A word matches a row by its `OP`, its `RSV`, and the bits of its `IMM` that the mask covers. -/
theorem and_rowMask_eq_iff {w : Word} {op : BitVec 8} {m : BitVec 16} :
    w &&& rowMask m = formatC op false 0 ↔ opField w = op ∧ reservedField w = 0 ∧ immField w &&& m = 0 := by
  refine ⟨fun h => ⟨?_, ?_, ?_⟩, ?_⟩
  · simpa only [opField_and, opField_rowMask, BitVec.and_allOnes, opField_formatC] using congrArg opField h
  · simpa only [reservedField_and, reservedField_rowMask, BitVec.and_allOnes, reservedField_formatC]
      using congrArg reservedField h
  · simpa only [immField_and, immField_rowMask, immField_formatC] using congrArg immField h
  · rintro ⟨rfl, hrsv, himm⟩
    rw [← himm, ← formatC_and_rowMask _ (signedField w), formatC_fields hrsv]

/-- A row whose command has no immediate: its mask covers `IMM`. -/
theorem row_iff_decode {w v : Word} {i : Instr} {op : BitVec 8} (hw : i.wellFormed = true)
    (he : encode i = formatC op (signedField w) 0) (hv : formatC op false 0 = v) :
    w &&& 0xFFFFFEFF = v ↔ decode w = .ok i := by
  have hmask : (0xFFFFFEFF : Word) = rowMask (BitVec.allOnes 16) := rfl
  rw [← hv, hmask, and_rowMask_eq_iff, BitVec.and_allOnes, decode_iff_fields hw he]

/-- The row of `SETW`: its mask leaves `IMM` out. -/
theorem setw_row_iff_decode {w : Word} : w &&& 0x0000FEFF = formatC 0x09 false 0 ↔
    decode w = .ok (.setw (signedField w) (immField w).toNat) := by
  have hmask : (0x0000FEFF : Word) = rowMask 0 := rfl
  have himm : immField w &&& 0 = 0 := BitVec.and_zero
  rw [hmask, and_rowMask_eq_iff, decode_setw_iff, and_iff_left himm]

/-! ### Fields as numbers -/

/-- Format `C` as a number (R101). -/
theorem toNat_formatC (op : BitVec 8) (b : Bool) (imm : BitVec 16) :
    (formatC op b imm).toNat = imm.toNat * 2 ^ 16 + b.toNat * 2 ^ 8 + op.toNat := by
  rw [formatC, BitVec.toNat_append, BitVec.toNat_append, BitVec.toNat_append, ← Nat.shiftLeft_add_eq_or_of_lt op.isLt,
    ← Nat.shiftLeft_add_eq_or_of_lt (BitVec.ofBool b).isLt, ← Nat.shiftLeft_add_eq_or_of_lt (0 : BitVec 7).isLt,
    BitVec.toNat_ofBool]
  have hrsv : (0 : BitVec 7).toNat = 0 := rfl
  simp only [Nat.shiftLeft_eq, hrsv]
  omega

/-- `IMM` as a number (R102). -/
theorem toNat_immField (w : Word) : (immField w).toNat = w.toNat / 2 ^ 16 := by
  have hw := w.isLt
  rw [immField, BitVec.extractLsb'_toNat, Nat.shiftRight_eq_div_pow]
  omega

end Sys2Proof

namespace Sys2Proof.Machine

open Sys2Proof.Safety

/-! ### The statements -/

/-- Settles O1: the encoding's fields are the command's, and the opcode map answers the command for them. -/
theorem decodeOfEncodeIsTheCommand : Obligations.DecodeOfEncodeIsTheCommand := fun _ => decode_encode

/-- Settles O2: a word that decodes has `RSV` 0 and no unused `IMM`, so its `OP`, `S` and `IMM` are all of it. -/
theorem decodedWordIsItsEncoding : Obligations.DecodedWordIsItsEncoding := fun _ _ => decode_eq_ok_iff.mp

/-- Settles O3: a word that decodes has passed the three tests of R104, and one that passes them has the fields of the
encoding of the command it selects. -/
theorem decodeSelectsByTheFields : Obligations.DecodeSelectsByTheFields := by
  intro w s
  refine ⟨fun hbad => ?_, fun hrsv himm => ?_, fun hrsv hop => decode_setw_iff.mpr ⟨hop, hrsv⟩,
    fun i => State.issueWord_ok⟩
  · cases hd : decode w with
    | error e => exact State.issueWord_error hd
    | ok i =>
      obtain ⟨hop, hrsv, himm⟩ := fields_of_decode hd
      rcases hbad with hbad | hbad | ⟨h9, h0⟩
      · exact absurd (by simpa [opcodes, opField] using hop) hbad
      · exact absurd hrsv hbad
      · exact absurd himm (not_or.mpr ⟨h9, h0⟩)
  · have selects {i : Instr} {op : BitVec 8} (hw : i.wellFormed = true) (he : encode i = formatC op (signedField w) 0)
        (hop : opField w = op) : decode w = .ok i := (decode_iff_fields hw he).mpr ⟨hop, hrsv, himm⟩
    exact ⟨selects rfl rfl, selects rfl rfl, selects rfl rfl, selects rfl rfl, selects rfl rfl, selects rfl rfl,
      selects rfl rfl, selects rfl rfl, selects rfl rfl, selects rfl rfl⟩

/-- Settles O4: matching a row fixes the fields that its mask covers, which are those that select its command. -/
theorem decodeMatchesTheOpcodeTable : Obligations.DecodeMatchesTheOpcodeTable := by
  intro w
  refine ⟨row_iff_decode rfl rfl rfl, row_iff_decode rfl rfl rfl, row_iff_decode rfl rfl rfl,
    row_iff_decode rfl rfl rfl, ?_, row_iff_decode rfl rfl rfl, row_iff_decode rfl rfl rfl, row_iff_decode rfl rfl rfl,
    row_iff_decode rfl rfl rfl, row_iff_decode rfl rfl rfl, row_iff_decode rfl rfl rfl⟩
  rw [← toNat_immField]
  exact setw_row_iff_decode

/-- Settles O9: a word that selects no command is issued as a rejection, and every issue has one of two outcomes. -/
theorem illegalWordIsRejectedWithCodeOne : Obligations.IllegalWordIsRejectedWithCodeOne := by
  refine ⟨fun s w rest hp hd => ?_, fun i h => ?_, fun s w => ?_⟩
  · obtain ⟨e, he⟩ := decode_error_of_ne hd
    rw [step_command hp, State.issueWord_error he]
    rfl
  · obtain ⟨hop, -⟩ := fields_of_decode h
    exact absurd hop (by decide)
  · obtain ⟨t, ht, -⟩ := s.issueWord_cases w
    exact ⟨t, ht⟩

/-- Settles O10: bit 8 of the word is its command's `S`, and check 2 rejects a signed command in every state. -/
theorem signedRequestIsRejectedWithCodeTwo : Obligations.SignedRequestIsRejectedWithCodeTwo := by
  intro s w i hd hbit
  rw [State.issueWord_ok hd, exec_signed ((signed_of_decode hd).trans hbit)]
  rfl

end Sys2Proof.Machine
end

section
/-! The assembler lines (30_encoding.md R109, R110): the words of their commands, and what performing a line's host writes
does. A line's loads are a list, so that they are performed is one induction over it. -/

namespace Sys2Proof.Machine

open Sys2Proof.Safety

/-! ### The word of a line -/

/-- The suffix `.S` sets bit 8, by addition (R110). -/
theorem formatC_eq_add_suffix (op : BitVec 8) (b : Bool) (imm : BitVec 16) :
    formatC op b imm = formatC op false imm + suffix b := by
  have hop := op.isLt
  have himm := imm.isLt
  apply BitVec.eq_of_toNat_eq
  cases b with
  | false => simp [suffix]
  | true =>
    have hsuffix : (suffix true).toNat = 2 ^ 8 := rfl
    simp only [BitVec.toNat_add, toNat_formatC, hsuffix, Bool.toNat_true, Bool.toNat_false]
    omega

theorem encode_setw_eq_add_suffix (b : Bool) (offs : Nat) :
    encode (.setw b offs) = BitVec.ofNat 32 (offs * 2 ^ 16 + 0x0009) + suffix b := by
  have hword : formatC 0x09 false (BitVec.ofNat 16 offs) = BitVec.ofNat 32 (offs * 2 ^ 16 + 0x0009) := by
    apply BitVec.eq_of_toNat_eq
    have hop : (0x09 : BitVec 8).toNat = 9 := rfl
    simp only [toNat_formatC, BitVec.toNat_ofNat, Bool.toNat_false, hop]
    omega
  rw [encode, formatC_eq_add_suffix, hword]

/-- A line stands for its loads and the write of its command's word. -/
theorem AsmLine.expand_of_encode {l : AsmLine} {w : Word} (h : encode l.instr = w) :
    l.expand = l.loads.map (fun p => .write p.1.offset 4 p.2) ++ [.write 0x000 4 w] := by
  rw [AsmLine.expand, h]

/-! ### Performing a line -/

theorem Args.set_get (x : Args) (r : ArgReg) : x.set r (x.get r) = x := by cases r <;> rfl

/-- A 32-bit write at an argument register's offset loads it (R22, R23). -/
theorem step_writeArg {s : State} {r : ArgReg} {v : Word} {rest : List HostEvent}
    (h : s.pending = .write r.offset 4 v :: rest) :
    step s = .next { s with pending := rest, args := s.args.set r v, response := .done } := by
  rw [step_writeRegister (registerAccess_offset r) h, portReg_offset]
  rfl

theorem run_succ {s t : State} (h : step s = .next t) (k : Nat) :
    Host.Core.run core (k + 1) s = Host.Core.run core k t := by
  have hcore : core.step s = .next t := h
  simp only [Host.Core.run, hcore]

theorem run_one (s : State) : Host.Core.run core 1 s = step s := by
  obtain ⟨t, ht, -⟩ := step_cases s
  rw [run_succ ht, ht]
  rfl

/-- Loads followed by a write to `CMD` issue the word with the loads done. The answer of the port to the loads is lost,
since an issue replaces it. -/
theorem run_loads (w : Word) (rest : List HostEvent) (loads : List (ArgReg × Word)) : ∀ s : State,
    s.pending = loads.map (fun p => .write p.1.offset 4 p.2) ++ .write 0x000 4 w :: rest →
      Host.Core.run core (loads.length + 1) s = State.issueWord
        { s with args := loads.foldl (fun x p => x.set p.1 p.2) s.args, pending := rest } w := by
  induction loads with
  | nil => exact fun s hp => (run_one s).trans (step_command hp)
  | cons p ps ih =>
    intro s hp
    rw [List.length_cons, run_succ (step_writeArg hp)]
    exact ih _ rfl

/-- Performing a line issues its command with the registers it loads (R110). -/
theorem run_expand {l : AsmLine} {s : State} {rest : List HostEvent} (hw : l.instr.wellFormed = true)
    (hp : s.pending = l.expand ++ rest) : Host.Core.run core l.expand.length s =
      exec l.instr { s with args := l.loaded s.args, cmd := encode l.instr, pending := rest, response := .done } := by
  have hlength : l.expand.length = l.loads.length + 1 := by simp [AsmLine.expand]
  rw [AsmLine.expand, List.append_assoc] at hp
  rw [hlength, run_loads _ _ _ s hp, State.issueWord_ok (decode_encode hw)]
  rfl

/-- Settles O54: a line's word is that of the table, its writes are performed one by one, and `CMD` is the last; a register
written with what it holds is as it was. -/
theorem assemblerLinesExpandToHostWrites : Obligations.AssemblerLinesExpandToHostWrites := by
  refine ⟨fun b t n => ?_, fun b t s n => ?_, fun b t tb => ?_, fun b t tb => ?_, fun b t tb w o _ => ?_,
    fun b t tb s sb => ?_, fun b t tb s sb => ?_, fun b t tb s sb => ?_, fun b t tb s sb => ?_,
    fun b t tb s sb q => ?_, fun b t tb s sb q r => ?_, fun l s rest => run_expand, fun s r rest hp => ?_⟩
  · exact AsmLine.expand_of_encode (formatC_eq_add_suffix 0x01 b 0)
  · exact AsmLine.expand_of_encode (formatC_eq_add_suffix 0x02 b 0)
  · exact AsmLine.expand_of_encode (formatC_eq_add_suffix 0x03 b 0)
  · exact AsmLine.expand_of_encode (formatC_eq_add_suffix 0x08 b 0)
  · exact AsmLine.expand_of_encode (encode_setw_eq_add_suffix b o)
  · exact AsmLine.expand_of_encode (formatC_eq_add_suffix 0x0A b 0)
  · exact AsmLine.expand_of_encode (formatC_eq_add_suffix 0x10 b 0)
  · exact AsmLine.expand_of_encode (formatC_eq_add_suffix 0x11 b 0)
  · exact AsmLine.expand_of_encode (formatC_eq_add_suffix 0x12 b 0)
  · exact AsmLine.expand_of_encode (formatC_eq_add_suffix 0x13 b 0)
  · exact AsmLine.expand_of_encode (formatC_eq_add_suffix 0x14 b 0)
  · rw [step_writeArg hp, Args.set_get]

end Sys2Proof.Machine
end

section
/-! The byte reversal unit (40_byte_reversal.md). Each of its commands stores a rearrangement of the bytes of one buffer;
rearranging back by an order that is its own inverse restores them. -/

namespace Sys2Proof.Machine

open Sys2Proof.Safety

/-! ### Rearranged buffers -/

/-- An accepted command left in byte `i` of the `n` at `a` the old byte `f i` of the `n` at `b`. -/
abbrev Rearranges (s t : State) (a b n : Nat) (f : Nat → Nat) : Prop :=
  (∀ i < n, t.byteAt (a + i) = s.byteAt (b + f i)) ∧ Accepted s t false (InRange a n)

/-- The order of `BREV` over `n` bytes (R130). -/
def mirror (n i : Nat) : Nat := n - 1 - i

/-- The order of `BREV` over each limb in turn (R133). -/
def mirrorInLimb (i : Nat) : Nat := 4 * (i / 4) + (3 - i % 4)

theorem mirrorInLimb_limb (k : Nat) {i : Nat} (hi : i < 4) : mirrorInLimb (4 * k + i) = 4 * k + (3 - i) := by
  simp only [mirrorInLimb]; omega

theorem rearranges_putBytes {s : State} {a b n : Nat} {f : Nat → Nat} {bs : List Byte} (hl : bs.length = n)
    (h : ∀ i < n, bs.getD i 0 = s.byteAt (b + f i)) : Rearranges s ((s.putBytes a bs).accept false) a b n f := by
  refine ⟨fun i hi => ?_, accepted_putBytes hl⟩
  rw [byteAt_accept_putBytes, if_pos (by omega), Nat.add_sub_cancel_left, h i hi]

/-- `f` is its own inverse on the offsets below `n`. -/
abbrev SelfInverse (n : Nat) (f : Nat → Nat) : Prop := ∀ i < n, f i < n ∧ f (f i) = i

theorem selfInverse_mirror (n : Nat) : SelfInverse n (mirror n) := by
  intro i hi; simp only [mirror]; omega

theorem selfInverse_mirrorInLimb {n : Nat} (hn : n % 4 = 0) : SelfInverse n mirrorInLimb := by
  intro i hi; simp only [mirrorInLimb]; omega

/-- Two rearrangements by the same order, there and back, restore the buffer that the first one read. -/
theorem byteAt_rearranged_back {s t u : State} {a b n : Nat} {f : Nat → Nat} (hf : SelfInverse n f)
    (hst : ∀ i < n, t.byteAt (a + i) = s.byteAt (b + f i)) (htu : ∀ i < n, u.byteAt (b + i) = t.byteAt (a + f i))
    {x : Nat} (hx : InRange b n x) : u.byteAt x = s.byteAt x := by
  obtain ⟨i, rfl⟩ := Nat.exists_eq_add_of_le hx.1
  have hi : i < n := by omega
  obtain ⟨hlt, hinv⟩ := hf i hi
  rw [htu i hi, hst _ hlt, hinv]

/-- Two rearrangements in place by the same order restore all of memory. -/
theorem byteAt_rearranged_twice {s t u : State} {a n : Nat} {f : Nat → Nat} (hf : SelfInverse n f)
    (hst : Rearranges s t a a n f) (htu : Rearranges t u a a n f) (x : Nat) : u.byteAt x = s.byteAt x := by
  obtain ⟨moved_st, -, -, kept_st⟩ := hst
  obtain ⟨moved_tu, -, -, kept_tu⟩ := htu
  by_cases hx : InRange a n x
  · exact byteAt_rearranged_back hf moved_st moved_tu hx
  · rw [kept_tu x hx, kept_st x hx]

/-! ### The three commands where they are accepted (R131 to R133) -/

theorem State.getD_bytesAt (s : State) (a : Nat) {n i : Nat} (h : i < n) : (s.bytesAt a n).getD i 0 = s.byteAt (a + i) := by
  rw [List.getD_eq_getElem _ _ (by simpa using h), State.getElem_bytesAt]

theorem exec_rev_rearranges {s : State} (h : RevReady s) : ∃ t, exec (.rev false) s = .next t ∧
    Rearranges s t s.args.taddr.toNat s.args.taddr.toNat s.args.len.toNat (mirror s.args.len.toNat) :=
  ⟨_, execRev_ready h, rearranges_putBytes (by simp) (getD_brev_bytesAt s _ _)⟩

theorem exec_revc_rearranges {s : State} (h : RevcReady s) : ∃ t, exec (.revc false) s = .next t ∧
    Rearranges s t s.args.taddr.toNat s.args.saddr.toNat s.args.len.toNat (mirror s.args.len.toNat) :=
  ⟨_, execRevc_ready h, rearranges_putBytes (by simp) (getD_brev_bytesAt s _ _)⟩

theorem exec_bswp_rearranges {s : State} (h : TargetReady s) : ∃ t, exec (.bswp false) s = .next t ∧
    Rearranges s t s.args.taddr.toNat s.args.taddr.toNat (s.args.tbits.toNat / 8) mirrorInLimb := by
  refine ⟨_, execBswp_ready h, rearranges_putBytes (by rw [length_bswap, State.length_bytesAt]; rfl) fun i hi => ?_⟩
  obtain ⟨⟨-, hbits, -⟩, -⟩ := h
  have hlimb : 4 * (i / 4) + 4 ≤ byteCount s.args.tbits := by simp only [byteCount]; omega
  have hswap := getD_bswap (s.bytesAt s.args.taddr.toNat (byteCount s.args.tbits)) (i / 4) (i % 4)
    (by rwa [State.length_bytesAt]) (Nat.mod_lt _ (by omega))
  rwa [Nat.div_add_mod, State.getD_bytesAt s _ (by omega)] at hswap

/-! ### Doing it twice (R134) -/

theorem args_of_accepted {s t : State} {w : Bool} {written : Nat → Prop} (h : Accepted s t w written) :
    t.args = s.args := by
  obtain ⟨⟨-, hargs, -⟩, -⟩ := h
  exact hargs

/-- Acceptance depends on the parameters and the argument registers, which an accepted command keeps (R22). -/
theorem revReady_of_accepted {s t : State} {w : Bool} {written : Nat → Prop} (h : RevReady s)
    (ht : Accepted s t w written) : RevReady t := by
  obtain ⟨⟨hcfg, hargs, -⟩, -⟩ := ht
  rwa [RevReady, hcfg, hargs]

theorem targetReady_of_accepted {s t : State} {w : Bool} {written : Nat → Prop} (h : TargetReady s)
    (ht : Accepted s t w written) : TargetReady t := by
  obtain ⟨⟨hcfg, hargs, -⟩, -⟩ := ht
  rwa [TargetReady, hcfg, hargs]

theorem exec_rev_twice {s : State} (h : RevReady s) : ∃ t u, exec (.rev false) s = .next t ∧
    exec (.rev false) t = .next u ∧ ∀ a, u.byteAt a = s.byteAt a := by
  obtain ⟨t, hst, rst⟩ := exec_rev_rearranges h
  obtain ⟨u, htu, rtu⟩ := exec_rev_rearranges (revReady_of_accepted h rst.2)
  rw [args_of_accepted rst.2] at rtu
  exact ⟨t, u, hst, htu, byteAt_rearranged_twice (selfInverse_mirror _) rst rtu⟩

/-- A second `BSWP` is accepted as the first was, and restores every byte. -/
theorem exec_bswp_restores {s t : State} (h : TargetReady s)
    (rst : Rearranges s t s.args.taddr.toNat s.args.taddr.toNat (s.args.tbits.toNat / 8) mirrorInLimb) :
    ∃ u, exec (.bswp false) t = .next u ∧ ∀ a, u.byteAt a = s.byteAt a := by
  obtain ⟨u, htu, rtu⟩ := exec_bswp_rearranges (targetReady_of_accepted h rst.2)
  rw [args_of_accepted rst.2] at rtu
  obtain ⟨⟨-, hbits, -⟩, -⟩ := h
  exact ⟨u, htu, byteAt_rearranged_twice (selfInverse_mirrorInLimb (by omega)) rst rtu⟩

theorem sameOrDisjoint_symm {a n b m : Nat} (h : SameOrDisjoint a n b m) : SameOrDisjoint b m a n := by
  simp only [SameOrDisjoint, Apart] at *; omega

theorem revcReady_exchanged {s t : State} {w : Bool} {written : Nat → Prop} (h : RevcReady s)
    (ht : Accepted s t w written) :
    RevcReady { t with args := { t.args with taddr := s.args.saddr, saddr := s.args.taddr } } := by
  obtain ⟨heven, htarget, hsource, hpair⟩ := h
  obtain ⟨⟨hcfg, hargs, -⟩, -⟩ := ht
  rw [RevcReady, hcfg, hargs]
  exact ⟨heven, hsource, htarget, sameOrDisjoint_symm hpair⟩

/-- `REVC` with its two addresses exchanged copies the input back. -/
theorem exec_revc_back {s : State} (h : RevcReady s) : ∃ t u, exec (.revc false) s = .next t ∧
    exec (.revc false) { t with args := { t.args with taddr := s.args.saddr, saddr := s.args.taddr } } = .next u ∧
    ∀ a, InRange s.args.saddr.toNat s.args.len.toNat a → u.byteAt a = s.byteAt a := by
  obtain ⟨t, hst, moved, hacc⟩ := exec_revc_rearranges h
  obtain ⟨u, htu, movedBack, -⟩ := exec_revc_rearranges (revcReady_exchanged h hacc)
  rw [args_of_accepted hacc] at movedBack
  exact ⟨t, u, hst, htu, fun a ha => byteAt_rearranged_back (selfInverse_mirror _) moved movedBack ha⟩

/-- Limbs with the same four bytes are the same, wherever they stand. -/
theorem State.limbAt_eq_of_bytes {s t : State} {a b j k : Nat}
    (h : ∀ i < 4, s.byteAt (a + 4 * j + i) = t.byteAt (b + 4 * k + i)) : s.limbAt a j = t.limbAt b k := by
  have h0 := h 0 (by omega)
  rw [Nat.add_zero, Nat.add_zero] at h0
  rw [State.limbAt, State.limbAt, h0, h 1 (by omega), h 2 (by omega), h 3 (by omega)]

/-- Reversing all bytes and then those of each limb reverses the limbs. -/
theorem limbAt_rearranged_mirror {s t u : State} {a n k : Nat} (hst : Rearranges s t a a (4 * n) (mirror (4 * n)))
    (htu : Rearranges t u a a (4 * n) mirrorInLimb) (hk : k < n) : u.limbAt a k = s.limbAt a (n - 1 - k) := by
  refine State.limbAt_eq_of_bytes fun i hi => ?_
  have hplace : mirror (4 * n) (4 * k + (3 - i)) = 4 * (n - 1 - k) + i := by simp only [mirror]; omega
  rw [Nat.add_assoc, htu.1 _ (by omega), mirrorInLimb_limb k hi, hst.1 _ (by omega), hplace, Nat.add_assoc]

theorem exec_rev_bswp {s : State} (h : TargetReady s) (hlen : s.args.len.toNat = s.args.tbits.toNat / 8) :
    ∃ t u, exec (.rev false) s = .next t ∧ exec (.bswp false) t = .next u ∧ ∀ k < s.args.tbits.toNat / 32,
      u.limbAt s.args.taddr.toNat k = s.limbAt s.args.taddr.toNat (s.args.tbits.toNat / 32 - 1 - k) := by
  have ⟨⟨_, hbits, _⟩, _, hinside⟩ := h
  have hlimbs : s.args.tbits.toNat / 8 = 4 * (s.args.tbits.toNat / 32) := by omega
  have hrev : RevReady s := ⟨by omega, by rwa [BytesInside, hlen]⟩
  obtain ⟨t, hst, rst⟩ := exec_rev_rearranges hrev
  obtain ⟨u, htu, rtu⟩ := exec_bswp_rearranges (targetReady_of_accepted h rst.2)
  rw [args_of_accepted rst.2, hlimbs] at rtu
  rw [hlen, hlimbs] at rst
  exact ⟨t, u, hst, htu, fun k hk => limbAt_rearranged_mirror rst rtu hk⟩

/-! ### The number-order image (R68) -/

/-- The bytes of limbs, lowest address first, hold the number whose least-significant limb comes first. -/
theorem leValue_bytesOfLimbs (ls : List Word) : leValue (bytesOfLimbs ls) = posVal ls := by
  induction ls with
  | nil => rfl
  | cons l ls ih =>
    have hlimb : leValue (leBytes l) = l.toNat := by
      have hl := l.isLt
      simp only [leBytes, leValue, BitVec.extractLsb'_toNat, Nat.shiftRight_eq_div_pow]
      omega
    have hcons : bytesOfLimbs (l :: ls) = leBytes l ++ bytesOfLimbs ls := rfl
    rw [hcons, leValue_append, hlimb, ih, length_leBytes, posVal]

/-- Byte `i` of limb `k` of `n` has the weight `2^(8*(4*(n-1-k)+i))` in the value (R64, R66). -/
theorem State.limbsVal_byte (s : State) (base : Nat) {n k i : Nat} (hk : k < n) (hi : i < 4) :
    limbsVal (s.limbsAt base n) >>> (8 * (4 * (n - 1 - k) + i)) % 256 = (s.byteAt (base + 4 * k + i)).toNat := by
  have hlt : n - 1 - k < (s.limbsAt base n).reverse.length := by
    rw [List.length_reverse, State.length_limbsAt]; omega
  have hindex : n - 1 - (n - 1 - k) = k := by omega
  have hbyte := leValue_byte (bytesOfLimbs (s.limbsAt base n).reverse) (4 * (n - 1 - k) + i)
  rw [leValue_bytesOfLimbs, posVal_reverse, getD_bytesOfLimbs _ _ _ hlt hi, getD_leBytes _ hi, List.getElem_reverse,
    State.getElem_limbsAt, State.length_limbsAt, hindex, ← State.byteAt_of_limbAt s _ _ hi] at hbyte
  rwa [Nat.shiftRight_eq_div_pow]

/-- A buffer whose limbs have their bytes reversed holds the number-order image of the value it had (R68). -/
theorem byteAt_mirrorInLimb {s t : State} {a n i : Nat} (h : ∀ i < 4 * n, t.byteAt (a + i) = s.byteAt (a + mirrorInLimb i))
    (hi : i < 4 * n) : (t.byteAt (a + i)).toNat = limbsVal (s.limbsAt a n) >>> (8 * (4 * n - 1 - i)) % 256 := by
  have hplace : 4 * n - 1 - i = 4 * (n - 1 - i / 4) + (3 - i % 4) := by omega
  rw [h i hi, hplace, State.limbsVal_byte s a (by omega) (by omega), mirrorInLimb, Nat.add_assoc]

/-! ### Rejections (R282) -/

/-- A command whose one buffer is the target is rejected by check 3, 7 or 8, in that order. -/
theorem rejectsTarget {i : Instr} {s : State} {reads writes : Bool} (hs : i.signed = false)
    (hr : uses i .sbits = false ∧ uses i .len = false) (ht : uses i .tbits = true) (ho : limbOffset i = none)
    (hb : buffers i s.args = [limbBuffer s.args.taddr s.args.tbits reads writes]) : RejectsTarget i s := by
  obtain ⟨hsbits, hlen⟩ := hr
  refine ⟨fun hbad => ?_, fun hgood hmis => ?_, fun hgood hal hout => ?_⟩
  · exact rejects_badBitSize hs fun hall => hbad (hall.1 ht)
  · exact rejects_misaligned hs ⟨fun _ => hgood, by simp [hsbits]⟩ (by simp [hlen]) (by simp [hsbits]) (by simp [ho])
      (by simpa [hb, limbBuffer] using hmis)
  · exact rejects_outOfBounds hs ⟨fun _ => hgood, by simp [hsbits]⟩ (by simp [hlen]) (by simp [hsbits]) (by simp [ho])
      (by simpa [hb, limbBuffer] using hal) (by simpa [hb, limbBuffer, byteCount] using hout)

/-! ### The statements -/

/-- Settles O32: `REV` stores the bytes in the order of `BREV`, and its checks are those of the length and the bounds. -/
theorem revReversesTheBytesInPlace : Obligations.RevReversesTheBytesInPlace := by
  refine ⟨rfl, fun s => ⟨exec_signed rfl s, fun hodd => ?_, fun heven hout => ?_, exec_rev_rearranges⟩⟩
  · exact rejects_oddLength rfl ⟨nofun, nofun⟩ rfl hodd
  · exact rejects_outOfBounds rfl ⟨nofun, nofun⟩ (fun _ => heven) nofun nofun (by simp [buffers, byteBuffer])
      (by simpa [buffers, byteBuffer] using hout)

/-- Settles O33: as `REV`, from another buffer; the pair of buffers is checked last. -/
theorem revcReversesTheBytesIntoACopy : Obligations.RevcReversesTheBytesIntoACopy := by
  refine ⟨rfl, fun s => ⟨exec_signed rfl s, fun hodd => ?_, fun heven hout => ?_, fun heven ht hs hpair => ?_,
    exec_revc_rearranges⟩⟩
  · exact rejects_oddLength rfl ⟨nofun, nofun⟩ rfl hodd
  · exact rejects_outOfBounds rfl ⟨nofun, nofun⟩ (fun _ => heven) nofun nofun (by simp [buffers, byteBuffer])
      (by simpa [buffers, byteBuffer] using hout)
  · exact rejects_overlap rfl ⟨nofun, nofun⟩ (fun _ => heven) nofun nofun (by simp [buffers, byteBuffer])
      (by simpa [buffers, byteBuffer] using ⟨ht, hs⟩) (by simpa [buffers, byteBuffer, Compatible, or_comm] using hpair)

/-- Settles O34: `BSWP` stores the bytes of each limb in the order of `BREV`, which is the number-order image of the value
and its own inverse. -/
theorem bswpReversesTheBytesOfEachLimb : Obligations.BswpReversesTheBytesOfEachLimb := by
  refine ⟨rfl, fun s => ⟨exec_signed rfl s, rejectsTarget rfl ⟨rfl, rfl⟩ rfl rfl rfl, fun h => ?_⟩⟩
  obtain ⟨t, hst, hmoved, hacc⟩ := exec_bswp_rearranges h
  obtain ⟨u, htu, hback⟩ := exec_bswp_restores h ⟨hmoved, hacc⟩
  obtain ⟨⟨-, hbits, -⟩, -⟩ := h
  have hlimbs : s.args.tbits.toNat / 8 = 4 * (s.args.tbits.toNat / 32) := by omega
  refine ⟨t, u, hst, fun k hk i hi => ?_, fun i hi => ?_, hacc, htu, hback⟩
  · rw [Nat.add_assoc, hmoved _ (by omega), mirrorInLimb_limb k hi, Nat.add_assoc]
  · rw [hlimbs] at hmoved hi ⊢
    exact byteAt_mirrorInLimb hmoved hi

/-- Settles O35: the orders of `REV`, `REVC` and `BSWP` are their own inverses, and those of `REV` and `BSWP` together
reverse the limbs. -/
theorem reversalsUndoThemselves : Obligations.ReversalsUndoThemselves := by
  refine ⟨fun _ => exec_rev_twice, fun s h => ?_, fun _ => exec_revc_back, fun _ => exec_rev_bswp⟩
  obtain ⟨t, hst, rst⟩ := exec_bswp_rearranges h
  obtain ⟨u, htu, hback⟩ := exec_bswp_restores h rst
  exact ⟨t, u, hst, htu, hback⟩

end Sys2Proof.Machine
end

section
/-! The sizing unit (41_representation.md). Each of its commands writes the target limb by limb; what the statements say of
bytes, limbs and value is read off the list of limbs written. -/

namespace Sys2Proof.Machine

open Sys2Proof.Safety

/-! ### A stored target -/

theorem State.getD_limbsAt (s : State) (base : Nat) {n k : Nat} (h : k < n) :
    (s.limbsAt base n).getD k 0 = s.limbAt base k := by
  rw [List.getD_eq_getElem _ _ (by rwa [State.length_limbsAt]), State.getElem_limbsAt]

/-- An accepted command with the given `WRAP` left the limbs `ls` in the target. -/
abbrev StoresLimbs (s t : State) (wrap : Bool) (ls : List Word) : Prop :=
  t.limbsAt s.args.taddr.toNat (limbCount s.args.tbits) = ls ∧
    Accepted s t wrap (InRange s.args.taddr.toNat (s.args.tbits.toNat / 8))

section
variable {s t : State} {wrap : Bool} {ls : List Word}

theorem storesLimbs_putLimbs (hg : GoodBits s.cfg s.args.tbits) (hl : ls.length = limbCount s.args.tbits) :
    StoresLimbs s ((s.putBytes s.args.taddr.toNat (bytesOfLimbs ls)).accept wrap) wrap ls := by
  refine ⟨?_, accepted_putBytes ?_⟩
  · rw [State.accept_limbsAt, ← hl, State.limbsAt_putLimbs]
  · rw [length_bytesOfLimbs, hl, four_limbCount hg, byteCount]

theorem tVal_of_storesLimbs (h : StoresLimbs s t wrap ls) : tVal t = limbsVal ls := by
  rw [tVal, State.valAt, args_of_accepted h.2, h.1]

theorem limbAt_of_storesLimbs (h : StoresLimbs s t wrap ls) {k : Nat} (hk : k < limbCount s.args.tbits) :
    t.limbAt s.args.taddr.toNat k = ls.getD k 0 := by
  rw [← h.1, State.getD_limbsAt t _ hk]

theorem byteAt_of_storesLimbs (h : StoresLimbs s t wrap ls) {j : Nat} (hj : j < 4 * limbCount s.args.tbits) :
    t.byteAt (s.args.taddr.toNat + j) = (bytesOfLimbs ls).getD j 0 := by
  rw [← h.1, getD_bytesOfLimbs_limbsAt t _ _ _ hj]

end

/-! ### The limbs of the three commands (R150 to R152) -/

theorem bytesOfLimbs_zeroLimbs (n : Nat) : bytesOfLimbs (zeroLimbs n) = List.replicate (4 * n) 0 := by
  induction n with
  | zero => rfl
  | succ n ih =>
    have hlimb : leBytes 0 = List.replicate 4 0 := rfl
    have hcons : bytesOfLimbs (zeroLimbs (n + 1)) = leBytes 0 ++ bytesOfLimbs (zeroLimbs n) := rfl
    rw [hcons, ih, hlimb, ← List.replicate_add, Nat.mul_succ, Nat.add_comm]

theorem getD_seedLimbs {n k : Nat} (hk : k < n) (w : Word) (offs : Nat) :
    (seedLimbs n w offs).getD k 0 = if k = n - offs - 1 then w else 0 := by
  rw [List.getD_eq_getElem _ _ (by rwa [length_seedLimbs])]
  simp only [seedLimbs, zeroLimbs, List.getElem_set, List.getElem_replicate, eq_comm]

/-- The limbs above a widened source are zero. -/
theorem getD_widenLimbs_above {n k : Nat} {src : List Word} (hk : k < n - src.length) : (widenLimbs n src).getD k 0 = 0 := by
  rw [widenLimbs, List.getD_append _ _ _ _ (by rwa [length_zeroLimbs]), zeroLimbs, List.getD_replicate _ hk]

/-- A widened source stands at the least-significant end. -/
theorem getD_widenLimbs_source (n k : Nat) (src : List Word) :
    (widenLimbs n src).getD (n - src.length + k) 0 = src.getD k 0 := by
  rw [widenLimbs, List.getD_append_right _ _ _ _ (by rw [length_zeroLimbs]; omega), length_zeroLimbs, Nat.add_sub_cancel_left]

theorem widenLimbs_length (src : List Word) : widenLimbs src.length src = src := by
  rw [widenLimbs, Nat.sub_self]; rfl

/-! ### The three commands where they are accepted (R150 to R152) -/

theorem exec_zero_stores {s : State} (h : TargetReady s) : ∃ t, exec (.zero false) s = .next t ∧
    StoresLimbs s t false (zeroLimbs (limbCount s.args.tbits)) :=
  ⟨_, execZero_ready h, storesLimbs_putLimbs h.1 (length_zeroLimbs _)⟩

theorem exec_setw_stores {s : State} {offs : Nat} (h : SetwReady offs s) : ∃ t, exec (.setw false offs) s = .next t ∧
    StoresLimbs s t false (seedLimbs (limbCount s.args.tbits) s.args.word offs) :=
  ⟨_, execSetw_ready h, storesLimbs_putLimbs h.1.1 (length_seedLimbs _ _ _)⟩

theorem exec_copy_stores {s : State} (h : PairReady s) : ∃ t, exec (.copy false) s = .next t ∧
    StoresLimbs s t false (widenLimbs (limbCount s.args.tbits) (sLimbs s)) := by
  obtain ⟨ht, -, hwider⟩ := h.1
  have hlen : (sLimbs s).length ≤ limbCount s.args.tbits := by simpa using sLimbs_le_tLimbs hwider
  exact ⟨_, execCopy_ready h, storesLimbs_putLimbs ht (length_widenLimbs hlen)⟩

/-- `COPY` keeps its source: a disjoint one is not written, and an identical one is written with its own limbs. -/
theorem source_kept_of_copy {s t : State} (h : PairReady s)
    (ht : StoresLimbs s t false (widenLimbs (limbCount s.args.tbits) (sLimbs s))) {a : Nat}
    (ha : InRange s.args.saddr.toNat (s.args.sbits.toNat / 8) a) : t.byteAt a = s.byteAt a := by
  have ⟨⟨hgt, hgs, _⟩, _, _, _, _, hpair⟩ := h
  rcases hpair with ⟨hbase, hbytes⟩ | hapart
  · have hcount : limbCount s.args.tbits = limbCount s.args.sbits := by
      simp only [limbCount, tBytes, sBytes] at *; omega
    have hsame : widenLimbs (limbCount s.args.tbits) (sLimbs s) = sLimbs s := by
      have := widenLimbs_length (sLimbs s)
      rwa [State.length_limbsAt, ← hcount] at this
    obtain ⟨j, rfl⟩ := Nat.exists_eq_add_of_le ha.1
    have hj : j < 4 * limbCount s.args.sbits := by rw [four_limbCount hgs, byteCount]; omega
    rw [hsame] at ht
    rw [← hbase, byteAt_of_storesLimbs ht (by rwa [hcount]), hbase, getD_bytesOfLimbs_limbsAt s _ _ _ hj]
  · obtain ⟨-, -, -, hkept⟩ := ht
    exact hkept a (by simp only [InRange, Apart, tBytes, sBytes] at *; omega)

/-! ### Rejections (R282) -/

/-- A command whose buffers are the target, written, and the source, read, is rejected by check 3, 5, 7, 8 or 9, in that
order. -/
theorem rejectsPair {i : Instr} {s : State} {reads : Bool} (hs : i.signed = false) (hl : uses i .len = false)
    (ht : uses i .tbits = true) (hsrc : uses i .sbits = true) (ho : limbOffset i = none)
    (hb : buffers i s.args =
      [limbBuffer s.args.taddr s.args.tbits reads true, limbBuffer s.args.saddr s.args.sbits true false]) :
    RejectsPair i s := by
  have hlen : uses i .len = true → s.args.len.toNat % 2 = 0 := by simp [hl]
  have hoffs : ∀ offs, limbOffset i = some offs → offs < s.args.tbits.toNat / 32 := by simp [ho]
  refine ⟨⟨fun hbad => ?_, fun hgt hgs hwider => ?_⟩, fun hsz hmis => ?_, fun hsz hat has hout => ?_,
    fun hsz hat has hit his hover => ?_⟩
  · exact rejects_badBitSize hs fun hall => hbad ⟨hall.1 ht, hall.2 hsrc⟩
  · exact rejects_sourceWider hs ⟨fun _ => hgt, fun _ => hgs⟩ hlen hsrc hwider
  · obtain ⟨hgt, hgs, hle⟩ := hsz
    exact rejects_misaligned hs ⟨fun _ => hgt, fun _ => hgs⟩ hlen (fun _ => hle) hoffs (by simpa [hb, limbBuffer] using hmis)
  · obtain ⟨hgt, hgs, hle⟩ := hsz
    exact rejects_outOfBounds hs ⟨fun _ => hgt, fun _ => hgs⟩ hlen (fun _ => hle) hoffs
      (by simpa [hb, limbBuffer] using ⟨hat, has⟩) (by simpa [hb, limbBuffer, byteCount] using hout)
  · obtain ⟨hgt, hgs, hle⟩ := hsz
    exact rejects_overlap hs ⟨fun _ => hgt, fun _ => hgs⟩ hlen (fun _ => hle) hoffs
      (by simpa [hb, limbBuffer] using ⟨hat, has⟩) (by simpa [hb, limbBuffer, byteCount] using ⟨hit, his⟩)
      (by simpa [hb, limbBuffer, byteCount, Compatible, or_comm] using hover)

/-! ### The word of `SETW` (R102) -/

theorem encode_setw (offs : Nat) :
    encode (.setw false offs) = BitVec.ofNat 32 (offs * 2 ^ 16 + 0x0009) := by
  apply BitVec.eq_of_toNat_eq
  rw [encode, toNat_formatC, BitVec.toNat_ofNat, BitVec.toNat_ofNat]
  have hop : (0x09 : BitVec 8).toNat = 9 := rfl
  rw [hop, Bool.toNat_false]
  omega

theorem decode_setw_word {offs : Nat} (h : offs < 65536) :
    decode (BitVec.ofNat 32 (offs * 2 ^ 16 + 0x0009)) = .ok (.setw false offs) := by
  rw [← encode_setw]
  exact decode_encode (decide_eq_true h)

/-! ### The statements -/

/-- Settles O36: the limbs `ZERO` stores are all zero, and so are their bytes and their value. -/
theorem zeroFillsTheTarget : Obligations.ZeroFillsTheTarget := by
  refine ⟨rfl, fun s => ⟨exec_signed rfl s, rejectsTarget rfl ⟨rfl, rfl⟩ rfl rfl rfl, fun h => ?_⟩⟩
  obtain ⟨t, hexec, hstores⟩ := exec_zero_stores h
  refine ⟨t, hexec, fun i hi => ?_, ?_, hstores.2⟩
  · have hbytes : i < 4 * limbCount s.args.tbits := by rwa [four_limbCount h.1]
    rw [byteAt_of_storesLimbs hstores hbytes, bytesOfLimbs_zeroLimbs, List.getD_replicate _ hbytes]
  · rw [tVal_of_storesLimbs hstores, limbsVal_zeroLimbs]

/-- Settles O37: `SETW` stores `WORD` as the one limb that weighs `2^(32*offs)`; its offset is checked after the size. -/
theorem setwPlacesTheWordAtItsOffset : Obligations.SetwPlacesTheWordAtItsOffset := by
  refine ⟨fun _ => decode_setw_word, fun s offs => ⟨exec_signed rfl s, fun hbad => ?_, fun hgood hrange => ?_,
    fun hgood hoffs hmis => ?_, fun hgood hoffs hal hout => ?_, fun h => ?_⟩⟩
  · exact rejects_badBitSize rfl fun hall => hbad (hall.1 rfl)
  · exact rejects_offsetRange rfl ⟨fun _ => hgood, nofun⟩ nofun nofun rfl hrange
  · exact rejects_misaligned rfl ⟨fun _ => hgood, nofun⟩ nofun nofun (by simpa [limbOffset] using hoffs)
      (by simpa [buffers, limbBuffer] using hmis)
  · exact rejects_outOfBounds rfl ⟨fun _ => hgood, nofun⟩ nofun nofun (by simpa [limbOffset] using hoffs)
      (by simpa [buffers, limbBuffer] using hal) (by simpa [buffers, limbBuffer, byteCount] using hout)
  · obtain ⟨t, hexec, hstores⟩ := exec_setw_stores h
    refine ⟨t, hexec, fun k hk => ?_, ?_, hstores.2⟩
    · exact (limbAt_of_storesLimbs hstores hk).trans (getD_seedLimbs hk _ _)
    · exact (tVal_of_storesLimbs hstores).trans (limbsVal_seedLimbs h.2 _)

/-- Settles O38: `COPY` stores the source's limbs under zero limbs, which keeps the value; an identical source is written
with what it held. -/
theorem copyCopiesTheValue : Obligations.CopyCopiesTheValue := by
  refine ⟨rfl, fun s => ⟨exec_signed rfl s, rejectsPair rfl rfl rfl rfl rfl rfl, fun h => ?_⟩⟩
  obtain ⟨t, hexec, hstores⟩ := exec_copy_stores h
  have ⟨⟨_, hbt, _⟩, ⟨_, hbs, _⟩, hle⟩ := h.1
  have hcount : (s.args.tbits.toNat - s.args.sbits.toNat) / 32 = limbCount s.args.tbits - (sLimbs s).length := by
    rw [State.length_limbsAt, limbCount, limbCount]; omega
  refine ⟨t, hexec, fun k hk => ?_, fun k hk => ?_, ?_, fun a ha => source_kept_of_copy h hstores ha, hstores.2⟩
  · rw [limbAt_of_storesLimbs hstores (by rw [limbCount]; omega), getD_widenLimbs_above (by rwa [← hcount])]
  · rw [limbAt_of_storesLimbs hstores (by rw [limbCount]; omega), hcount, getD_widenLimbs_source]
    exact State.getD_limbsAt s _ hk
  · exact (tVal_of_storesLimbs hstores).trans (limbsVal_widenLimbs _ _)

end Sys2Proof.Machine
end

section
/-! The adder (43_add.md): its cell, its walk over the limbs, what `ADD` and `SUB` store, and `SUB` taking back what `ADD`
of a separate source has put in. -/

namespace Sys2Proof.Machine

open Sys2Proof.Safety

/-! ### The cell (R190) -/

theorem toNat_ladd_sum (a b : Word) (c : Bool) : (ladd a b c).1.toNat = (a.toNat + b.toNat + c.toNat) % 2 ^ 32 := by
  rw [← ladd_spec, Nat.add_mul_mod_self_left, Nat.mod_eq_of_lt (ladd a b c).1.isLt]

theorem toNat_ladd_carry (a b : Word) (c : Bool) : (ladd a b c).2.toNat = (a.toNat + b.toNat + c.toNat) / 2 ^ 32 := by
  rw [← ladd_spec, Nat.add_mul_div_left _ _ (by omega), Nat.div_eq_of_lt (ladd a b c).1.isLt, Nat.zero_add]

theorem ladd_carry_iff (a b : Word) (c : Bool) :
    (ladd a b c).2 = true ↔ 2 ^ 32 ≤ a.toNat + b.toNat + c.toNat := by
  have hcarry := toNat_ladd_carry a b c
  cases hc : (ladd a b c).2 <;> rw [hc] at hcarry
  case false => simp only [Bool.toNat_false, Bool.false_eq_true, false_iff] at *; omega
  case true => simp only [Bool.toNat_true, true_iff] at *; omega

theorem ladd_zero (a : Word) : ladd a 0 false = (a, false) := by
  have hsum : a.toNat + (0 : Word).toNat + false.toNat = a.toNat := rfl
  refine Prod.ext (BitVec.eq_of_toNat_eq ?_) (Bool.eq_false_iff.mpr ?_)
  · rw [toNat_ladd_sum, hsum, Nat.mod_eq_of_lt a.isLt]
  · rw [Ne, ladd_carry_iff, hsum]
    exact Nat.not_le.mpr a.isLt

/-! ### The walks over the limbs (R191, R211) -/

/-- Taking the source away from the sum gives the target back: both are congruent modulo the width and below it. -/
theorem subLimbs_addLimbs {t s : List Word} (h : s.length ≤ t.length) : (subLimbs (addLimbs t s).1 s).1 = t := by
  have hadd := addLimbs_spec h
  have hsub := subLimbs_spec (t := (addLimbs t s).1) (s := s) (by rwa [length_addLimbs])
  have hlen : (subLimbs (addLimbs t s).1 s).1.length = t.length := by rw [length_subLimbs, length_addLimbs]
  rw [length_addLimbs] at hsub
  have hlt := limbsVal_lt (subLimbs (addLimbs t s).1 s).1
  rw [hlen] at hlt
  refine limbs_eq_of_limbsVal hlen ?_
  calc limbsVal (subLimbs (addLimbs t s).1 s).1
      = (limbsVal (subLimbs (addLimbs t s).1 s).1 + 2 ^ (32 * t.length) * (addLimbs t s).2.toNat) %
          2 ^ (32 * t.length) := by rw [Nat.add_mul_mod_self_left, Nat.mod_eq_of_lt hlt]
    _ = (limbsVal t + 2 ^ (32 * t.length) * (subLimbs (addLimbs t s).1 s).2.toNat) % 2 ^ (32 * t.length) := by
        congr 1; omega
    _ = limbsVal t := by rw [Nat.add_mul_mod_self_left, Nat.mod_eq_of_lt (limbsVal_lt t)]

/-! ### The two commands where they are accepted (R192, R212) -/

theorem exec_add_stores {s : State} (h : PairReady s) : ∃ t, exec (.add false) s = .next t ∧
    StoresLimbs s t (addLimbs (tLimbs s) (sLimbs s)).2 (addLimbs (tLimbs s) (sLimbs s)).1 :=
  ⟨_, execAdd_ready h, storesLimbs_putLimbs h.1.1 (by rw [length_addLimbs, State.length_limbsAt])⟩

theorem exec_sub_stores {s : State} (h : PairReady s) : ∃ t, exec (.sub false) s = .next t ∧
    StoresLimbs s t (subLimbs (tLimbs s) (sLimbs s)).2 (subLimbs (tLimbs s) (sLimbs s)).1 :=
  ⟨_, execSub_ready h, storesLimbs_putLimbs h.1.1 (by rw [length_subLimbs, State.length_limbsAt])⟩

theorem tVal_of_storesSum {s t : State} {wrap : Bool} (h : SizesReady s)
    (ht : StoresLimbs s t wrap (addLimbs (tLimbs s) (sLimbs s)).1) :
    tVal t = (tVal s + sVal s) % 2 ^ s.args.tbits.toNat := by
  obtain ⟨hgood, -, hle⟩ := h
  rw [tVal_of_storesLimbs ht, limbsVal_addLimbs (sLimbs_le_tLimbs hle), State.length_limbsAt, bits_limbCount hgood]
  rfl

theorem addLimbs_carry_eq {s : State} (h : SizesReady s) :
    (addLimbs (tLimbs s) (sLimbs s)).2 = decide (2 ^ s.args.tbits.toNat ≤ tVal s + sVal s) := by
  obtain ⟨hgood, -, hle⟩ := h
  have hcarry := addLimbs_carry (sLimbs_le_tLimbs hle)
  rw [State.length_limbsAt, bits_limbCount hgood] at hcarry
  rw [Bool.eq_iff_iff, hcarry]
  exact decide_eq_true_iff.symm

/-! ### `SUB` after `ADD` (R193, R213) -/

theorem pairReady_of_accepted {s t : State} {w : Bool} {written : Nat → Prop} (h : PairReady s)
    (ht : Accepted s t w written) : PairReady t := by
  obtain ⟨⟨hcfg, hargs, -⟩, -⟩ := ht
  rwa [PairReady, SizesReady, tBytes, sBytes, hcfg, hargs]

/-- A source apart from the target keeps its limbs when the target is stored. -/
theorem sLimbs_of_storesLimbs {s t : State} {wrap : Bool} {ls : List Word} (h : StoresLimbs s t wrap ls)
    (hgood : GoodBits s.cfg s.args.sbits)
    (hapart : Apart s.args.taddr.toNat (tBytes s) s.args.saddr.toNat (sBytes s)) : sLimbs t = sLimbs s := by
  obtain ⟨-, hacc⟩ := h
  rw [sLimbs, args_of_accepted hacc]
  obtain ⟨-, -, hkept⟩ := hacc
  refine State.limbsAt_congr fun i hi => hkept _ ?_
  rw [four_limbCount hgood, byteCount] at hi
  simp only [InRange, Apart, tBytes, sBytes] at *; omega

/-- Storing the target's old limbs over whatever was stored there restores every byte of memory. -/
theorem byteAt_of_storesLimbs_back {s t u : State} {w w' : Bool} {ls : List Word} (hgood : GoodBits s.cfg s.args.tbits)
    (hst : StoresLimbs s t w ls) (htu : StoresLimbs t u w' (tLimbs s)) (a : Nat) : u.byteAt a = s.byteAt a := by
  have hargs := args_of_accepted hst.2
  by_cases ha : InRange s.args.taddr.toNat (s.args.tbits.toNat / 8) a
  · obtain ⟨j, rfl⟩ := Nat.exists_eq_add_of_le ha.1
    have hj : j < 4 * limbCount s.args.tbits := by rw [four_limbCount hgood, byteCount]; omega
    have hbyte := byteAt_of_storesLimbs htu (j := j) (by rwa [hargs])
    rwa [hargs, getD_bytesOfLimbs_limbsAt s _ _ _ hj] at hbyte
  · obtain ⟨-, -, -, kept_st⟩ := hst
    obtain ⟨-, -, -, kept_tu⟩ := htu
    rw [kept_tu a (by rwa [hargs]), kept_st a ha]

/-! ### The statements -/

/-- Settles O39: the cell's two outputs are the remainder and the quotient of the sum by `2^32`, and the quotient is a
bit. -/
theorem adderCellAddsExactly : Obligations.AdderCellAddsExactly :=
  ⟨fun a b c => ⟨toNat_ladd_sum a b c, toNat_ladd_carry a b c, ladd_carry_iff a b c⟩, rfl, rfl, ladd_zero⟩

/-- Settles O40: `ADD` stores the limbs of the sum's remainder, and `WRAP` is the carry out of the walk. -/
theorem addAddsModuloTheWidth : Obligations.AddAddsModuloTheWidth := by
  refine ⟨rfl, fun s => ⟨exec_signed rfl s, rejectsPair rfl rfl rfl rfl rfl rfl, fun h => ?_⟩⟩
  obtain ⟨t, hexec, hstores⟩ := exec_add_stores h
  refine ⟨t, hexec, tVal_of_storesSum h.1 hstores, ?_⟩
  rw [← addLimbs_carry_eq h.1]
  exact hstores.2

/-- Settles O42: both walks keep their lengths and lose nothing but the carry or the borrow out, by induction on the limbs
(`addWalk_spec`, `subWalk_spec`). -/
theorem limbWalksAreExact : Obligations.LimbWalksAreExact :=
  fun t s h => ⟨length_addLimbs t s, addLimbs_spec h, length_subLimbs t s, subLimbs_spec h⟩

/-- Settles O44: `ADD` leaves a source apart from the target as it was, so `SUB` takes the same limbs away and stores the
target's old limbs. -/
theorem subUndoesAdd : Obligations.SubUndoesAdd := by
  intro s h hapart
  have ⟨htgood, hsgood, hle⟩ := h.1
  obtain ⟨t, hst, stored⟩ := exec_add_stores h
  obtain ⟨u, htu, restored⟩ := exec_sub_stores (pairReady_of_accepted h stored.2)
  have htarget : tLimbs t = (addLimbs (tLimbs s) (sLimbs s)).1 := by
    rw [tLimbs, args_of_accepted stored.2, stored.1]
  rw [htarget, sLimbs_of_storesLimbs stored hsgood hapart, subLimbs_addLimbs (sLimbs_le_tLimbs hle)] at restored
  exact ⟨t, u, hst, htu, byteAt_of_storesLimbs_back htgood stored restored⟩

end Sys2Proof.Machine
end

section
/-! The subtractor (44_sub.md): its cell, and what `SUB` stores. -/

namespace Sys2Proof.Machine

open Sys2Proof.Safety

/-- A number below `m` that is `x - y` up to the weight of a borrow is the difference's remainder. -/
theorem eq_sub_emod_of_borrow {v x y m b : Nat} (h : v + y = x + m * b) (hv : v < m) : (v : Int) = ((x : Int) - y) % m := by
  have hcast : (v : Int) + y = x + m * b := mod_cast h
  have hdiff : (x : Int) - y = v + m * -b := by linear_combination -hcast
  rw [hdiff, Int.add_mul_emod_self_left, Int.emod_eq_of_lt (by omega) (by omega)]

/-! ### The cell (R210) -/

theorem toNat_lsub (a b : Word) (c : Bool) :
    ((lsub a b c).1.toNat : Int) = ((a.toNat : Int) - b.toNat - c.toNat) % 2 ^ 32 := by
  have hspec := lsub_spec a b c
  rw [Nat.add_assoc] at hspec
  rw [eq_sub_emod_of_borrow hspec (lsub a b c).1.isLt, Int.natCast_add, ← Int.sub_sub]
  rfl

theorem lsub_borrow_iff (a b : Word) (c : Bool) : (lsub a b c).2 = true ↔ a.toNat < b.toNat + c.toNat := by
  have hspec := lsub_spec a b c
  have hlt := (lsub a b c).1.isLt
  cases hc : (lsub a b c).2 <;> rw [hc] at hspec
  case false => simp only [Bool.toNat_false, Bool.false_eq_true, false_iff] at *; omega
  case true => simp only [Bool.toNat_true, true_iff] at *; omega

theorem lsub_zero (a : Word) : lsub a 0 false = (a, false) := by
  have hborrow : (lsub a 0 false).2 = false := by
    rw [Bool.eq_false_iff, Ne, lsub_borrow_iff]
    exact Nat.not_lt_zero _
  have hspec := lsub_spec a 0 false
  rw [hborrow] at hspec
  exact Prod.ext (BitVec.eq_of_toNat_eq hspec) hborrow

/-! ### The value and the borrow that `SUB` leaves (R212) -/

theorem tVal_of_storesDifference {s t : State} {wrap : Bool} (h : SizesReady s)
    (ht : StoresLimbs s t wrap (subLimbs (tLimbs s) (sLimbs s)).1) :
    (tVal t : Int) = ((tVal s : Int) - sVal s) % 2 ^ s.args.tbits.toNat := by
  obtain ⟨hgood, -, hle⟩ := h
  have hlt := limbsVal_lt (subLimbs (tLimbs s) (sLimbs s)).1
  rw [length_subLimbs] at hlt
  have hdiff := eq_sub_emod_of_borrow (subLimbs_spec (sLimbs_le_tLimbs hle)) hlt
  rw [State.length_limbsAt, bits_limbCount hgood] at hdiff
  rw [tVal_of_storesLimbs ht, hdiff]
  push_cast
  rfl

theorem subLimbs_borrow_eq {s : State} (h : SizesReady s) :
    (subLimbs (tLimbs s) (sLimbs s)).2 = decide (tVal s < sVal s) := by
  obtain ⟨-, -, hle⟩ := h
  rw [Bool.eq_iff_iff, subLimbs_borrow (sLimbs_le_tLimbs hle)]
  exact decide_eq_true_iff.symm

/-! ### The statements -/

/-- Settles O41: the cell's two outputs are the remainder of the difference by `2^32` and whether it is negative. -/
theorem subtractorCellSubtractsExactly : Obligations.SubtractorCellSubtractsExactly :=
  ⟨fun a b c => ⟨toNat_lsub a b c, lsub_borrow_iff a b c⟩, rfl, rfl, lsub_zero⟩

/-- Settles O43: `SUB` stores the limbs of the difference's remainder, and `WRAP` is the borrow out of the walk. -/
theorem subSubtractsModuloTheWidth : Obligations.SubSubtractsModuloTheWidth := by
  refine ⟨rfl, fun s => ⟨exec_signed rfl s, rejectsPair rfl rfl rfl rfl rfl rfl, fun h => ?_⟩⟩
  obtain ⟨t, hexec, hstores⟩ := exec_sub_stores h
  refine ⟨t, hexec, tVal_of_storesDifference h.1 hstores, ?_⟩
  rw [← subLimbs_borrow_eq h.1]
  exact hstores.2

end Sys2Proof.Machine
end

section
/-! The multiplier (45_mul.md): its cell, the accumulation of one partial product, the product its loops leave, and what
`MUL` stores. -/

namespace Sys2Proof.Machine

open Sys2Proof.Safety

/-! ### The cell (R230) -/

theorem toNat_lmul_low (a b c : Word) : (lmul a b c).1.toNat = (a.toNat * b.toNat + c.toNat) % 2 ^ 32 := by
  rw [← lmul_spec, Nat.add_mul_mod_self_left, Nat.mod_eq_of_lt (lmul a b c).1.isLt]

theorem toNat_lmul_high (a b c : Word) : (lmul a b c).2.toNat = (a.toNat * b.toNat + c.toNat) / 2 ^ 32 := by
  rw [← lmul_spec, Nat.add_mul_div_left _ _ (by omega), Nat.div_eq_of_lt (lmul a b c).1.isLt, Nat.zero_add]

/-- A product and carry that fit one limb leave the high half 0. -/
theorem lmul_of_fits {a b c v : Word} (h : a.toNat * b.toNat + c.toNat = v.toNat) : lmul a b c = (v, 0) := by
  refine Prod.ext (BitVec.eq_of_toNat_eq ?_) (BitVec.eq_of_toNat_eq ?_)
  · rw [toNat_lmul_low, h, Nat.mod_eq_of_lt v.isLt]
  · rw [toNat_lmul_high, h, Nat.div_eq_of_lt v.isLt]
    rfl

theorem lmul_one (a : Word) : lmul a 1 0 = (a, 0) := lmul_of_fits (Nat.mul_one a.toNat)

theorem lmul_zero (a c : Word) : lmul a 0 c = (c, 0) := lmul_of_fits (Nat.zero_add c.toNat)

/-! ### The loops (R231, R232) -/

theorem accumulate_of_le {acc : List Word} {shift : Nat} (h : acc.length ≤ shift) (lo : Word) :
    accumulate acc lo shift = acc :=
  if_neg (Nat.not_lt.mpr h)

/-- The rows, started on the zero accumulator, leave the product modulo the target's width. -/
theorem limbsVal_mulLimbs (t s : List Word) :
    limbsVal (mulLimbs t s) = limbsVal t * limbsVal s % 2 ^ (32 * t.length) := by
  rw [mulLimbs, limbsVal_mulRows t s _ (length_zeroLimbs _), limbsVal_zeroLimbs, Nat.zero_add]

/-! ### `MUL` where it is accepted (R232) -/

theorem exec_mul_stores {s : State} (h : PairReady s) : ∃ t, exec (.mul false) s = .next t ∧
    StoresLimbs s t false (mulLimbs (tLimbs s) (sLimbs s)) :=
  ⟨_, execMul_ready h, storesLimbs_putLimbs h.1.1 (by rw [length_mulLimbs, State.length_limbsAt])⟩

theorem tVal_of_storesProduct {s t : State} {wrap : Bool} (hgood : GoodBits s.cfg s.args.tbits)
    (ht : StoresLimbs s t wrap (mulLimbs (tLimbs s) (sLimbs s))) : tVal t = tVal s * sVal s % 2 ^ s.args.tbits.toNat := by
  rw [tVal_of_storesLimbs ht, limbsVal_mulLimbs, State.length_limbsAt, bits_limbCount hgood]
  rfl

/-! ### The statements -/

/-- Settles O45: the cell's two outputs are the remainder and the quotient of `a * b + cin` by `2^32`. -/
theorem multiplierCellMultipliesExactly : Obligations.MultiplierCellMultipliesExactly :=
  ⟨fun a b c => ⟨toNat_lmul_low a b c, toNat_lmul_high a b c⟩, rfl, rfl, lmul_one, lmul_zero⟩

/-- Settles O46: below the width the partial product is added as a seeded limb; at or above it, it is a multiple of the
modulus and is dropped (`limbsVal_accumulate`). -/
theorem accumulateAddsModuloTheWidth : Obligations.AccumulateAddsModuloTheWidth :=
  fun acc lo shift =>
    ⟨length_accumulate acc lo shift, fun h => accumulate_of_le h lo, limbsVal_accumulate acc lo shift⟩

/-- Settles O47: each row adds the target times one source limb at its weight, by induction on the source's limbs
(`limbsVal_mulRows`). -/
theorem schoolbookLoopsComputeTheProduct : Obligations.SchoolbookLoopsComputeTheProduct :=
  fun t s => ⟨length_mulLimbs t s, limbsVal_mulLimbs t s⟩

/-- Settles O48: `MUL` stores the limbs that the loops compute from both operands' old limbs. -/
theorem mulMultipliesModuloTheWidth : Obligations.MulMultipliesModuloTheWidth := by
  refine ⟨rfl, fun s => ⟨exec_signed rfl s, rejectsPair rfl rfl rfl rfl rfl rfl, fun h => ?_⟩⟩
  obtain ⟨t, hexec, hstores⟩ := exec_mul_stores h
  exact ⟨t, hexec, tVal_of_storesProduct h.1.1 hstores, hstores.2⟩

end Sys2Proof.Machine
end

section
/-! The divider (46_div.md): its step, its loop, what `DIV` and `DIVR` store and when they are rejected, and the division
law by the block's own commands. -/

namespace Sys2Proof.Machine

open Sys2Proof.Safety

/-! ### The step and the loop (R250, R251) -/

/-- Shifting the remainder and taking in a bit doubles it and adds the bit. -/
theorem shiftLeft_one_or {rem bit : Nat} (h : bit ≤ 1) : (rem <<< 1) ||| bit = 2 * rem + bit := by
  rw [← Nat.shiftLeft_add_eq_or_of_lt (by omega : bit < 2 ^ 1), Nat.shiftLeft_eq, pow_one, Nat.mul_comm]

theorem dstep_of_le {rem q bit b d : Nat} (hbit : bit ≤ 1) (h : d ≤ 2 * rem + bit) :
    dstep rem q bit b d = (2 * rem + bit - d, q ||| 2 ^ b) := by
  rw [dstep, shiftLeft_one_or hbit, if_pos h, Nat.one_shiftLeft]

theorem dstep_of_lt {rem q bit b d : Nat} (hbit : bit ≤ 1) (h : 2 * rem + bit < d) :
    dstep rem q bit b d = (2 * rem + bit, q) := by
  rw [dstep, shiftLeft_one_or hbit, if_neg (Nat.not_le.mpr h)]

theorem dstep_remainder_lt {rem q bit b d : Nat} (hrem : rem < d) (hbit : bit ≤ 1) : (dstep rem q bit b d).1 < d := by
  rcases Nat.lt_or_ge (2 * rem + bit) d with hlt | hle
  · rwa [dstep_of_lt hbit hlt]
  · rw [dstep_of_le hbit hle]
    simp only
    omega

/-- The loop starts with nothing taken in, where the invariant of `divWalk_spec` says that the dividend has no bit at or
above its width. -/
theorem divBits_eq {n d bits : Nat} (hd : 1 ≤ d) (hn : n < 2 ^ bits) : divBits n d bits = (n / d, n % d) :=
  divWalk_spec hd bits 0 0 hd (Nat.zero_mod _) (by rw [Nat.div_eq_of_lt hn, Nat.zero_div, Nat.zero_mul])

/-! ### Numbers stored as limbs (R67) -/

theorem length_bytes_limbsOfNat {c : Config} {bits : Word} (hg : GoodBits c bits) (v : Nat) :
    (bytesOfLimbs (limbsOfNat (limbCount bits) v)).length = bits.toNat / 8 := by
  rw [length_bytesOfLimbs, length_limbsOfNat, four_limbCount hg, byteCount]

theorem valAt_putNat {c : Config} {base bits : Word} {v : Nat} (hg : GoodBits c bits) (hv : v < 2 ^ bits.toNat)
    (s : State) : (s.putBytes base.toNat (bytesOfLimbs (limbsOfNat (limbCount bits) v))).valAt base bits = v := by
  obtain ⟨-, hlimbs, -⟩ := hg
  obtain ⟨-, hval, -⟩ := storeThenValueReturnsTheNumber s base bits v hlimbs hv
  exact hval

theorem accepted_putBytes_twice {s : State} {a b m n : Nat} {bs cs : List Byte} {w : Bool} (hm : bs.length = m)
    (hn : cs.length = n) : Accepted s (((s.putBytes a bs).putBytes b cs).accept w) w
      (fun x => InRange a m x ∨ InRange b n x) := by
  refine ⟨⟨rfl, rfl, rfl, rfl, rfl, rfl, rfl⟩, rfl, fun x hx => ?_⟩
  obtain ⟨hxa, hxb⟩ := not_or.mp hx
  rw [State.accept_byteAt, State.byteAt_putBytes_outside _ (by rwa [hn]), State.byteAt_putBytes_outside _ (by rwa [hm])]

/-- An operand that an accepted command does not write keeps its value. -/
theorem valAt_of_accepted {s t : State} {w : Bool} {written : Nat → Prop} {c : Config} {base bits : Word}
    (ht : Accepted s t w written) (hg : GoodBits c bits)
    (hkept : ∀ a, InRange base.toNat (bits.toNat / 8) a → ¬written a) : t.valAt base bits = s.valAt base bits := by
  obtain ⟨-, -, hbytes⟩ := ht
  rw [State.valAt, State.valAt, State.limbsAt_congr fun i hi => hbytes _ (hkept _ ?_)]
  rw [four_limbCount hg, byteCount] at hi
  exact ⟨Nat.le_add_right _ _, Nat.add_lt_add_left hi _⟩

theorem apart_symm {a n b m : Nat} (h : Apart a n b m) : Apart b m a n := by
  simp only [Apart] at *; omega

theorem not_inRange_of_apart {a n b m x : Nat} (h : Apart a n b m) (hx : InRange b m x) : ¬InRange a n x := by
  simp only [Apart, InRange] at *; omega

/-! ### The two commands where they are accepted (R252, R253) -/

theorem exec_div_stores {s : State} (h : DivReady s) : ∃ t, exec (.div false) s = .next t ∧
    t.valAt s.args.qaddr s.args.tbits = tVal s / sVal s ∧
    Accepted s t false (InRange s.args.qaddr.toNat (s.args.tbits.toNat / 8)) := by
  have ⟨⟨⟨hgt, _⟩, _⟩, _⟩ := h
  have hquot : tVal s / sVal s < 2 ^ s.args.tbits.toNat := (Nat.div_le_self _ _).trans_lt (valAt_lt s hgt)
  exact ⟨_, execDiv_ready h, valAt_putNat hgt hquot s, accepted_putBytes (length_bytes_limbsOfNat hgt _)⟩

/-- The remainder is stored second and apart from the quotient, which it leaves as stored. -/
theorem exec_divr_stores {s : State} (h : DivrReady s) : ∃ t, exec (.divr false) s = .next t ∧
    t.valAt s.args.qaddr s.args.tbits = tVal s / sVal s ∧ t.valAt s.args.raddr s.args.sbits = tVal s % sVal s ∧
    Accepted s t false (fun a => InRange s.args.qaddr.toNat (s.args.tbits.toNat / 8) a ∨
      InRange s.args.raddr.toNat (s.args.sbits.toNat / 8) a) := by
  have ⟨⟨⟨⟨hgt, hgs, _⟩, _⟩, _, _, _, _, hapart⟩, hdivisor⟩ := h
  have hquot : tVal s / sVal s < 2 ^ s.args.tbits.toNat := (Nat.div_le_self _ _).trans_lt (valAt_lt s hgt)
  have hrem : tVal s % sVal s < 2 ^ s.args.sbits.toNat :=
    (Nat.mod_lt _ (Nat.pos_of_ne_zero hdivisor)).trans (valAt_lt s hgs)
  refine ⟨_, execDivr_ready h, ?_, valAt_putNat hgs hrem _,
    accepted_putBytes_twice (length_bytes_limbsOfNat hgt _) (length_bytes_limbsOfNat hgs _)⟩
  rw [State.accept_valAt, valAt_putBytes_apart hgt (by rw [length_bytes_limbsOfNat hgs]; exact apart_symm hapart),
    valAt_putNat hgt hquot]

/-! ### Rejections (R282) -/

section
variable {i : Instr} {s : State} (hi : i = .div false ∨ i = .divr false)
include hi

theorem rejectsSizes_of_division : RejectsSizes i s := by
  rcases hi with rfl | rfl <;>
    exact ⟨fun hbad => rejects_badBitSize rfl fun hall => hbad ⟨hall.1 rfl, hall.2 rfl⟩,
      fun hgt hgs => rejects_sourceWider rfl ⟨fun _ => hgt, fun _ => hgs⟩ nofun rfl⟩

theorem rejects_misaligned_of_division (hsz : SizesReady s) (h : ¬∀ b ∈ buffers i s.args, b.limb = true → b.base % 4 = 0) :
    Rejects i s .misaligned := by
  obtain ⟨hgt, hgs, hle⟩ := hsz
  rcases hi with rfl | rfl <;>
    exact rejects_misaligned rfl ⟨fun _ => hgt, fun _ => hgs⟩ nofun (fun _ => hle) nofun h

theorem rejects_outOfBounds_of_division (hsz : SizesReady s)
    (hal : ∀ b ∈ buffers i s.args, b.limb = true → b.base % 4 = 0)
    (h : ¬∀ b ∈ buffers i s.args, b.base + b.len ≤ s.cfg.memBytes) : Rejects i s .outOfBounds := by
  obtain ⟨hgt, hgs, hle⟩ := hsz
  rcases hi with rfl | rfl <;>
    exact rejects_outOfBounds rfl ⟨fun _ => hgt, fun _ => hgs⟩ nofun (fun _ => hle) nofun hal h

/-- Where checks 2 to 8 pass and validation does not, it is check 9 that fails. -/
theorem rejects_overlap_of_division (hsz : SizesReady s)
    (hal : ∀ b ∈ buffers i s.args, b.limb = true → b.base % 4 = 0)
    (hin : ∀ b ∈ buffers i s.args, b.base + b.len ≤ s.cfg.memBytes) (h : validate i s ≠ none) :
    Rejects i s .overlap := by
  obtain ⟨hgt, hgs, hle⟩ := hsz
  have hover : ¬(buffers i s.args).Pairwise Compatible := fun hpairs => h <| validate_eq_none.mpr <| by
    rcases hi with rfl | rfl <;>
      exact ⟨rfl, fun _ => hgt, fun _ => hgs, nofun, fun _ => hle, nofun, hal, hin, (allCompatible_iff _).mpr hpairs⟩
  rcases hi with rfl | rfl <;>
    exact rejects_overlap rfl ⟨fun _ => hgt, fun _ => hgs⟩ nofun (fun _ => hle) nofun hal hin hover

end

/-! ### The division law (R254) -/

/-- The argument registers set to multiply the quotient by the divisor. -/
abbrev Args.quotientDivisor (x : Args) : Args := { x with taddr := x.qaddr }

/-- The argument registers set to add the remainder to the quotient's buffer. -/
abbrev Args.quotientRemainder (x : Args) : Args := { x with taddr := x.qaddr, saddr := x.raddr }

/-- Whether two operands are accepted depends on the parameters and the argument registers only. -/
theorem pairReady_of_cfg {s t : State} {x : Args} (hcfg : t.cfg = s.cfg) (h : PairReady { s with args := x }) :
    PairReady { t with args := x } := by
  rwa [PairReady, SizesReady, hcfg]

theorem pairReady_quotientDivisor {s : State} (h : DivOperands s)
    (hapart : Apart s.args.qaddr.toNat (tBytes s) s.args.saddr.toNat (sBytes s)) :
    PairReady { s with args := s.args.quotientDivisor } := by
  obtain ⟨hsizes, -, hsAligned, hqAligned, -, hsInside, hqInside, -⟩ := h
  exact ⟨hsizes, hqAligned, hsAligned, hqInside, hsInside, .inr hapart⟩

theorem pairReady_quotientRemainder {s : State} (h : DivrOperands s) :
    PairReady { s with args := s.args.quotientRemainder } := by
  obtain ⟨⟨hsizes, -, -, hqAligned, -, -, hqInside, -⟩, hrAligned, hrInside, -, -, hapart⟩ := h
  exact ⟨hsizes, hqAligned, hrAligned, hqInside, hrInside, .inr hapart⟩

/-- A product that fits the target is exact. -/
theorem exec_mul_fits {s : State} {x y : Nat} (h : PairReady s) (hx : tVal s = x) (hy : sVal s = y)
    (hfits : x * y < 2 ^ s.args.tbits.toNat) :
    ∃ t, exec (.mul false) s = .next t ∧ t.valAt s.args.taddr s.args.tbits = x * y ∧
      Accepted s t false (InRange s.args.taddr.toNat (s.args.tbits.toNat / 8)) := by
  subst hx hy
  obtain ⟨t, hexec, hstores⟩ := exec_mul_stores h
  have hval := tVal_of_storesProduct h.1.1 hstores
  rw [tVal, args_of_accepted hstores.2, Nat.mod_eq_of_lt hfits] at hval
  exact ⟨t, hexec, hval, hstores.2⟩

/-- A sum that fits the target is exact, and leaves `WRAP` 0. -/
theorem exec_add_fits {s : State} {x y : Nat} (h : PairReady s) (hx : tVal s = x) (hy : sVal s = y)
    (hfits : x + y < 2 ^ s.args.tbits.toNat) :
    ∃ t, exec (.add false) s = .next t ∧ t.valAt s.args.taddr s.args.tbits = x + y ∧
      Accepted s t false (InRange s.args.taddr.toNat (s.args.tbits.toNat / 8)) := by
  subst hx hy
  obtain ⟨t, hexec, hstores⟩ := exec_add_stores h
  have hval := tVal_of_storesSum h.1 hstores
  rw [tVal, args_of_accepted hstores.2, Nat.mod_eq_of_lt hfits] at hval
  rw [addLimbs_carry_eq h.1, decide_eq_false (Nat.not_le.mpr hfits)] at hstores
  exact ⟨t, hexec, hval, hstores.2⟩

/-! ### The statements -/

/-- Settles O49: a doubled remainder is below twice the divisor, so one subtraction brings it below. -/
theorem dividerStepKeepsTheRemainderSmall : Obligations.DividerStepKeepsTheRemainderSmall :=
  fun _ _ _ _ _ hrem hbit => ⟨dstep_remainder_lt hrem hbit, dstep_of_le hbit, dstep_of_lt hbit⟩

/-- Settles O50: by induction on the bit position, the invariant being that the quotient and the remainder so far divide
the bits taken in so far (`divWalk_spec`). -/
theorem divBitsGivesQuotientAndRemainder : Obligations.DivBitsGivesQuotientAndRemainder :=
  fun _ _ _ => divBits_eq

/-- Settles O51: `DIV` stores the limbs of the quotient, which is no larger than the dividend and so fits its width. -/
theorem divWritesTheQuotient : Obligations.DivWritesTheQuotient := by
  refine ⟨rfl, fun s => ⟨exec_signed rfl s, rejectsSizes_of_division (.inl rfl), fun hsz hmis => ?_,
    fun hsz hat has haq hout => ?_, fun hsz hat has haq hit his hiq hover => ?_, execDiv_zero, exec_div_stores⟩⟩
  · exact rejects_misaligned_of_division (.inl rfl) hsz (by simpa [buffers, limbBuffer] using hmis)
  · exact rejects_outOfBounds_of_division (.inl rfl) hsz (by simpa [buffers, limbBuffer] using ⟨hat, has, haq⟩)
      (by simpa [buffers, limbBuffer, byteCount] using hout)
  · exact rejects_overlap_of_division (.inl rfl) hsz (by simpa [buffers, limbBuffer] using ⟨hat, has, haq⟩)
      (by simpa [buffers, limbBuffer, byteCount] using ⟨hit, his, hiq⟩) (mt (validate_div s).mp hover)

/-- Settles O52: `DIVR` stores the limbs of the quotient and of the remainder, in buffers apart from each other. -/
theorem divrWritesQuotientAndRemainder : Obligations.DivrWritesQuotientAndRemainder := by
  refine ⟨rfl, fun s => ⟨exec_signed rfl s, rejectsSizes_of_division (.inr rfl), fun hsz hmis => ?_,
    fun hsz hat has haq har hout => ?_, fun hsz hat has haq har hit his hiq hir hover => ?_, execDivr_zero, fun h => ?_⟩⟩
  · exact rejects_misaligned_of_division (.inr rfl) hsz (by simpa [buffers, limbBuffer] using hmis)
  · exact rejects_outOfBounds_of_division (.inr rfl) hsz (by simpa [buffers, limbBuffer] using ⟨hat, has, haq, har⟩)
      (by simpa [buffers, limbBuffer, byteCount] using hout)
  · exact rejects_overlap_of_division (.inr rfl) hsz (by simpa [buffers, limbBuffer] using ⟨hat, has, haq, har⟩)
      (by simpa [buffers, limbBuffer, byteCount] using ⟨hit, his, hiq, hir⟩) (mt (validate_divr s).mp hover)
  · obtain ⟨t, hexec, hquot, hrem, hacc⟩ := exec_divr_stores h
    obtain ⟨-, hdivisor⟩ := h
    refine ⟨t, hexec, hquot, hrem, ?_, ?_, hacc⟩
    · rw [hquot, hrem, Nat.div_add_mod']
    · rw [hrem]
      exact Nat.mod_lt _ (Nat.pos_of_ne_zero hdivisor)

/-- Settles O53: neither the product of quotient and divisor nor its sum with the remainder exceeds the dividend, so
neither wraps; `DIVR` keeps the divisor and `MUL` the remainder. -/
theorem quotientTimesDivisorPlusRemainder : Obligations.QuotientTimesDivisorPlusRemainder := by
  intro s h hqs hrs
  have ⟨hops, _⟩ := h
  have ⟨⟨⟨hgt, hgs, _⟩, _⟩, _, _, _, _, hqr⟩ := hops
  have hfits : tVal s < 2 ^ s.args.tbits.toNat := valAt_lt s hgt
  have hlaw : tVal s / sVal s * sVal s + tVal s % sVal s = tVal s := Nat.div_add_mod' _ _
  obtain ⟨t, hst, hquot, hrem, hacct⟩ := exec_divr_stores h
  have ⟨⟨hcfgt, _⟩, _⟩ := hacct
  have hdivisor : t.valAt s.args.saddr s.args.sbits = sVal s := valAt_of_accepted hacct hgs fun _ ha =>
    not_or.mpr ⟨not_inRange_of_apart hqs ha, not_inRange_of_apart hrs ha⟩
  have hmul := pairReady_of_cfg hcfgt (pairReady_quotientDivisor hops.1 hqs)
  obtain ⟨u, htu, hprod, haccu⟩ := exec_mul_fits hmul hquot hdivisor ((Nat.div_mul_le_self _ _).trans_lt hfits)
  have ⟨⟨hcfgu, _⟩, _⟩ := haccu
  have hremainder : u.valAt s.args.raddr s.args.sbits = tVal s % sVal s :=
    (valAt_of_accepted haccu hgs fun _ => not_inRange_of_apart hqr).trans hrem
  have hadd := pairReady_of_cfg (hcfgu.trans hcfgt) (pairReady_quotientRemainder hops)
  obtain ⟨v, huv, hsum, -, hstatus, -⟩ := exec_add_fits hadd hprod hremainder (hlaw.trans_lt hfits)
  exact ⟨t, u, v, hst, htu, huv, hsum.trans hlaw, by rw [hstatus], by rw [hstatus]⟩

end Sys2Proof.Machine
end

section
/-! Errors (60_exceptions.md R280 to R293): a command is rejected with the error of the first of its checks that fails, a
rejection changes `CMD` and `STATUS` alone, and nothing stops the block. -/

namespace Sys2Proof.Machine

open Sys2Proof.Safety

/-! ### The first check that fails (R282) -/

open Classical in
/-- The error of the first check of a list that fails. -/
noncomputable def firstFailing (l : List (Prop × CmdError)) : Option CmdError := (l.find? (·.1)).map (·.2)

theorem firstFailing_eq_some {l : List (Prop × CmdError)} {k : Nat} {p : Prop} {e : CmdError} (hk : l[k]? = some (p, e))
    (hp : p) (hpass : ∀ j < k, ∀ q, l[j]? = some q → ¬q.1) : firstFailing l = some e := by
  classical
  obtain ⟨hlt, hget⟩ := List.getElem?_eq_some_iff.mp hk
  have hfind : l.find? (·.1) = some (p, e) := List.find?_eq_some_iff_getElem.mpr
    ⟨decide_eq_true hp, k, hlt, hget, fun j hj => by simpa using hpass j hj _ (List.getElem?_eq_getElem _)⟩
  simp [firstFailing, hfind]

theorem firstFailing_eq_none {l : List (Prop × CmdError)} : firstFailing l = none ↔ ∀ q ∈ l, ¬q.1 := by
  simp [firstFailing, List.find?_eq_none]

theorem firstFailing_append (l m : List (Prop × CmdError)) :
    firstFailing (l ++ m) = (firstFailing l).or (firstFailing m) := by
  simp only [firstFailing, List.find?_append, Option.map_or]

theorem firstFailing_cons (p : Prop) [Decidable p] (e : CmdError) (l : List (Prop × CmdError)) :
    firstFailing ((p, e) :: l) = if p then some e else firstFailing l := by
  by_cases hp : p <;> simp [firstFailing, hp]

theorem firstFailing_singleton {p : Prop} {e e' : CmdError} : firstFailing [(p, e)] = some e' ↔ p ∧ e = e' := by
  by_cases hp : p <;> simp [firstFailing, hp]

/-- Checks 2 to 9 of R282, which read no operand memory. -/
abbrev registerChecks (i : Instr) (s : State) : List (Prop × CmdError) := (checks i s).take 8

theorem checks_eq_append (i : Instr) (s : State) :
    checks i s = registerChecks i s ++ [(Divides i ∧ sVal s = 0, .divideByZero)] := rfl

/-- `validate` is checks 2 to 9 in their order. -/
theorem validate_eq_firstFailing (i : Instr) (s : State) : validate i s = firstFailing (registerChecks i s) := by
  classical
  simp only [registerChecks, checks, List.take, firstFailing_cons]
  refine if_congr Iff.rfl rfl <| if_congr ?_ rfl <| if_congr ?_ rfl <| if_congr ?_ rfl <| if_congr ?_ rfl <|
    if_congr ?_ rfl <| if_congr ?_ rfl <| if_congr ?_ rfl rfl
  · simp [badBits_eq_true]
  · simp
  · simp
  · simpa using offset_check (i := i) (s := s)
  · simpa using aligned_check (i := i) (s := s)
  · simpa using inside_check (i := i) (s := s)
  · simp [← allCompatible_iff]

/-- A command is rejected with the error of the first of checks 2 to 10 that fails; the tenth is made where the others
have passed (R292). -/
theorem rejects_of_firstFailing {i : Instr} {s : State} {e : CmdError} (h : firstFailing (checks i s) = some e) :
    Rejects i s e := by
  rw [checks_eq_append, firstFailing_append, ← validate_eq_firstFailing] at h
  rcases Option.or_eq_some_iff.mp h with hv | ⟨hv, h10⟩
  · exact exec_invalid hv
  · obtain ⟨⟨hdivides, hzero⟩, rfl⟩ := firstFailing_singleton.mp h10
    exact exec_divides_zero hv hdivides hzero

theorem accepted_of_checks {i : Instr} {s : State} (h : ∀ q ∈ checks i s, ¬q.1) :
    ∃ t, exec i s = .next t ∧ t.status.err = 0 := by
  rw [checks_eq_append, List.forall_mem_append, List.forall_mem_singleton] at h
  obtain ⟨hregisters, hdivisor⟩ := h
  exact accepted_of_validate ((validate_eq_firstFailing i s).trans (firstFailing_eq_none.mpr hregisters)) hdivisor

/-! ### Rejections (R281) -/

/-- An issue that leaves `ERR` not 0 was rejected: an accepted command leaves it 0. -/
theorem rejected_of_issueWord {s t : State} {w : Word} (h : s.issueWord w = .next t) (herr : t.status.err ≠ 0) :
    ∃ e, t = (s.withCmd w).reject e := by
  obtain ⟨t', ht', hcases⟩ := s.issueWord_cases w
  obtain rfl : t = t' := by simpa [h] using ht'
  rcases hcases with ⟨-, rfl⟩ | ⟨i, -, -, he⟩
  · exact ⟨_, rfl⟩
  · cases he with
    | rejected e ht => exact ⟨e, ht⟩
    | accepted ws wrap _ ht => exact absurd (by rw [ht]; rfl) herr

/-- The codes of R280 end at 10, and an accepted command leaves 0. -/
theorem issueWord_err_le {s t : State} {w : Word} (h : s.issueWord w = .next t) : t.status.err.toNat ≤ 10 := by
  rcases issueWord_status_cases h with ⟨e, hst⟩ | ⟨wrap, hst⟩
  · rw [hst]; exact e.code_le
  · rw [hst]; exact Nat.zero_le _

/-! ### The statements -/

/-- Settles O7: a command is rejected, or it writes inside memory and is accepted (`exec_effect`). -/
theorem everyCommandAnswersANextState : Obligations.EveryCommandAnswersANextState :=
  fun i s => (exec_effect i s).imp fun _ ⟨hexec, _⟩ => hexec

/-- Settles O8: each host event answers a next state, a write to `CMD` because its command does (`step_cases`). -/
theorem everyStepAnswersANextState : Obligations.EveryStepAnswersANextState :=
  fun s => (step_cases s).imp fun _ ⟨hstep, _⟩ => hstep

/-- Settles O11: only a rejection leaves `ERR` not 0, and it writes `STATUS` alone after the issue has set `CMD`. -/
theorem rejectionChangesOnlyCmdAndStatus : Obligations.RejectionChangesOnlyCmdAndStatus := by
  intro s t w rest hp hstep herr
  obtain ⟨e, rfl⟩ := rejected_of_issueWord ((step_command hp).symm.trans hstep) herr
  rfl

/-- Settles O12: the table, and `STATUS` after an issue holds one of its codes or 0. -/
theorem errorCodesAreThoseOfTheTable : Obligations.ErrorCodesAreThoseOfTheTable :=
  ⟨rfl, rfl, rfl, rfl, rfl, rfl, rfl, rfl, rfl, rfl, fun _ _ _ => issueWord_err_le⟩

/-- Settles O13: a word that does not decode fails check 1; `validate` finds the first of checks 2 to 9 that fails, and
where none does `DIV` and `DIVR` make check 10. -/
theorem firstFailingCheckGivesTheError : Obligations.FirstFailingCheckGivesTheError := by
  refine ⟨fun s w hw => ?_, fun s w i => State.issueWord_ok,
    fun i s k p e hk hp hpass => rejects_of_firstFailing (firstFailing_eq_some hk hp hpass), fun i s => accepted_of_checks⟩
  obtain ⟨_, he⟩ := decode_error_of_ne hw
  exact State.issueWord_error he

end Sys2Proof.Machine
end

section
/-! The words of 95_test_vectors.md section 2.1: each legal one is its command's encoding, each illegal one breaks a clause
of R104. -/

namespace Sys2Proof

theorem decodeTableWord_of_ok {n : Nat} {i : Instr} (h : decode (BitVec.ofNat 32 (n % 2 ^ 32)) = .ok i) :
    decodeTableWord 32 n = some i := by
  simp only [decodeTableWord, h]

theorem decodeTableWord_of_error {n : Nat} {e : DecodeError} (h : decode (BitVec.ofNat 32 (n % 2 ^ 32)) = .error e) :
    decodeTableWord 32 n = none := by
  simp only [decodeTableWord, h]

end Sys2Proof

namespace Sys2Proof.Machine

/-- Settles O5: a legal word is its command's encoding, so it decodes to that command (`decode_encode`); an illegal one has
an unassigned `OP`, `RSV` not zero, or an `IMM` that its command does not use. -/
theorem sampleWordsDecodeAsTheSpecSays : Obligations.SampleWordsDecodeAsTheSpecSays :=
  ⟨decode_encode (i := .rev false) rfl, decode_encode (i := .bswp false) rfl, decode_encode (i := .zero false) rfl,
    decode_encode (i := .setw false 2) rfl, decode_encode (i := .add false) rfl, decode_encode (i := .sub true) rfl,
    decode_encode (i := .mul false) rfl, decode_encode (i := .divr false) rfl,
    decodeTableWord_of_ok (decode_encode (i := .div false) rfl),
    decodeTableWord_of_error (e := .unassignedOpcode) rfl, decodeTableWord_of_error (e := .unassignedOpcode) rfl,
    decodeTableWord_of_error (e := .reservedBits) rfl, decodeTableWord_of_error (e := .unusedImmediate) rfl⟩

end Sys2Proof.Machine
end

section
/-! Reset while a command executes (70_reset_and_hazards.md R321). -/

namespace Sys2Proof.Machine

/-- Whether or not it abandons a command, a reset resets the registers and touches beside them at most operand memory and
the counter of abandoned commands. -/
theorem State.resetDuring_eq (s : State) (w : Word) :
    ∃ m k, s.resetDuring w = { s.resetRegisters with mem := m, abandons := k } := by
  rcases s.resetDuring_cases w with h | ⟨_, ws, -, -, h, -⟩
  · exact ⟨s.mem, s.abandons, h⟩
  · rw [State.putAll_eq ws s] at h
    exact ⟨(s.putAll ws).mem, s.abandons + 1, h⟩

/-- Settles O56: the registers take their reset values, and a byte that changed would lie in a buffer that the word's
command writes (`writesTo_of_resetDuring`). -/
theorem resetDuringACommandKeepsOtherBytes : Obligations.ResetDuringACommandKeepsOtherBytes := by
  intro s w rest hp
  have hbytes : ∀ a, (∀ i, decode w = .ok i → writesTo i s.args a = false) →
      (State.resetDuring { s with pending := rest } w).byteAt a = s.byteAt a := by
    intro a houtside
    by_contra hne
    obtain ⟨i, hi, hw⟩ := writesTo_of_resetDuring (s := { s with pending := rest }) hne
    exact Bool.false_ne_true ((houtside i hi).symm.trans hw)
  obtain ⟨m, k, heq⟩ := State.resetDuring_eq { s with pending := rest } w
  rw [heq] at hbytes
  exact ⟨_, (step_resetDuring hp).trans (congrArg _ heq), Args.get_reset, rfl, rfl, rfl, rfl, hbytes⟩

end Sys2Proof.Machine
end
